-- ==== Sys2Proof/Word.lean ====
section
/-! DEFINITION. The two widths of CORE (00_scope.md section 4): `u8` and `u16`, both unsigned. -/

namespace Sys2Proof

/-- `u8`, the addressable unit (20_memory.md R52). -/
abbrev Byte := BitVec 8

/-- `u16`: every register, address, literal and memory word (10_state.md R24, 20_memory.md R51). -/
abbrev Word := BitVec 16

end Sys2Proof
end

