-- ==== Sys2Proof/Syntax.lean ====
section
/-! DEFINITION. The names of the machine's registers, the 46 mnemonics, and the instructions with their
operands in encoding order (30_encoding.md R94, R96). -/

namespace Sys2Proof

/-- The twelve registers in the fixed order of 10_state.md R20, which is their numbering in an encoding. -/
inductive Reg where
  | ip | acc | r1 | r2 | r3 | r4 | r5 | r6 | r7 | r8 | sp | fp
  deriving DecidableEq, Repr

/-- The eight general registers in the order of 44_stack_call.md R242. -/
def Reg.general : List Reg := [.r1, .r2, .r3, .r4, .r5, .r6, .r7, .r8]

/-- The 46 mnemonics of 30_encoding.md R96. -/
inductive Opcode where
  | movLitReg | movRegReg | movRegMem | movMemReg | movLitMem | movRegPtrReg | movLitOffReg | addRegReg
  | addLitReg | subLitReg | subRegLit | subRegReg | mulLitReg | mulRegReg | incReg | decReg | lsfRegLit
  | lsfRegReg | rsfRegLit | rsfRegReg | andRegLit | andRegReg | orRegLit | orRegReg | xorRegLit | xorRegReg
  | notReg | jmpNotEq | jneReg | jeqLit | jeqReg | jltLit | jltReg | jgtLit | jgtReg | jleLit | jleReg
  | jgeLit | jgeReg | pshLit | pshReg | pop | callLit | callReg | ret | hlt
  deriving DecidableEq, Repr

/-- Every mnemonic, in the order of the table of 30_encoding.md R96. -/
def Opcode.all : List Opcode :=
  [.movLitReg, .movRegReg, .movRegMem, .movMemReg, .movLitMem, .movRegPtrReg, .movLitOffReg, .addRegReg,
   .addLitReg, .subLitReg, .subRegLit, .subRegReg, .mulLitReg, .mulRegReg, .incReg, .decReg,
   .lsfRegLit, .lsfRegReg, .rsfRegLit, .rsfRegReg, .andRegLit, .andRegReg, .orRegLit, .orRegReg,
   .xorRegLit, .xorRegReg, .notReg, .jmpNotEq, .jneReg, .jeqLit, .jeqReg, .jltLit,
   .jltReg, .jgtLit, .jgtReg, .jleLit, .jleReg, .jgeLit, .jgeReg, .pshLit,
   .pshReg, .pop, .callLit, .callReg, .ret, .hlt]

/-- One constructor per row of the opcode table. A register operand is the register its byte names (R92); a
literal or an address is the 16-bit value of its two bytes (R93). The literal of `lsfRegLit` and `rsfRegLit` is the
shift amount, of 16 or of 8 bits (42_logic_shift.md R181). -/
inductive Instr where
  /-- MOV_LIT_REG, R120. -/
  | movLitReg (lit : Word) (rd : Reg)
  /-- MOV_REG_REG, R121. -/
  | movRegReg (rs : Reg) (rd : Reg)
  /-- MOV_REG_MEM, R122. -/
  | movRegMem (rs : Reg) (addr : Word)
  /-- MOV_MEM_REG, R123. -/
  | movMemReg (addr : Word) (rd : Reg)
  /-- MOV_LIT_MEM, R124. -/
  | movLitMem (lit : Word) (addr : Word)
  /-- MOV_REG_PTR_REG, R125. -/
  | movRegPtrReg (rp : Reg) (rd : Reg)
  /-- MOV_LIT_OFF_REG, R126. -/
  | movLitOffReg (base : Word) (ro : Reg) (rd : Reg)
  /-- ADD_REG_REG, R151. -/
  | addRegReg (ra : Reg) (rb : Reg)
  /-- ADD_LIT_REG, R152. -/
  | addLitReg (lit : Word) (r : Reg)
  /-- SUB_LIT_REG, R153. -/
  | subLitReg (lit : Word) (r : Reg)
  /-- SUB_REG_LIT, R154. -/
  | subRegLit (r : Reg) (lit : Word)
  /-- SUB_REG_REG, R155. -/
  | subRegReg (ra : Reg) (rb : Reg)
  /-- MUL_LIT_REG, R156. -/
  | mulLitReg (lit : Word) (r : Reg)
  /-- MUL_REG_REG, R157. -/
  | mulRegReg (ra : Reg) (rb : Reg)
  /-- INC_REG, R158. -/
  | incReg (r : Reg)
  /-- DEC_REG, R159. -/
  | decReg (r : Reg)
  /-- LSF_REG_LIT, R182. -/
  | lsfRegLit (r : Reg) (n : Word)
  /-- LSF_REG_REG, R183. -/
  | lsfRegReg (r : Reg) (rn : Reg)
  /-- RSF_REG_LIT, R184. -/
  | rsfRegLit (r : Reg) (n : Word)
  /-- RSF_REG_REG, R185. -/
  | rsfRegReg (r : Reg) (rn : Reg)
  /-- AND_REG_LIT, R186. -/
  | andRegLit (r : Reg) (lit : Word)
  /-- AND_REG_REG, R187. -/
  | andRegReg (ra : Reg) (rb : Reg)
  /-- OR_REG_LIT, R188. -/
  | orRegLit (r : Reg) (lit : Word)
  /-- OR_REG_REG, R189. -/
  | orRegReg (ra : Reg) (rb : Reg)
  /-- XOR_REG_LIT, R190. -/
  | xorRegLit (r : Reg) (lit : Word)
  /-- XOR_REG_REG, R191. -/
  | xorRegReg (ra : Reg) (rb : Reg)
  /-- NOT, R192. -/
  | notReg (r : Reg)
  /-- JMP_NOT_EQ, R211. -/
  | jmpNotEq (lit : Word) (addr : Word)
  /-- JNE_REG, R212. -/
  | jneReg (r : Reg) (addr : Word)
  /-- JEQ_LIT, R213. -/
  | jeqLit (lit : Word) (addr : Word)
  /-- JEQ_REG, R214. -/
  | jeqReg (r : Reg) (addr : Word)
  /-- JLT_LIT, R215. -/
  | jltLit (lit : Word) (addr : Word)
  /-- JLT_REG, R216. -/
  | jltReg (r : Reg) (addr : Word)
  /-- JGT_LIT, R217. -/
  | jgtLit (lit : Word) (addr : Word)
  /-- JGT_REG, R218. -/
  | jgtReg (r : Reg) (addr : Word)
  /-- JLE_LIT, R219. -/
  | jleLit (lit : Word) (addr : Word)
  /-- JLE_REG, R220. -/
  | jleReg (r : Reg) (addr : Word)
  /-- JGE_LIT, R221. -/
  | jgeLit (lit : Word) (addr : Word)
  /-- JGE_REG, R222. -/
  | jgeReg (r : Reg) (addr : Word)
  /-- PSH_LIT, R244. -/
  | pshLit (lit : Word)
  /-- PSH_REG, R245. -/
  | pshReg (r : Reg)
  /-- POP, R246. -/
  | pop (rd : Reg)
  /-- CALL_LIT, R247. -/
  | callLit (addr : Word)
  /-- CALL_REG, R248. -/
  | callReg (r : Reg)
  /-- RET, R249. -/
  | ret
  /-- HLT, R270. -/
  | hlt
  deriving DecidableEq, Repr

/-- The mnemonic of an instruction. -/
def Instr.opcode : Instr → Opcode
  | .movLitReg _ _ => .movLitReg
  | .movRegReg _ _ => .movRegReg
  | .movRegMem _ _ => .movRegMem
  | .movMemReg _ _ => .movMemReg
  | .movLitMem _ _ => .movLitMem
  | .movRegPtrReg _ _ => .movRegPtrReg
  | .movLitOffReg _ _ _ => .movLitOffReg
  | .addRegReg _ _ => .addRegReg
  | .addLitReg _ _ => .addLitReg
  | .subLitReg _ _ => .subLitReg
  | .subRegLit _ _ => .subRegLit
  | .subRegReg _ _ => .subRegReg
  | .mulLitReg _ _ => .mulLitReg
  | .mulRegReg _ _ => .mulRegReg
  | .incReg _ => .incReg
  | .decReg _ => .decReg
  | .lsfRegLit _ _ => .lsfRegLit
  | .lsfRegReg _ _ => .lsfRegReg
  | .rsfRegLit _ _ => .rsfRegLit
  | .rsfRegReg _ _ => .rsfRegReg
  | .andRegLit _ _ => .andRegLit
  | .andRegReg _ _ => .andRegReg
  | .orRegLit _ _ => .orRegLit
  | .orRegReg _ _ => .orRegReg
  | .xorRegLit _ _ => .xorRegLit
  | .xorRegReg _ _ => .xorRegReg
  | .notReg _ => .notReg
  | .jmpNotEq _ _ => .jmpNotEq
  | .jneReg _ _ => .jneReg
  | .jeqLit _ _ => .jeqLit
  | .jeqReg _ _ => .jeqReg
  | .jltLit _ _ => .jltLit
  | .jltReg _ _ => .jltReg
  | .jgtLit _ _ => .jgtLit
  | .jgtReg _ _ => .jgtReg
  | .jleLit _ _ => .jleLit
  | .jleReg _ _ => .jleReg
  | .jgeLit _ _ => .jgeLit
  | .jgeReg _ _ => .jgeReg
  | .pshLit _ => .pshLit
  | .pshReg _ => .pshReg
  | .pop _ => .pop
  | .callLit _ => .callLit
  | .callReg _ => .callReg
  | .ret => .ret
  | .hlt => .hlt

end Sys2Proof
end

