-- ==== Sys2Proof/Config.lean ====
section
/-! DEFINITION. What a launch of CORE fixes (00_scope.md R7) and the values the spec leaves open. A launch
parameter with two or more admitted values is plain data (`Params`) that State carries, so that a statement about
every state holds for every value of it. An OPEN parameter is an opaque constant: no proof can use a value of it. -/

namespace Sys2Proof.Config

/-- P_SHIFT_LIT_WIDTH: the width of the literal of LSF_REG_LIT and RSF_REG_LIT (42_logic_shift.md R181). -/
inductive ShiftLitWidth where
  | bits16 | bits8
  deriving DecidableEq, Repr

/-- P_FRAME_RESTORE: what RET puts into the frame-byte counter (44_stack_call.md R243). -/
inductive FrameRestore where
  | literal | balanced
  deriving DecidableEq, Repr

/-- P_OPCODE: the opcode byte of each mnemonic (30_encoding.md R97), as rows of byte and mnemonic. -/
abbrev OpcodeTable := List (Byte × Opcode)

/-- The launch parameters that the CPU itself reads (00_scope.md R7). P_REGIONS and P_MEM_SIZE are the State
fields `regions` and `devices`. -/
structure Params where
  opcodes : OpcodeTable
  shiftLit : ShiftLitWidth
  frameRestore : FrameRestore
  deriving DecidableEq, Repr

/-- The first rows of the default table of 30_encoding.md R98. PRESUMED, unsafe: the spec itself takes the numbers
from general knowledge (log 3). -/
def lowOpcodes : OpcodeTable :=
  [(0x10, .movLitReg), (0x11, .movRegReg), (0x12, .movRegMem), (0x13, .movMemReg),
   (0x14, .addRegReg), (0x15, .jmpNotEq), (0x16, .subLitReg), (0x17, .pshLit),
   (0x18, .pshReg), (0x1A, .pop), (0x1B, .movLitMem), (0x1C, .movRegPtrReg),
   (0x1D, .movLitOffReg), (0x1E, .subRegLit), (0x1F, .subRegReg), (0x20, .mulLitReg),
   (0x21, .mulRegReg), (0x26, .lsfRegLit), (0x27, .lsfRegReg), (0x2A, .rsfRegLit),
   (0x2B, .rsfRegReg), (0x2E, .andRegLit), (0x2F, .andRegReg), (0x30, .orRegLit)]

/-- The remaining rows of the default table of 30_encoding.md R98. PRESUMED, unsafe (log 3). -/
def highOpcodes : OpcodeTable :=
  [(0x31, .orRegReg), (0x32, .xorRegLit), (0x33, .xorRegReg), (0x34, .notReg),
   (0x35, .incReg), (0x36, .decReg), (0x3E, .jeqReg), (0x3F, .addLitReg),
   (0x40, .jneReg), (0x41, .jeqLit), (0x42, .jltReg), (0x43, .jltLit),
   (0x44, .jgtReg), (0x45, .jgtLit), (0x46, .jleReg), (0x47, .jleLit),
   (0x48, .jgeReg), (0x49, .jgeLit), (0x5E, .callLit), (0x5F, .callReg),
   (0x60, .ret), (0xFF, .hlt)]

/-- The default P_OPCODE of 30_encoding.md R98. -/
def defaultOpcodes : OpcodeTable := lowOpcodes ++ highOpcodes

/-- The defaults of 00_scope.md R7: table R98, 16-bit shift literals (D3, log 4), `literal` (D11, C4, log 5).
DESIGN CHOICE of the spec, unsafe. -/
def defaultParams : Params :=
  { opcodes := defaultOpcodes, shiftLit := .bits16, frameRestore := .literal }

/-- P_MEM_SIZE's default (20_memory.md R52, D14). DESIGN CHOICE of the spec, unsafe (log 11). -/
def mainMemorySize : Nat := 0x10000

/-- The two shift directions of 42_logic_shift.md R180. -/
inductive ShiftDir where
  | left | right
  deriving DecidableEq, Repr

/-- P_SHIFT_OVERSIZE: the result of a shift by 16 or more, from direction, value and amount (42_logic_shift.md
R180, D4). A free value, safe (log 6). -/
opaque shiftOversize : ShiftDir → Word → Word → Word

/-- P_INIT_MEM: the launch contents of a byte that neither the loader nor an instruction has written, from the
number of the memory device and the local address (10_state.md R36, D20). A free value, safe (log 7). -/
opaque initByte : Nat → Nat → Byte

/-- One call of the device contract (20_memory.md R56), with the device-local address. -/
inductive DeviceAccess where
  | read8 (a : Word) | read16 (a : Word) | write8 (a : Word) (b : Byte) | write16 (a : Word) (v : Word)
  deriving DecidableEq, Repr

/-- P_DEVICES, failures: whether peripheral `d`, having received the accesses `h` (most recent first), fails this
access (20_memory.md R56, 60_exceptions.md R284). A free value, safe (log 8). -/
opaque deviceFails : (d : Nat) → (h : List DeviceAccess) → DeviceAccess → Bool

/-- P_DEVICES, the result of `read8` (20_memory.md R56). A free value, safe (log 8). -/
opaque deviceByte : (d : Nat) → (h : List DeviceAccess) → (a : Word) → Byte

/-- P_DEVICES, the result of `read16` (20_memory.md R56). A free value, safe (log 8). -/
opaque deviceWord : (d : Nat) → (h : List DeviceAccess) → (a : Word) → Word

end Sys2Proof.Config
end

