-- ==== Sys2Proof/WellFormed.lean ====
section
/-! DEFINITION. The checks on an instruction and on launch parameters. Every register operand and, under 16-bit shift
literals, every literal is legal (30_encoding.md R100, R101); what can be ill-formed is a shift literal too wide for
P_SHIFT_LIT_WIDTH = 8, and an opcode map that is not an injective map from all 46 mnemonics (R97). -/

namespace Sys2Proof

/-- The shift literal fits the configured width (42_logic_shift.md R181). -/
def shiftLitFits (w : Config.ShiftLitWidth) (n : Word) : Bool :=
  match w with
  | .bits16 => true
  | .bits8 => n.toNat < 256

/-- The instruction has an encoding under the shift-literal width `w`. -/
def Instr.wellFormed (w : Config.ShiftLitWidth) : Instr → Bool
  | .movLitReg _ _ => true
  | .movRegReg _ _ => true
  | .movRegMem _ _ => true
  | .movMemReg _ _ => true
  | .movLitMem _ _ => true
  | .movRegPtrReg _ _ => true
  | .movLitOffReg _ _ _ => true
  | .addRegReg _ _ => true
  | .addLitReg _ _ => true
  | .subLitReg _ _ => true
  | .subRegLit _ _ => true
  | .subRegReg _ _ => true
  | .mulLitReg _ _ => true
  | .mulRegReg _ _ => true
  | .incReg _ => true
  | .decReg _ => true
  | .lsfRegLit _ n => shiftLitFits w n
  | .lsfRegReg _ _ => true
  | .rsfRegLit _ n => shiftLitFits w n
  | .rsfRegReg _ _ => true
  | .andRegLit _ _ => true
  | .andRegReg _ _ => true
  | .orRegLit _ _ => true
  | .orRegReg _ _ => true
  | .xorRegLit _ _ => true
  | .xorRegReg _ _ => true
  | .notReg _ => true
  | .jmpNotEq _ _ => true
  | .jneReg _ _ => true
  | .jeqLit _ _ => true
  | .jeqReg _ _ => true
  | .jltLit _ _ => true
  | .jltReg _ _ => true
  | .jgtLit _ _ => true
  | .jgtReg _ _ => true
  | .jleLit _ _ => true
  | .jleReg _ _ => true
  | .jgeLit _ _ => true
  | .jgeReg _ _ => true
  | .pshLit _ => true
  | .pshReg _ => true
  | .pop _ => true
  | .callLit _ => true
  | .callReg _ => true
  | .ret => true
  | .hlt => true

/-- P_OPCODE is an injective map from the 46 mnemonics to byte values (30_encoding.md R97): no byte twice, no
mnemonic twice, every mnemonic once. -/
abbrev OpcodesInjective (t : Config.OpcodeTable) : Prop :=
  (t.map Prod.fst).Nodup ∧ (t.map Prod.snd).Nodup ∧ ∀ o ∈ Opcode.all, o ∈ t.map Prod.snd

/-- The launch parameters are ones the spec admits (00_scope.md R7). -/
abbrev ParamsWellFormed (p : Config.Params) : Prop := OpcodesInjective p.opcodes

end Sys2Proof
end

