-- ==== Sys2Proof/Decode.lean ====
section
/-! DEFINITION. Encodings: byte order, register bytes, the opcode map, the formats, the operand layout of every
instruction, the decoder and the encoder (30_encoding.md). -/

namespace Sys2Proof

/-- `v[15:8]` (00_scope.md section 4). -/
def hiByte (v : Word) : Byte := v.extractLsb' 8 8

/-- `v[7:0]`. -/
def loByte (v : Word) : Byte := v.extractLsb' 0 8

/-- `hi ++ lo`: the high byte comes first (30_encoding.md R93, 20_memory.md R63). -/
def beWord (hi lo : Byte) : Word := hi ++ lo

/-- `zext_16` (00_scope.md section 4). -/
def zext (b : Byte) : Word := b.setWidth 16

/-- A register's number (10_state.md R20). -/
def regIndex : Reg → Nat
  | .ip => 0 | .acc => 1 | .r1 => 2 | .r2 => 3 | .r3 => 4 | .r4 => 5
  | .r5 => 6 | .r6 => 7 | .r7 => 8 | .r8 => 9 | .sp => 10 | .fp => 11

/-- The register with a number below twelve; a number of twelve or more never reaches it (`regOfByte`). -/
def regOfIndex : Nat → Reg
  | 0 => .ip | 1 => .acc | 2 => .r1 | 3 => .r2 | 4 => .r3 | 5 => .r4
  | 6 => .r5 | 7 => .r6 | 8 => .r7 | 9 => .r8 | 10 => .sp | _ => .fp

/-- A register operand byte `b` selects register `b mod 12` (30_encoding.md R92). -/
def regOfByte (b : Byte) : Reg := regOfIndex (b.toNat % 12)

/-- The byte the encoder writes for a register: its number. -/
def regByte (r : Reg) : Byte := BitVec.ofNat 8 (regIndex r)

/-- The mnemonic a byte is assigned to, if any (30_encoding.md R97, R99). -/
def opcodeOfByte (t : Config.OpcodeTable) (b : Byte) : Option Opcode :=
  (t.find? fun row => row.1 == b).map Prod.snd

/-- The byte of a mnemonic. In a table without it (not `OpcodesInjective`), 0 (log 22). -/
def byteOfOpcode (t : Config.OpcodeTable) (o : Opcode) : Byte :=
  ((t.find? fun row => row.2 == o).map Prod.fst).getD 0

/-- The formats of 30_encoding.md R95. -/
inductive Format where
  | N | R | L | A | RR | RL8 | LR | AR | RL | RA | LA | LRR
  deriving DecidableEq, Repr

/-- A format's length in bytes, the opcode byte included (30_encoding.md R95). -/
def formatLength : Format → Nat
  | .N => 1 | .R => 2 | .L => 3 | .A => 3 | .RR => 3 | .RL8 => 3
  | .LR => 4 | .AR => 4 | .RL => 4 | .RA => 4 | .LA => 5 | .LRR => 5

/-- The format of the shifts by a literal (42_logic_shift.md R181). -/
def shiftLitFormat : Config.ShiftLitWidth → Format
  | .bits16 => .RL
  | .bits8 => .RL8

/-- The format of every mnemonic (30_encoding.md R96). -/
def opcodeFormat (w : Config.ShiftLitWidth) : Opcode → Format
  | .movLitReg => .LR
  | .movRegReg => .RR
  | .movRegMem => .RA
  | .movMemReg => .AR
  | .movLitMem => .LA
  | .movRegPtrReg => .RR
  | .movLitOffReg => .LRR
  | .addRegReg => .RR
  | .addLitReg => .LR
  | .subLitReg => .LR
  | .subRegLit => .RL
  | .subRegReg => .RR
  | .mulLitReg => .LR
  | .mulRegReg => .RR
  | .incReg => .R
  | .decReg => .R
  | .lsfRegLit => shiftLitFormat w
  | .lsfRegReg => .RR
  | .rsfRegLit => shiftLitFormat w
  | .rsfRegReg => .RR
  | .andRegLit => .RL
  | .andRegReg => .RR
  | .orRegLit => .RL
  | .orRegReg => .RR
  | .xorRegLit => .RL
  | .xorRegReg => .RR
  | .notReg => .R
  | .jmpNotEq => .LA
  | .jneReg => .RA
  | .jeqLit => .LA
  | .jeqReg => .RA
  | .jltLit => .LA
  | .jltReg => .RA
  | .jgtLit => .LA
  | .jgtReg => .RA
  | .jleLit => .LA
  | .jleReg => .RA
  | .jgeLit => .LA
  | .jgeReg => .RA
  | .pshLit => .L
  | .pshReg => .R
  | .pop => .R
  | .callLit => .A
  | .callReg => .R
  | .ret => .N
  | .hlt => .N

/-- The operand layout of every instruction, read in encoding order (30_encoding.md R94, R96) through three readers: a
register operand, a two-byte literal or address, and a shift literal. The decoder and the fetch unit (Machine/Fetch.lean)
are this one definition over their own readers. -/
def readOperands {m : Type → Type} [Monad m] (reg : m Reg) (word : m Word) (shiftLit : m Word) : Opcode → m Instr
  | .movLitReg => do let lit ← word; let rd ← reg; return .movLitReg lit rd
  | .movRegReg => do let rs ← reg; let rd ← reg; return .movRegReg rs rd
  | .movRegMem => do let rs ← reg; let addr ← word; return .movRegMem rs addr
  | .movMemReg => do let addr ← word; let rd ← reg; return .movMemReg addr rd
  | .movLitMem => do let lit ← word; let addr ← word; return .movLitMem lit addr
  | .movRegPtrReg => do let rp ← reg; let rd ← reg; return .movRegPtrReg rp rd
  | .movLitOffReg => do let base ← word; let ro ← reg; let rd ← reg; return .movLitOffReg base ro rd
  | .addRegReg => do let ra ← reg; let rb ← reg; return .addRegReg ra rb
  | .addLitReg => do let lit ← word; let r ← reg; return .addLitReg lit r
  | .subLitReg => do let lit ← word; let r ← reg; return .subLitReg lit r
  | .subRegLit => do let r ← reg; let lit ← word; return .subRegLit r lit
  | .subRegReg => do let ra ← reg; let rb ← reg; return .subRegReg ra rb
  | .mulLitReg => do let lit ← word; let r ← reg; return .mulLitReg lit r
  | .mulRegReg => do let ra ← reg; let rb ← reg; return .mulRegReg ra rb
  | .incReg => do let r ← reg; return .incReg r
  | .decReg => do let r ← reg; return .decReg r
  | .lsfRegLit => do let r ← reg; let n ← shiftLit; return .lsfRegLit r n
  | .lsfRegReg => do let r ← reg; let rn ← reg; return .lsfRegReg r rn
  | .rsfRegLit => do let r ← reg; let n ← shiftLit; return .rsfRegLit r n
  | .rsfRegReg => do let r ← reg; let rn ← reg; return .rsfRegReg r rn
  | .andRegLit => do let r ← reg; let lit ← word; return .andRegLit r lit
  | .andRegReg => do let ra ← reg; let rb ← reg; return .andRegReg ra rb
  | .orRegLit => do let r ← reg; let lit ← word; return .orRegLit r lit
  | .orRegReg => do let ra ← reg; let rb ← reg; return .orRegReg ra rb
  | .xorRegLit => do let r ← reg; let lit ← word; return .xorRegLit r lit
  | .xorRegReg => do let ra ← reg; let rb ← reg; return .xorRegReg ra rb
  | .notReg => do let r ← reg; return .notReg r
  | .jmpNotEq => do let lit ← word; let addr ← word; return .jmpNotEq lit addr
  | .jneReg => do let r ← reg; let addr ← word; return .jneReg r addr
  | .jeqLit => do let lit ← word; let addr ← word; return .jeqLit lit addr
  | .jeqReg => do let r ← reg; let addr ← word; return .jeqReg r addr
  | .jltLit => do let lit ← word; let addr ← word; return .jltLit lit addr
  | .jltReg => do let r ← reg; let addr ← word; return .jltReg r addr
  | .jgtLit => do let lit ← word; let addr ← word; return .jgtLit lit addr
  | .jgtReg => do let r ← reg; let addr ← word; return .jgtReg r addr
  | .jleLit => do let lit ← word; let addr ← word; return .jleLit lit addr
  | .jleReg => do let r ← reg; let addr ← word; return .jleReg r addr
  | .jgeLit => do let lit ← word; let addr ← word; return .jgeLit lit addr
  | .jgeReg => do let r ← reg; let addr ← word; return .jgeReg r addr
  | .pshLit => do let lit ← word; return .pshLit lit
  | .pshReg => do let r ← reg; return .pshReg r
  | .pop => do let rd ← reg; return .pop rd
  | .callLit => do let addr ← word; return .callLit addr
  | .callReg => do let r ← reg; return .callReg r
  | .ret => return .ret
  | .hlt => return .hlt

/-- Why bytes do not decode. -/
inductive DecodeError where
  /-- The opcode byte is assigned to no instruction (30_encoding.md R99). -/
  | unrecognizedOpcode (b : Byte)
  /-- The list ends before the instruction does. -/
  | truncated
  deriving DecidableEq, Repr

/-- A reader over a list of bytes. -/
abbrev ByteReader := EStateM DecodeError (List Byte)

/-- The next byte of the list. -/
def nextByte : ByteReader Byte
  | [] => .error .truncated []
  | b :: bs => .ok b bs

/-- A two-byte operand, high byte first (30_encoding.md R93). -/
def nextWord : ByteReader Word := do let hi ← nextByte; let lo ← nextByte; return beWord hi lo

/-- A register operand (30_encoding.md R92). -/
def nextReg : ByteReader Reg := do let b ← nextByte; return regOfByte b

/-- The literal of a shift, of the configured width (30_encoding.md R93, 42_logic_shift.md R181). -/
def nextShiftLit (w : Config.ShiftLitWidth) : ByteReader Word :=
  match w with
  | .bits16 => nextWord
  | .bits8 => do let b ← nextByte; return zext b

/-- The opcode byte, then the operands of its mnemonic (30_encoding.md R90). -/
def readInstr (p : Config.Params) : ByteReader Instr := do
  let b ← nextByte
  match opcodeOfByte p.opcodes b with
  | none => throw (.unrecognizedOpcode b)
  | some o => readOperands nextReg nextWord (nextShiftLit p.shiftLit) o

/-- The instruction at the head of a list of bytes with the bytes after it, or why there is none. -/
def decode (p : Config.Params) (bs : List Byte) : Except DecodeError (Instr × List Byte) :=
  match readInstr p bs with
  | .ok i rest => .ok (i, rest)
  | .error e _ => .error e

/-- The two bytes of a literal or an address, high byte first (30_encoding.md R93). -/
def wordBytes (v : Word) : List Byte := [hiByte v, loByte v]

/-- The bytes of a shift literal (30_encoding.md R93, 42_logic_shift.md R181). -/
def shiftLitBytes (w : Config.ShiftLitWidth) (n : Word) : List Byte :=
  match w with
  | .bits16 => wordBytes n
  | .bits8 => [loByte n]

/-- The operand bytes of an instruction (30_encoding.md R95, R96). -/
def operandBytes (w : Config.ShiftLitWidth) : Instr → List Byte
  | .movLitReg lit rd => wordBytes lit ++ [regByte rd]
  | .movRegReg rs rd => [regByte rs] ++ [regByte rd]
  | .movRegMem rs addr => [regByte rs] ++ wordBytes addr
  | .movMemReg addr rd => wordBytes addr ++ [regByte rd]
  | .movLitMem lit addr => wordBytes lit ++ wordBytes addr
  | .movRegPtrReg rp rd => [regByte rp] ++ [regByte rd]
  | .movLitOffReg base ro rd => wordBytes base ++ [regByte ro] ++ [regByte rd]
  | .addRegReg ra rb => [regByte ra] ++ [regByte rb]
  | .addLitReg lit r => wordBytes lit ++ [regByte r]
  | .subLitReg lit r => wordBytes lit ++ [regByte r]
  | .subRegLit r lit => [regByte r] ++ wordBytes lit
  | .subRegReg ra rb => [regByte ra] ++ [regByte rb]
  | .mulLitReg lit r => wordBytes lit ++ [regByte r]
  | .mulRegReg ra rb => [regByte ra] ++ [regByte rb]
  | .incReg r => [regByte r]
  | .decReg r => [regByte r]
  | .lsfRegLit r n => [regByte r] ++ shiftLitBytes w n
  | .lsfRegReg r rn => [regByte r] ++ [regByte rn]
  | .rsfRegLit r n => [regByte r] ++ shiftLitBytes w n
  | .rsfRegReg r rn => [regByte r] ++ [regByte rn]
  | .andRegLit r lit => [regByte r] ++ wordBytes lit
  | .andRegReg ra rb => [regByte ra] ++ [regByte rb]
  | .orRegLit r lit => [regByte r] ++ wordBytes lit
  | .orRegReg ra rb => [regByte ra] ++ [regByte rb]
  | .xorRegLit r lit => [regByte r] ++ wordBytes lit
  | .xorRegReg ra rb => [regByte ra] ++ [regByte rb]
  | .notReg r => [regByte r]
  | .jmpNotEq lit addr => wordBytes lit ++ wordBytes addr
  | .jneReg r addr => [regByte r] ++ wordBytes addr
  | .jeqLit lit addr => wordBytes lit ++ wordBytes addr
  | .jeqReg r addr => [regByte r] ++ wordBytes addr
  | .jltLit lit addr => wordBytes lit ++ wordBytes addr
  | .jltReg r addr => [regByte r] ++ wordBytes addr
  | .jgtLit lit addr => wordBytes lit ++ wordBytes addr
  | .jgtReg r addr => [regByte r] ++ wordBytes addr
  | .jleLit lit addr => wordBytes lit ++ wordBytes addr
  | .jleReg r addr => [regByte r] ++ wordBytes addr
  | .jgeLit lit addr => wordBytes lit ++ wordBytes addr
  | .jgeReg r addr => [regByte r] ++ wordBytes addr
  | .pshLit lit => wordBytes lit
  | .pshReg r => [regByte r]
  | .pop rd => [regByte rd]
  | .callLit addr => wordBytes addr
  | .callReg r => [regByte r]
  | .ret => []
  | .hlt => []

/-- The bytes of an instruction: the opcode byte, then its operands (30_encoding.md R90). -/
def encode (p : Config.Params) (i : Instr) : List Byte :=
  byteOfOpcode p.opcodes i.opcode :: operandBytes p.shiftLit i

/-- The length of the longest instruction in bytes (30_encoding.md R90). -/
def longestInstr : Nat := 5

/-- The bytes of an instruction given as a number whose bit 0 is the least significant bit of the first byte: bits from
`nbits` on are 0. -/
def tableWordBytes (nbits w : Nat) : List Byte :=
  (List.range longestInstr).map fun k => BitVec.ofNat 8 ((w % 2 ^ nbits) >>> (8 * k))

/-- What the decoder reads under the default parameters from an instruction whose bits are `w`. -/
def decodeTableWord (nbits w : Nat) : Option Instr :=
  match decode Config.defaultParams (tableWordBytes nbits w) with
  | .ok (i, _) => some i
  | .error _ => none

/-- The mnemonics by name, with the one second name JNE_LIT (30_encoding.md R96, R103). -/
def mnemonicTable : List (String × Opcode) :=
  [("MOV_LIT_REG", .movLitReg), ("MOV_REG_REG", .movRegReg), ("MOV_REG_MEM", .movRegMem), ("MOV_MEM_REG", .movMemReg),
   ("MOV_LIT_MEM", .movLitMem), ("MOV_REG_PTR_REG", .movRegPtrReg), ("MOV_LIT_OFF_REG", .movLitOffReg), ("ADD_REG_REG", .addRegReg),
   ("ADD_LIT_REG", .addLitReg), ("SUB_LIT_REG", .subLitReg), ("SUB_REG_LIT", .subRegLit), ("SUB_REG_REG", .subRegReg),
   ("MUL_LIT_REG", .mulLitReg), ("MUL_REG_REG", .mulRegReg), ("INC_REG", .incReg), ("DEC_REG", .decReg),
   ("LSF_REG_LIT", .lsfRegLit), ("LSF_REG_REG", .lsfRegReg), ("RSF_REG_LIT", .rsfRegLit), ("RSF_REG_REG", .rsfRegReg),
   ("AND_REG_LIT", .andRegLit), ("AND_REG_REG", .andRegReg), ("OR_REG_LIT", .orRegLit), ("OR_REG_REG", .orRegReg),
   ("XOR_REG_LIT", .xorRegLit), ("XOR_REG_REG", .xorRegReg), ("NOT", .notReg), ("JMP_NOT_EQ", .jmpNotEq),
   ("JNE_REG", .jneReg), ("JEQ_LIT", .jeqLit), ("JEQ_REG", .jeqReg), ("JLT_LIT", .jltLit),
   ("JLT_REG", .jltReg), ("JGT_LIT", .jgtLit), ("JGT_REG", .jgtReg), ("JLE_LIT", .jleLit),
   ("JLE_REG", .jleReg), ("JGE_LIT", .jgeLit), ("JGE_REG", .jgeReg), ("PSH_LIT", .pshLit),
   ("PSH_REG", .pshReg), ("POP", .pop), ("CALL_LIT", .callLit), ("CALL_REG", .callReg),
   ("RET", .ret), ("HLT", .hlt),
   ("JNE_LIT", .jmpNotEq)]

/-- The mnemonic a name stands for. -/
def opcodeOfName (n : String) : Option Opcode :=
  (mnemonicTable.find? fun row => row.1 == n).map Prod.snd

end Sys2Proof
end

