-- ==== Sys2Proof/Machine/Alu.lean ====
section
/-! DEFINITION. The values the ALU computes (41_arithmetic.md R150, 42_logic_shift.md R180, R186 to R192): unsigned,
modulo 2^16, with no flag. -/

namespace Sys2Proof.Machine

/-- `x +16 y`. -/
def add16 (x y : Word) : Word := BitVec.ofNat 16 (x.toNat + y.toNat)

/-- `x -16 y`: the exact difference modulo 2^16. -/
def sub16 (x y : Word) : Word := BitVec.ofInt 16 ((x.toNat : Int) - (y.toNat : Int))

/-- `(x * y) mod 2^16`: the low 16 bits of the exact product. -/
def mul16 (x y : Word) : Word := BitVec.ofNat 16 (x.toNat * y.toNat)

/-- `shl16` (42_logic_shift.md R180); an amount of 16 or more is the open P_SHIFT_OVERSIZE (log 6). -/
def shl16 (v n : Word) : Word :=
  if n.toNat ≤ 15 then BitVec.ofNat 16 (v.toNat <<< n.toNat) else Config.shiftOversize .left v n

/-- `shr16`, logical (42_logic_shift.md R180, D27); an amount of 16 or more is the open P_SHIFT_OVERSIZE (log 6). -/
def shr16 (v n : Word) : Word :=
  if n.toNat ≤ 15 then BitVec.ofNat 16 (v.toNat >>> n.toNat) else Config.shiftOversize .right v n

/-- Bitwise AND (42_logic_shift.md R186). -/
def and16 (x y : Word) : Word := x &&& y

/-- Bitwise OR (42_logic_shift.md R188). -/
def or16 (x y : Word) : Word := x ||| y

/-- Bitwise exclusive OR (42_logic_shift.md R190). -/
def xor16 (x y : Word) : Word := x ^^^ y

/-- `(~x) & 0xFFFF` (42_logic_shift.md R192). -/
def not16 (x : Word) : Word := ~~~x

end Sys2Proof.Machine
end

