-- ==== Sys2Proof/Machine/State.lean ====
section
/-! DEFINITION. The state of CORE as plain data (10_state.md), its reset (R39), and the reasons a step has no next
state. The spec's own halts and faults are values of `status` in a next state (log 1). -/

namespace Sys2Proof.Machine

/-- The register file: twelve 16-bit registers, in the order of 10_state.md R20. -/
structure RegFile where
  ip : Word
  acc : Word
  r1 : Word
  r2 : Word
  r3 : Word
  r4 : Word
  r5 : Word
  r6 : Word
  r7 : Word
  r8 : Word
  sp : Word
  fp : Word
  deriving DecidableEq, Repr

/-- What an access is for (60_exceptions.md section 2). -/
inductive AccessKind where
  | fetch | read | write
  deriving DecidableEq, Repr

/-- The width of an access: one byte or two (60_exceptions.md section 2). -/
inductive Width where
  | byte | word
  deriving DecidableEq, Repr

/-- The record of a failed access: its kind, its global address (of the first byte), its width
(60_exceptions.md section 2, D26). -/
structure AccessInfo where
  kind : AccessKind
  addr : Word
  width : Width
  deriving DecidableEq, Repr

/-- The causes of `Faulted` (60_exceptions.md R282 to R284); the last two record the device-local address too. -/
inductive FaultCause where
  | unmappedAddress (info : AccessInfo)
  | boundsViolation (info : AccessInfo) (loc : Word)
  | deviceFault (info : AccessInfo) (loc : Word)
  deriving DecidableEq, Repr

/-- The two halts (45_control.md R270, R271). -/
inductive HaltReason where
  | normal
  | illegalOpcode (b : Byte)
  deriving DecidableEq, Repr

/-- What `raise` and `halt` of the spec's pseudocode end a step with (00_scope.md section 4). -/
inductive Stop where
  | halt (why : HaltReason)
  | fault (cause : FaultCause)
  deriving DecidableEq, Repr

/-- The run state (10_state.md R34). -/
inductive Status where
  | running
  | halted (why : HaltReason)
  | faulted (cause : FaultCause)
  deriving DecidableEq, Repr

/-- A memory device (20_memory.md R52): its fixed size and the bytes written so far, by local address, in the one
canonical form of `Memory.wf`. An address that is not listed has never been written and holds its launch contents
(`Memory.byteAt`, log 7). -/
structure Memory where
  size : Nat
  cells : List Host.Cell
  deriving DecidableEq, Repr

/-- A device bound by a region (20_memory.md R56): a memory device, or a peripheral with the accesses it has received,
most recent first, of which its behaviour is a function (10_state.md R37, log 8). -/
inductive Device where
  | memory (m : Memory)
  | peripheral (history : List Config.DeviceAccess)
  deriving DecidableEq, Repr

/-- A region of the mapper (20_memory.md R57): the device's number, the inclusive interval (`last` is the rule's `end`),
`remap`, and the unmap token of R59. -/
structure Region where
  device : Nat
  start : Word
  last : Word
  remap : Bool
  token : Nat
  deriving DecidableEq, Repr

/-- The whole state (10_state.md R39). -/
structure State where
  /-- The register file (R20). -/
  regs : RegFile
  /-- The frame-byte counter (R33). -/
  fsz : Word
  /-- The run state (R34). -/
  status : Status
  /-- The mapper's regions, most recently registered first (R35). -/
  regions : List Region
  /-- The devices, by number; number 0 is main memory (R36, R37). -/
  devices : List Device
  /-- The model's own: the next unmap token (20_memory.md R59, log 13). -/
  nextToken : Nat
  /-- The model's own: whether the CPU has begun stepping (20_memory.md R55, log 12). -/
  started : Bool
  /-- The launch parameters the CPU reads (00_scope.md R7, log 11). -/
  params : Config.Params
  deriving DecidableEq, Repr

/-- Why the machine makes no transition. -/
inductive Fault where
  /-- Raised by `step` alone, from a state whose status is not Running: the spec defines no step there, the core is stuck
  (45_control.md R272, D18, U6). Safe: nothing can be proved of a further step. -/
  | notRunning (status : Status)
  deriving DecidableEq, Repr

/-- Why an instruction has no meaning. -/
inductive Refusal where
  /-- Raised by an arm of `exec` whose instruction has no meaning yet. Safe. No arm raises it. -/
  | notModelled (mnemonic : String)
  deriving DecidableEq, Repr

/-- The registers at launch (10_state.md R20, R21). -/
def resetRegs : RegFile :=
  { ip := 0x0000, acc := 0x0000, r1 := 0x0000, r2 := 0x0000, r3 := 0x0000, r4 := 0x0000, r5 := 0x0000,
    r6 := 0x0000, r7 := 0x0000, r8 := 0x0000, sp := 0xFFFE, fp := 0xFFFE }

/-- The number of the main-memory device, the first that is constructed (70_reset_and_hazards.md R312). -/
def mainDevice : Nat := 0

/-- Main memory's region in the default P_REGIONS (20_memory.md R69, D14). -/
def mainRegion : Region :=
  { device := mainDevice, start := 0x0000, last := 0xFFFF, remap := false, token := 0 }

/-- The machine right after a launch with the default parameters and no image (10_state.md R39). Main memory lists no
byte: every byte of it is the open P_INIT_MEM (R36, log 7). A program is placed by the loader, from outside (log 15). -/
def State.reset : State :=
  { regs := resetRegs
    fsz := 0
    status := .running
    regions := [mainRegion]
    devices := [.memory { size := Config.mainMemorySize, cells := [] }]
    nextToken := 1
    started := false
    params := Config.defaultParams }

end Sys2Proof.Machine
end

