-- ==== Sys2Proof/Machine/Memory.lean ====
section
/-! DEFINITION. The memory device (20_memory.md section 2): the list of written bytes and its canonical form. -/

namespace Sys2Proof.Machine

/-- The byte listed at an address, if any. -/
def cellAt (a : Nat) : List Host.Cell → Option Byte
  | [] => none
  | c :: rest => if c.1 = a then some c.2 else cellAt a rest

/-- List a byte at an address, in the place of an earlier one. -/
def putCell (a : Nat) (b : Byte) : List Host.Cell → List Host.Cell
  | [] => [(a, b)]
  | c :: rest =>
    if a < c.1 then (a, b) :: c :: rest
    else if a = c.1 then (a, b) :: rest
    else c :: putCell a b rest

/-- The addresses rise strictly from `lo` on and stay below `size`. -/
def cellsRise (size : Nat) : (lo : Nat) → List Host.Cell → Bool
  | _, [] => true
  | lo, c :: rest => lo ≤ c.1 && c.1 < size && cellsRise size (c.1 + 1) rest

/-- The canonical form: strictly rising addresses inside the device. An entry never equals what an unlisted address
holds, since an unlisted address holds the open launch byte, which equals no byte in the model (log 7). -/
def Memory.wf (m : Memory) : Bool := cellsRise m.size 0 m.cells

/-- The one definition of what an address holds: the byte last written there, or the launch byte of P_INIT_MEM
(10_state.md R36, 20_memory.md R71). `d` is the device's number. -/
def Memory.byteAt (m : Memory) (d : Nat) (a : Nat) : Byte :=
  (cellAt a m.cells).getD (Config.initByte d a)

/-- `read16`: high byte at `a`, low byte at `a + 1` (20_memory.md R53). -/
def Memory.wordAt (m : Memory) (d : Nat) (a : Nat) : Word :=
  beWord (m.byteAt d a) (m.byteAt d (a + 1))

/-- `write8` of an address in range (20_memory.md R52). -/
def Memory.putByte (m : Memory) (a : Nat) (b : Byte) : Memory :=
  { m with cells := putCell a b m.cells }

/-- `write16` of an address in range: the high byte at `a`, the low byte at `a + 1` (20_memory.md R53). -/
def Memory.putWord (m : Memory) (a : Nat) (v : Word) : Memory :=
  (m.putByte a (hiByte v)).putByte (a + 1) (loByte v)

/-- Consecutive bytes written from `a` on: the raw loader view (20_memory.md R55). -/
def Memory.putBytes (m : Memory) (a : Nat) : List Byte → Memory
  | [] => m
  | b :: bs => (m.putByte a b).putBytes (a + 1) bs

end Sys2Proof.Machine
end

