-- ==== Sys2Proof/Machine/Ops.lean ====
section
/-! DEFINITION. The named operations of the spec's pseudocode (00_scope.md section 4): registers, raise and halt, the
mapper, MemRead and MemWrite, Push and Pop, PushState and PopState. An operation that raises or halts keeps the state it
had reached (60_exceptions.md R287). -/

namespace Sys2Proof.Machine

/-- An operation of the pseudocode: a value and a new state, or a stop with the state reached. Pseudocode runs top to
bottom and a stop ends it (00_scope.md section 4). -/
abbrev Op := EStateM Stop State

/-! ### Registers -/

/-- `x[r]` of a register file (10_state.md R20). -/
def RegFile.get (f : RegFile) : Reg → Word
  | .ip => f.ip | .acc => f.acc | .r1 => f.r1 | .r2 => f.r2 | .r3 => f.r3 | .r4 => f.r4
  | .r5 => f.r5 | .r6 => f.r6 | .r7 => f.r7 | .r8 => f.r8 | .sp => f.sp | .fp => f.fp

/-- `x[r] <- v` in a register file (10_state.md R20, R22). -/
def RegFile.set (f : RegFile) (r : Reg) (v : Word) : RegFile :=
  match r with
  | .ip => { f with ip := v } | .acc => { f with acc := v } | .r1 => { f with r1 := v } | .r2 => { f with r2 := v }
  | .r3 => { f with r3 := v } | .r4 => { f with r4 := v } | .r5 => { f with r5 := v } | .r6 => { f with r6 := v }
  | .r7 => { f with r7 := v } | .r8 => { f with r8 := v } | .sp => { f with sp := v } | .fp => { f with fp := v }

/-- The register file as 24 bytes of storage: register `i` at byte offsets `2 * i` and `2 * i + 1`, high byte first
(10_state.md R25). -/
def RegFile.storage (f : RegFile) : List Byte :=
  wordBytes f.ip ++ wordBytes f.acc ++ wordBytes f.r1 ++ wordBytes f.r2 ++ wordBytes f.r3 ++ wordBytes f.r4 ++
  wordBytes f.r5 ++ wordBytes f.r6 ++ wordBytes f.r7 ++ wordBytes f.r8 ++ wordBytes f.sp ++ wordBytes f.fp

/-- `x[r]` of a state. -/
def State.reg (s : State) (r : Reg) : Word := s.regs.get r

/-- The state after `x[r] <- v`. -/
def State.withReg (s : State) (r : Reg) (v : Word) : State := { s with regs := s.regs.set r v }

/-- The state after `fsz <- v`. -/
def State.withFsz (s : State) (v : Word) : State := { s with fsz := v }

/-- `x[r]`. -/
def getReg (r : Reg) : Op Word := fun s => .ok (s.reg r) s

/-- `x[r] <- v`. -/
def setReg (r : Reg) (v : Word) : Op Unit := fun s => .ok () (s.withReg r v)

/-- `fsz` (10_state.md R33). -/
def getFsz : Op Word := fun s => .ok s.fsz s

/-- `fsz <- v`. -/
def setFsz (v : Word) : Op Unit := fun s => .ok () (s.withFsz v)

/-! ### Raise and halt: the spec's only exceptional outcomes -/

/-- `raise` and `halt`: the pseudocode ends here, with the state as it stands (60_exceptions.md R287). -/
def stop {α : Type} (why : Stop) : Op α := fun s => .error why s

/-- The status a stop leaves (10_state.md R34). -/
def stopStatus : Stop → Status
  | .halt why => .halted why
  | .fault cause => .faulted cause

/-- Taking a halt or a fault: `status` records it and everything else stays as the pseudocode left it; nothing is rolled
back, nothing is saved, no handler is entered (60_exceptions.md R280, R287, R290). There is no return from it (R291). -/
def State.stopped (s : State) (why : Stop) : State := { s with status := stopStatus why }

/-- An operation as an outcome of a step: a completed operation leaves `status` as it was, a stop is taken
(60_exceptions.md R281). -/
def perform (op : Op Unit) (s : State) : Host.Outcome State Fault Refusal :=
  match op s with
  | .ok _ s' => .next s'
  | .error why s' => .next (s'.stopped why)

/-! ### Devices -/

/-- The device with a number. A number that no device has is taken as a memory device without bytes, whose every access
is out of bounds (log 10). -/
def State.device (s : State) (d : Nat) : Device := s.devices.getD d (.memory { size := 0, cells := [] })

/-- The state after a device has changed. -/
def State.withDevice (s : State) (d : Nat) (dev : Device) : State := { s with devices := s.devices.set d dev }

/-- One access of a peripheral: the peripheral receives it, then fails it or answers it (20_memory.md R56, R68,
60_exceptions.md R284). The access stays in its history in either case (log 9). -/
def peripheralAccess {α : Type} (d : Nat) (h : List Config.DeviceAccess) (acc : Config.DeviceAccess) (answer : α)
    (info : AccessInfo) (la : Word) : Op α := fun s =>
  if Config.deviceFails d h acc then .error (.fault (.deviceFault info la)) (s.withDevice d (.peripheral (acc :: h)))
  else .ok answer (s.withDevice d (.peripheral (acc :: h)))

/-- `read8` of a device at a local address (20_memory.md R52, R56). -/
def deviceRead8 (d : Nat) (la : Word) (info : AccessInfo) : Op Byte := fun s =>
  match s.device d with
  | .memory m =>
    if la.toNat < m.size then .ok (m.byteAt d la.toNat) s else .error (.fault (.boundsViolation info la)) s
  | .peripheral h => peripheralAccess d h (.read8 la) (Config.deviceByte d h la) info la s

/-- `read16` of a device at a local address (20_memory.md R53, R56). -/
def deviceRead16 (d : Nat) (la : Word) (info : AccessInfo) : Op Word := fun s =>
  match s.device d with
  | .memory m =>
    if la.toNat + 1 < m.size then .ok (m.wordAt d la.toNat) s else .error (.fault (.boundsViolation info la)) s
  | .peripheral h => peripheralAccess d h (.read16 la) (Config.deviceWord d h la) info la s

/-- `write8` of a device at a local address (20_memory.md R52, R56). -/
def deviceWrite8 (d : Nat) (la : Word) (b : Byte) (info : AccessInfo) : Op Unit := fun s =>
  match s.device d with
  | .memory m =>
    if la.toNat < m.size then .ok () (s.withDevice d (.memory (m.putByte la.toNat b)))
    else .error (.fault (.boundsViolation info la)) s
  | .peripheral h => peripheralAccess d h (.write8 la b) () info la s

/-- `write16` of a device at a local address: a failing write stores neither byte (20_memory.md R53, R56). -/
def deviceWrite16 (d : Nat) (la : Word) (v : Word) (info : AccessInfo) : Op Unit := fun s =>
  match s.device d with
  | .memory m =>
    if la.toNat + 1 < m.size then .ok () (s.withDevice d (.memory (m.putWord la.toNat v)))
    else .error (.fault (.boundsViolation info la)) s
  | .peripheral h => peripheralAccess d h (.write16 la v) () info la s

/-! ### The mapper -/

/-- The interval of a region is inclusive at both ends (20_memory.md R57). -/
def regionHolds (g : Region) (a : Word) : Bool := g.start ≤ a && a ≤ g.last

/-- The address a region's device receives (20_memory.md R57). -/
def regionLocal (g : Region) (a : Word) : Word := if g.remap then a - g.start else a

/-- `Resolve`: the device and the local address of the first region, most recently registered first, that holds an
address (20_memory.md R58). -/
def resolve : List Region → Word → Option (Nat × Word)
  | [], _ => none
  | g :: rest, a => if regionHolds g a then some (g.device, regionLocal g a) else resolve rest a

/-- `MemRead(a, 1)` (20_memory.md R60). -/
def memRead8 (kind : AccessKind) (a : Word) : Op Byte := fun s =>
  match resolve s.regions a with
  | none => .error (.fault (.unmappedAddress ⟨kind, a, .byte⟩)) s
  | some (d, la) => deviceRead8 d la ⟨kind, a, .byte⟩ s

/-- `MemRead(a, 2)`: routed by its first address alone (20_memory.md R60, R62). -/
def memRead16 (kind : AccessKind) (a : Word) : Op Word := fun s =>
  match resolve s.regions a with
  | none => .error (.fault (.unmappedAddress ⟨kind, a, .word⟩)) s
  | some (d, la) => deviceRead16 d la ⟨kind, a, .word⟩ s

/-- `MemWrite(a, 1, v)`: the low byte (20_memory.md R61). No instruction makes it (R66). -/
def memWrite8 (kind : AccessKind) (a : Word) (v : Word) : Op Unit := fun s =>
  match resolve s.regions a with
  | none => .error (.fault (.unmappedAddress ⟨kind, a, .byte⟩)) s
  | some (d, la) => deviceWrite8 d la (loByte v) ⟨kind, a, .byte⟩ s

/-- `MemWrite(a, 2, v)`: routed by its first address alone (20_memory.md R61, R62). -/
def memWrite16 (kind : AccessKind) (a : Word) (v : Word) : Op Unit := fun s =>
  match resolve s.regions a with
  | none => .error (.fault (.unmappedAddress ⟨kind, a, .word⟩)) s
  | some (d, la) => deviceWrite16 d la v ⟨kind, a, .word⟩ s

/-! ### The stack and the frame controller -/

/-- `Push(v)`: write at `sp`, then `sp` down by 2 and `fsz` up by 2; a failing write changes neither
(44_stack_call.md R240). -/
def push (v : Word) : Op Unit := do
  memWrite16 .write (← getReg .sp) v
  setReg .sp ((← getReg .sp) - 2)
  setFsz ((← getFsz) + 2)

/-- `Pop()`: `sp` up by 2 and `fsz` down by 2, then the read; a failing read leaves both changed
(44_stack_call.md R241). -/
def pop : Op Word := do
  setReg .sp ((← getReg .sp) + 2)
  setFsz ((← getFsz) - 2)
  memRead16 .read (← getReg .sp)

/-- Push registers in order, each read when its turn comes. -/
def pushRegs : List Reg → Op Unit
  | [] => pure ()
  | r :: rest => do push (← getReg r); pushRegs rest

/-- Pop into registers in order. -/
def popRegs : List Reg → Op Unit
  | [] => pure ()
  | r :: rest => do setReg r (← pop); popRegs rest

/-- `repeat n times: Pop()`, each value read and dropped (44_stack_call.md R243, D24). -/
def popDiscard : Nat → Op Unit
  | 0 => pure ()
  | n + 1 => do let _ ← pop; popDiscard n

/-- `PushState()` (44_stack_call.md R242). -/
def pushState : Op Unit := do
  pushRegs Reg.general
  push (← getReg .ip)
  push ((← getFsz) + 2)
  setReg .fp (← getReg .sp)
  setFsz 0

/-- What the frame-byte counter becomes after the saved frame size is popped, by P_FRAME_RESTORE
(44_stack_call.md R243). -/
def restoredFsz (how : Config.FrameRestore) (saved : Word) : Word :=
  match how with
  | .literal => saved
  | .balanced => saved - 2

/-- P_FRAME_RESTORE of this machine. -/
def getFrameRestore : Op Config.FrameRestore := fun s => .ok s.params.frameRestore s

/-- `PopState()` (44_stack_call.md R243). -/
def popState : Op Unit := do
  let ofp ← getReg .fp
  setReg .sp ofp
  let saved ← pop
  setFsz (restoredFsz (← getFrameRestore) saved)
  setReg .ip (← pop)
  popRegs Reg.general.reverse
  let n ← pop
  popDiscard n.toNat
  setReg .fp (ofp + saved)

end Sys2Proof.Machine
end

