-- ==== Sys2Proof/Machine/Operands.lean ====
section
/-! DEFINITION. The operand forms of the instructions (40_data_movement.md R127): a literal, a register, and a memory
word at an absolute address, at a register's value, or at a literal base plus a register. The stack forms are Push and
Pop of Machine/Ops.lean. -/

namespace Sys2Proof.Machine

/-- A literal operand (30_encoding.md R91, R93). -/
def litOperand (lit : Word) : Op Word := pure lit

/-- A register operand, read after every operand byte is fetched (10_state.md R28, 30_encoding.md R107, R108). -/
def regOperand (r : Reg) : Op Word := getReg r

/-- The address of a register-indirect operand (40_data_movement.md R125). -/
def pointerAddress (s : State) (rp : Reg) : Word := s.reg rp

/-- The address of a base-plus-offset operand, modulo 2^16 (40_data_movement.md R126, D15). -/
def offsetAddress (s : State) (base : Word) (ro : Reg) : Word := base + s.reg ro

/-- The word at an absolute address (40_data_movement.md R123). -/
def absoluteOperand (addr : Word) : Op Word := memRead16 .read addr

/-- The word a register points to (40_data_movement.md R125). -/
def pointerOperand (rp : Reg) : Op Word := fun s => memRead16 .read (pointerAddress s rp) s

/-- The word at a literal base plus a register (40_data_movement.md R126). -/
def offsetOperand (base : Word) (ro : Reg) : Op Word := fun s => memRead16 .read (offsetAddress s base ro) s

/-- Write an operand's value to a register: sources are read first (70_reset_and_hazards.md R317). -/
def intoReg (rd : Reg) (src : Op Word) : Op Unit := do setReg rd (← src)

/-- Store an operand's value as the word at an absolute address (40_data_movement.md R122, R124). -/
def intoMemory (addr : Word) (src : Op Word) : Op Unit := do memWrite16 .write addr (← src)

/-- A two-operand ALU operation into `acc`: both operands are read before `acc` is written (41_arithmetic.md R151). -/
def intoAcc (f : Word → Word → Word) (left right : Op Word) : Op Unit := do
  let x ← left
  let y ← right
  setReg .acc (f x y)

/-- An operation that replaces a register by a function of its value (41_arithmetic.md R158, 42_logic_shift.md R192). -/
def inPlace (f : Word → Word) (r : Reg) : Op Unit := do setReg r (f (← getReg r))

/-- A shift of a register in place by an amount that is read before the register is written (42_logic_shift.md R183). -/
def inPlaceBy (f : Word → Word → Word) (r : Reg) (amount : Op Word) : Op Unit := do
  let v ← getReg r
  let n ← amount
  setReg r (f v n)

end Sys2Proof.Machine
end

