-- ==== Sys2Proof/Machine/Arith.lean ====
section
/-! DEFINITION. Integer arithmetic (41_arithmetic.md): ADD, SUB and MUL into `acc`, INC and DEC in place. -/

namespace Sys2Proof.Machine

/-- ADD_REG_REG: `acc <- x[ra] + x[rb]` (R151). -/
def execAddRegReg (ra : Reg) (rb : Reg) (s : State) : Host.Outcome State Fault Refusal :=
  perform (intoAcc add16 (regOperand ra) (regOperand rb)) s

/-- ADD_LIT_REG: `acc <- lit + x[r]` (R152). -/
def execAddLitReg (lit : Word) (r : Reg) (s : State) : Host.Outcome State Fault Refusal :=
  perform (intoAcc add16 (litOperand lit) (regOperand r)) s

/-- SUB_LIT_REG: `acc <- x[r] - lit`, register minus literal (R153). -/
def execSubLitReg (lit : Word) (r : Reg) (s : State) : Host.Outcome State Fault Refusal :=
  perform (intoAcc sub16 (regOperand r) (litOperand lit)) s

/-- SUB_REG_LIT: `acc <- lit - x[r]`, literal minus register (R154). -/
def execSubRegLit (r : Reg) (lit : Word) (s : State) : Host.Outcome State Fault Refusal :=
  perform (intoAcc sub16 (litOperand lit) (regOperand r)) s

/-- SUB_REG_REG: `acc <- x[ra] - x[rb]` (R155). -/
def execSubRegReg (ra : Reg) (rb : Reg) (s : State) : Host.Outcome State Fault Refusal :=
  perform (intoAcc sub16 (regOperand ra) (regOperand rb)) s

/-- MUL_LIT_REG: `acc <- lit * x[r]` (R156). -/
def execMulLitReg (lit : Word) (r : Reg) (s : State) : Host.Outcome State Fault Refusal :=
  perform (intoAcc mul16 (litOperand lit) (regOperand r)) s

/-- MUL_REG_REG: `acc <- x[ra] * x[rb]` (R157). -/
def execMulRegReg (ra : Reg) (rb : Reg) (s : State) : Host.Outcome State Fault Refusal :=
  perform (intoAcc mul16 (regOperand ra) (regOperand rb)) s

/-- INC_REG: `x[r] <- x[r] + 1` (R158). -/
def execIncReg (r : Reg) (s : State) : Host.Outcome State Fault Refusal :=
  perform (inPlace (fun v => add16 v 1) r) s

/-- DEC_REG: `x[r] <- x[r] - 1` (R159). -/
def execDecReg (r : Reg) (s : State) : Host.Outcome State Fault Refusal :=
  perform (inPlace (fun v => sub16 v 1) r) s

end Sys2Proof.Machine
end

