-- ==== Sys2Proof/Machine/Flags.lean ====
section
/-! DEFINITION. CORE has no flags (10_state.md R31): no instruction records a condition. What stands in their place is
the relation a conditional jump tests against `acc` at the time of the jump (43_branch.md R210). -/

namespace Sys2Proof.Machine

/-- The six relations of 43_branch.md R210. -/
inductive Relation where
  | ne | eq | lt | gt | le | ge
  deriving DecidableEq, Repr

/-- `v REL a`, unsigned, with the compared value on the left (43_branch.md R210, D6). -/
def relationHolds (rel : Relation) (v a : Word) : Bool :=
  match rel with
  | .ne => v.toNat != a.toNat
  | .eq => v.toNat == a.toNat
  | .lt => v.toNat < a.toNat
  | .gt => v.toNat > a.toNat
  | .le => v.toNat ≤ a.toNat
  | .ge => v.toNat ≥ a.toNat

/-- The common rule of the conditional jumps: `if v REL x[acc] then pc <- addr` (43_branch.md R210). -/
def jumpIf (rel : Relation) (compared : Op Word) (addr : Word) : Op Unit := do
  let v ← compared
  let a ← getReg .acc
  if relationHolds rel v a then setReg .ip addr else pure ()

end Sys2Proof.Machine
end

