-- ==== Sys2Proof/Machine/Branch.lean ====
section
/-! DEFINITION. Conditional jumps (43_branch.md). -/

namespace Sys2Proof.Machine

/-- JMP_NOT_EQ: jump if `lit != acc` (R211). -/
def execJmpNotEq (lit : Word) (addr : Word) (s : State) : Host.Outcome State Fault Refusal :=
  perform (jumpIf .ne (litOperand lit) addr) s

/-- JNE_REG: jump if `x[r] != acc` (R212). -/
def execJneReg (r : Reg) (addr : Word) (s : State) : Host.Outcome State Fault Refusal :=
  perform (jumpIf .ne (regOperand r) addr) s

/-- JEQ_LIT: jump if `lit == acc` (R213). -/
def execJeqLit (lit : Word) (addr : Word) (s : State) : Host.Outcome State Fault Refusal :=
  perform (jumpIf .eq (litOperand lit) addr) s

/-- JEQ_REG: jump if `x[r] == acc` (R214). -/
def execJeqReg (r : Reg) (addr : Word) (s : State) : Host.Outcome State Fault Refusal :=
  perform (jumpIf .eq (regOperand r) addr) s

/-- JLT_LIT: jump if `lit < acc` (R215). -/
def execJltLit (lit : Word) (addr : Word) (s : State) : Host.Outcome State Fault Refusal :=
  perform (jumpIf .lt (litOperand lit) addr) s

/-- JLT_REG: jump if `x[r] < acc` (R216). -/
def execJltReg (r : Reg) (addr : Word) (s : State) : Host.Outcome State Fault Refusal :=
  perform (jumpIf .lt (regOperand r) addr) s

/-- JGT_LIT: jump if `lit > acc` (R217). -/
def execJgtLit (lit : Word) (addr : Word) (s : State) : Host.Outcome State Fault Refusal :=
  perform (jumpIf .gt (litOperand lit) addr) s

/-- JGT_REG: jump if `x[r] > acc` (R218). -/
def execJgtReg (r : Reg) (addr : Word) (s : State) : Host.Outcome State Fault Refusal :=
  perform (jumpIf .gt (regOperand r) addr) s

/-- JLE_LIT: jump if `lit <= acc` (R219). -/
def execJleLit (lit : Word) (addr : Word) (s : State) : Host.Outcome State Fault Refusal :=
  perform (jumpIf .le (litOperand lit) addr) s

/-- JLE_REG: jump if `x[r] <= acc` (R220). -/
def execJleReg (r : Reg) (addr : Word) (s : State) : Host.Outcome State Fault Refusal :=
  perform (jumpIf .le (regOperand r) addr) s

/-- JGE_LIT: jump if `lit >= acc` (R221). -/
def execJgeLit (lit : Word) (addr : Word) (s : State) : Host.Outcome State Fault Refusal :=
  perform (jumpIf .ge (litOperand lit) addr) s

/-- JGE_REG: jump if `x[r] >= acc` (R222). -/
def execJgeReg (r : Reg) (addr : Word) (s : State) : Host.Outcome State Fault Refusal :=
  perform (jumpIf .ge (regOperand r) addr) s

end Sys2Proof.Machine
end

