-- ==== Sys2Proof/Machine/Control.lean ====
section
/-! DEFINITION. Halt (45_control.md). -/

namespace Sys2Proof.Machine

/-- HLT: stop the run loop; `ip` stays after the HLT byte (R270). -/
def execHlt (s : State) : Host.Outcome State Fault Refusal :=
  perform (stop (.halt .normal)) s

end Sys2Proof.Machine
end

