-- ==== Sys2Proof/Machine/Logic.lean ====
section
/-! DEFINITION. Shifts and bitwise logic (42_logic_shift.md): shifts and NOT in place, AND, OR and XOR into `acc`. -/

namespace Sys2Proof.Machine

/-- LSF_REG_LIT: shift left in place by a literal (R182). -/
def execLsfRegLit (r : Reg) (n : Word) (s : State) : Host.Outcome State Fault Refusal :=
  perform (inPlaceBy shl16 r (litOperand n)) s

/-- LSF_REG_REG: shift left in place by a register (R183). -/
def execLsfRegReg (r : Reg) (rn : Reg) (s : State) : Host.Outcome State Fault Refusal :=
  perform (inPlaceBy shl16 r (regOperand rn)) s

/-- RSF_REG_LIT: shift right, logically, in place by a literal (R184). -/
def execRsfRegLit (r : Reg) (n : Word) (s : State) : Host.Outcome State Fault Refusal :=
  perform (inPlaceBy shr16 r (litOperand n)) s

/-- RSF_REG_REG: shift right, logically, in place by a register (R185). -/
def execRsfRegReg (r : Reg) (rn : Reg) (s : State) : Host.Outcome State Fault Refusal :=
  perform (inPlaceBy shr16 r (regOperand rn)) s

/-- AND_REG_LIT: `acc <- x[r] & lit` (R186). -/
def execAndRegLit (r : Reg) (lit : Word) (s : State) : Host.Outcome State Fault Refusal :=
  perform (intoAcc and16 (regOperand r) (litOperand lit)) s

/-- AND_REG_REG: `acc <- x[ra] & x[rb]` (R187). -/
def execAndRegReg (ra : Reg) (rb : Reg) (s : State) : Host.Outcome State Fault Refusal :=
  perform (intoAcc and16 (regOperand ra) (regOperand rb)) s

/-- OR_REG_LIT: `acc <- x[r] | lit` (R188). -/
def execOrRegLit (r : Reg) (lit : Word) (s : State) : Host.Outcome State Fault Refusal :=
  perform (intoAcc or16 (regOperand r) (litOperand lit)) s

/-- OR_REG_REG: `acc <- x[ra] | x[rb]` (R189). -/
def execOrRegReg (ra : Reg) (rb : Reg) (s : State) : Host.Outcome State Fault Refusal :=
  perform (intoAcc or16 (regOperand ra) (regOperand rb)) s

/-- XOR_REG_LIT: `acc <- x[r] ^ lit` (R190). -/
def execXorRegLit (r : Reg) (lit : Word) (s : State) : Host.Outcome State Fault Refusal :=
  perform (intoAcc xor16 (regOperand r) (litOperand lit)) s

/-- XOR_REG_REG: `acc <- x[ra] ^ x[rb]` (R191). -/
def execXorRegReg (ra : Reg) (rb : Reg) (s : State) : Host.Outcome State Fault Refusal :=
  perform (intoAcc xor16 (regOperand ra) (regOperand rb)) s

/-- NOT: `x[r] <- ~x[r]` (R192). -/
def execNotReg (r : Reg) (s : State) : Host.Outcome State Fault Refusal :=
  perform (inPlace not16 r) s

end Sys2Proof.Machine
end

