-- ==== Sys2Proof/Machine/Mov.lean ====
section
/-! DEFINITION. Data movement (40_data_movement.md). Each meaning starts after its operands are fetched, with `ip` at the next
instruction. -/

namespace Sys2Proof.Machine

/-- MOV_LIT_REG: copy a literal into a register (R120). -/
def execMovLitReg (lit : Word) (rd : Reg) (s : State) : Host.Outcome State Fault Refusal :=
  perform (intoReg rd (litOperand lit)) s

/-- MOV_REG_REG: copy a register into a register (R121). -/
def execMovRegReg (rs : Reg) (rd : Reg) (s : State) : Host.Outcome State Fault Refusal :=
  perform (intoReg rd (regOperand rs)) s

/-- MOV_REG_MEM: store a register at an absolute address (R122). -/
def execMovRegMem (rs : Reg) (addr : Word) (s : State) : Host.Outcome State Fault Refusal :=
  perform (intoMemory addr (regOperand rs)) s

/-- MOV_MEM_REG: load the word at an absolute address (R123). -/
def execMovMemReg (addr : Word) (rd : Reg) (s : State) : Host.Outcome State Fault Refusal :=
  perform (intoReg rd (absoluteOperand addr)) s

/-- MOV_LIT_MEM: store a literal at an absolute address (R124). -/
def execMovLitMem (lit : Word) (addr : Word) (s : State) : Host.Outcome State Fault Refusal :=
  perform (intoMemory addr (litOperand lit)) s

/-- MOV_REG_PTR_REG: load the word a register points to (R125). -/
def execMovRegPtrReg (rp : Reg) (rd : Reg) (s : State) : Host.Outcome State Fault Refusal :=
  perform (intoReg rd (pointerOperand rp)) s

/-- MOV_LIT_OFF_REG: load the word at a literal base plus a register (R126). -/
def execMovLitOffReg (base : Word) (ro : Reg) (rd : Reg) (s : State) : Host.Outcome State Fault Refusal :=
  perform (intoReg rd (offsetOperand base ro)) s

end Sys2Proof.Machine
end

