-- ==== Sys2Proof/Machine/Stack.lean ====
section
/-! DEFINITION. Stack, call and return (44_stack_call.md). -/

namespace Sys2Proof.Machine

/-- Push an operand's value (44_stack_call.md R244, R245). -/
def pushOperand (src : Op Word) : Op Unit := do push (← src)

/-- Read the target, PushState, then `pc <- target` (44_stack_call.md R247, R248, D9). -/
def callOperand (target : Op Word) : Op Unit := do
  let t ← target
  pushState
  setReg .ip t

/-- PSH_LIT: push a literal (R244). -/
def execPshLit (lit : Word) (s : State) : Host.Outcome State Fault Refusal :=
  perform (pushOperand (litOperand lit)) s

/-- PSH_REG: push a register, `sp` itself with its value before the push (R245). -/
def execPshReg (r : Reg) (s : State) : Host.Outcome State Fault Refusal :=
  perform (pushOperand (regOperand r)) s

/-- POP: pop into a register, which is written after `sp` (R246). -/
def execPop (rd : Reg) (s : State) : Host.Outcome State Fault Refusal :=
  perform (intoReg rd pop) s

/-- CALL_LIT: save the state, then jump to a literal (R247). -/
def execCallLit (addr : Word) (s : State) : Host.Outcome State Fault Refusal :=
  perform (callOperand (litOperand addr)) s

/-- CALL_REG: read the target, save the state, then jump to it (R248). -/
def execCallReg (r : Reg) (s : State) : Host.Outcome State Fault Refusal :=
  perform (callOperand (regOperand r)) s

/-- RET: restore the state that CALL saved (R249). -/
def execRet (s : State) : Host.Outcome State Fault Refusal :=
  perform popState s

end Sys2Proof.Machine
end

