-- ==== Sys2Proof/Machine/Dispatch.lean ====
section
/-! DEFINITION. Phase 3 of a step: the meaning of each instruction (30_encoding.md R107). -/

namespace Sys2Proof.Machine

def exec (i : Instr) (s : State) : Host.Outcome State Fault Refusal :=
  match i with
  | .movLitReg lit rd => Sys2Proof.Machine.execMovLitReg lit rd s
  | .movRegReg rs rd => Sys2Proof.Machine.execMovRegReg rs rd s
  | .movRegMem rs addr => Sys2Proof.Machine.execMovRegMem rs addr s
  | .movMemReg addr rd => Sys2Proof.Machine.execMovMemReg addr rd s
  | .movLitMem lit addr => Sys2Proof.Machine.execMovLitMem lit addr s
  | .movRegPtrReg rp rd => Sys2Proof.Machine.execMovRegPtrReg rp rd s
  | .movLitOffReg base ro rd => Sys2Proof.Machine.execMovLitOffReg base ro rd s
  | .addRegReg ra rb => Sys2Proof.Machine.execAddRegReg ra rb s
  | .addLitReg lit r => Sys2Proof.Machine.execAddLitReg lit r s
  | .subLitReg lit r => Sys2Proof.Machine.execSubLitReg lit r s
  | .subRegLit r lit => Sys2Proof.Machine.execSubRegLit r lit s
  | .subRegReg ra rb => Sys2Proof.Machine.execSubRegReg ra rb s
  | .mulLitReg lit r => Sys2Proof.Machine.execMulLitReg lit r s
  | .mulRegReg ra rb => Sys2Proof.Machine.execMulRegReg ra rb s
  | .incReg r => Sys2Proof.Machine.execIncReg r s
  | .decReg r => Sys2Proof.Machine.execDecReg r s
  | .lsfRegLit r n => Sys2Proof.Machine.execLsfRegLit r n s
  | .lsfRegReg r rn => Sys2Proof.Machine.execLsfRegReg r rn s
  | .rsfRegLit r n => Sys2Proof.Machine.execRsfRegLit r n s
  | .rsfRegReg r rn => Sys2Proof.Machine.execRsfRegReg r rn s
  | .andRegLit r lit => Sys2Proof.Machine.execAndRegLit r lit s
  | .andRegReg ra rb => Sys2Proof.Machine.execAndRegReg ra rb s
  | .orRegLit r lit => Sys2Proof.Machine.execOrRegLit r lit s
  | .orRegReg ra rb => Sys2Proof.Machine.execOrRegReg ra rb s
  | .xorRegLit r lit => Sys2Proof.Machine.execXorRegLit r lit s
  | .xorRegReg ra rb => Sys2Proof.Machine.execXorRegReg ra rb s
  | .notReg r => Sys2Proof.Machine.execNotReg r s
  | .jmpNotEq lit addr => Sys2Proof.Machine.execJmpNotEq lit addr s
  | .jneReg r addr => Sys2Proof.Machine.execJneReg r addr s
  | .jeqLit lit addr => Sys2Proof.Machine.execJeqLit lit addr s
  | .jeqReg r addr => Sys2Proof.Machine.execJeqReg r addr s
  | .jltLit lit addr => Sys2Proof.Machine.execJltLit lit addr s
  | .jltReg r addr => Sys2Proof.Machine.execJltReg r addr s
  | .jgtLit lit addr => Sys2Proof.Machine.execJgtLit lit addr s
  | .jgtReg r addr => Sys2Proof.Machine.execJgtReg r addr s
  | .jleLit lit addr => Sys2Proof.Machine.execJleLit lit addr s
  | .jleReg r addr => Sys2Proof.Machine.execJleReg r addr s
  | .jgeLit lit addr => Sys2Proof.Machine.execJgeLit lit addr s
  | .jgeReg r addr => Sys2Proof.Machine.execJgeReg r addr s
  | .pshLit lit => Sys2Proof.Machine.execPshLit lit s
  | .pshReg r => Sys2Proof.Machine.execPshReg r s
  | .pop rd => Sys2Proof.Machine.execPop rd s
  | .callLit addr => Sys2Proof.Machine.execCallLit addr s
  | .callReg r => Sys2Proof.Machine.execCallReg r s
  | .ret => Sys2Proof.Machine.execRet s
  | .hlt => Sys2Proof.Machine.execHlt s

end Sys2Proof.Machine
end

