-- ==== Sys2Proof/Machine/Fetch.lean ====
section
/-! DEFINITION. The instruction-fetch unit (30_encoding.md section 6): the fetch primitives, and phases 1 and 2 of a
step. -/

namespace Sys2Proof.Machine

/-- `Fetch8()`: a read that faults does not advance `ip` (30_encoding.md R104). -/
def fetch8 : Op Byte := do
  let b ← memRead8 .fetch (← getReg .ip)
  setReg .ip ((← getReg .ip) + 1)
  return b

/-- `Fetch16()` (30_encoding.md R105). -/
def fetch16 : Op Word := do
  let w ← memRead16 .fetch (← getReg .ip)
  setReg .ip ((← getReg .ip) + 2)
  return w

/-- `FetchReg()` (30_encoding.md R106). -/
def fetchReg : Op Reg := do let b ← fetch8; return regOfByte b

/-- The literal of a shift: `Fetch16()`, or `zext_16(Fetch8())` in format RL8 (30_encoding.md R107). -/
def fetchShiftLit (w : Config.ShiftLitWidth) : Op Word :=
  match w with
  | .bits16 => fetch16
  | .bits8 => do let b ← fetch8; return zext b

/-- The launch parameters. -/
def getParams : Op Config.Params := fun s => .ok s.params s

/-- Phases 1 and 2 of a step: the opcode byte, the halt of an unrecognized one, then every operand in encoding order
(30_encoding.md R107, R99, 45_control.md R271). -/
def fetchInstr : Op Instr := do
  let p ← getParams
  let b ← fetch8
  match opcodeOfByte p.opcodes b with
  | none => stop (.halt (.illegalOpcode b))
  | some o => readOperands fetchReg fetch16 (fetchShiftLit p.shiftLit) o

/-- The byte a global address holds, where it resolves to a memory device that has it: the observation the statements
read memory through. It changes nothing (20_memory.md R60, R68). -/
def State.peek (s : State) (a : Word) : Option Byte :=
  match resolve s.regions a with
  | none => none
  | some (d, la) =>
    match s.device d with
    | .memory m => if la.toNat < m.size then some (m.byteAt d la.toNat) else none
    | .peripheral _ => none

/-- The `n` bytes at `ip`, where they are the bytes of one memory device at rising local addresses, each mapped there:
then byte and word fetches of them read the same bytes (20_memory.md R62, R66). -/
def State.codeBytes (s : State) (n : Nat) : Option (List Byte) :=
  match resolve s.regions (s.reg .ip) with
  | none => none
  | some (d, la) =>
    match s.device d with
    | .peripheral _ => none
    | .memory m =>
      if la.toNat + n ≤ m.size ∧ la.toNat + n ≤ 0x10000 ∧
          ∀ k ∈ List.range n, resolve s.regions (s.reg .ip + BitVec.ofNat 16 k) = some (d, la + BitVec.ofNat 16 k) then
        some ((List.range n).map fun k => m.byteAt d (la.toNat + k))
      else none

/-- The state with the CPU begun stepping (20_memory.md R55, log 12). -/
def State.begun (s : State) : State := { s with started := true }

/-- `s` with bytes stored from a global address on, each in the memory device that the address resolves to; a byte whose
address resolves to none has no place. -/
def State.placeBytes (s : State) (a : Word) : List Byte → State
  | [] => s
  | b :: bs =>
    match resolve s.regions a with
    | none => s.placeBytes (a + 1) bs
    | some (d, la) =>
      match s.device d with
      | .memory m =>
        if la.toNat < m.size then (s.withDevice d (.memory (m.putByte la.toNat b))).placeBytes (a + 1) bs
        else s.placeBytes (a + 1) bs
      | .peripheral _ => s.placeBytes (a + 1) bs

end Sys2Proof.Machine
end

