-- ==== Sys2Proof/Machine/Step.lean ====
section
/-! DEFINITION. One step of CORE (30_encoding.md R107, 70_reset_and_hazards.md R318), and placing an instruction where the
next step fetches it. -/

namespace Sys2Proof.Machine

/-- `Step()` (30_encoding.md R107), one atomic transition of CORE (70_reset_and_hazards.md R318): only while `status` is
Running; fetch and decode, then the instruction's meaning. A stop while fetching is taken like any other (60_exceptions.md
R287, 45_control.md R271). -/
def step (s : State) : Host.Outcome State Fault Refusal :=
  match s.status with
  | .running =>
    match fetchInstr s.begun with
    | .ok i s' => exec i s'
    | .error why s' => .next (s'.stopped why)
  | other => .fault (.notRunning other)

/-- `s` with an instruction, given as the number of `tableWordBytes`, stored at `ip`: what the loader does for a program's
bytes (70_reset_and_hazards.md R312, log 15). -/
def State.withFetchWord (s : State) (nbits w : Nat) : State :=
  s.placeBytes (s.reg .ip) (tableWordBytes nbits w)

end Sys2Proof.Machine
end

