-- ==== Sys2Proof/Machine/HostPort.lean ====
section
/-! DEFINITION. What the host can do between steps (60_exceptions.md R299) and the launch (70_reset_and_hazards.md
R312). The host acts only between steps; it uses the raw view and maps before the first step only. `setByName` is the register
file's, not one of R299's operations (log 23). -/

namespace Sys2Proof.Machine

/-! ### Registers by name -/

/-- The fixed set of names (10_state.md R20, R26). -/
def regNames : List (String × Reg) :=
  [("ip", .ip), ("acc", .acc), ("r1", .r1), ("r2", .r2), ("r3", .r3), ("r4", .r4), ("r5", .r5), ("r6", .r6),
   ("r7", .r7), ("r8", .r8), ("sp", .sp), ("fp", .fp)]

/-- The register with a name. -/
def regOfName (n : String) : Option Reg := (regNames.find? fun row => row.1 == n).map Prod.snd

/-- `get(name)`: absent for an unknown name (10_state.md R26). -/
def getByName (s : State) (n : String) : Option Word := (regOfName n).map s.reg

/-- `set(name, value)`: a no-op for an unknown name (10_state.md R26). DESIGN CHOICE (log 23): it answers in every state, as the
register file's contract; that no host calls it once stepping has begun (60_exceptions.md R299, D25) is the host's to keep, and
is not checked here. -/
def setByName (s : State) (n : String) (v : Word) : State :=
  match regOfName n with
  | some r => s.withReg r v
  | none => s

/-! ### Inspection -/

/-- A host access through the mapper: an error goes to the host and `status` does not change (60_exceptions.md R299). -/
def hostAccess {α : Type} (op : Op α) (s : State) : Except Stop α × State :=
  match op s with
  | .ok v s' => (.ok v, s')
  | .error why s' => (.error why, s')

/-- `read8(a)` (60_exceptions.md R299). Its error records the kind `read` (log 14). -/
def hostRead8 (s : State) (a : Word) : Except Stop Byte × State := hostAccess (memRead8 .read a) s

/-- `read16(a)` (60_exceptions.md R299). -/
def hostRead16 (s : State) (a : Word) : Except Stop Word × State := hostAccess (memRead16 .read a) s

/-- `n` bytes from an address on, each read by `read8` in turn (60_exceptions.md R299; addresses wrap, log 14). -/
def hostReadRange (s : State) (a : Word) : Nat → List (Except Stop Byte) × State
  | 0 => ([], s)
  | n + 1 =>
    let first := hostRead8 s a
    let rest := hostReadRange first.2 (a + 1) n
    (first.1 :: rest.1, rest.2)

/-- What the dump consumes: every register by name and the bytes of a range; its layout is out of scope
(60_exceptions.md R299). -/
def hostDump (s : State) (a : Word) (n : Nat) : List (String × Word) × List (Except Stop Byte) × State :=
  (regNames.map fun row => (row.1, s.reg row.2), hostReadRange s a n)

/-! ### Stepping -/

/-- `step()`: whether the machine should stop, and the state; nothing where no step is defined (45_control.md R272). -/
def hostStep (s : State) : Option (Bool × State) :=
  match step s with
  | .next t => some (t.status != .running, t)
  | _ => none

/-- `run()` for at most `fuel` steps: steps are taken while `status` is Running (45_control.md R273, log 17). -/
def run : (fuel : Nat) → State → State
  | 0, s => s
  | fuel + 1, s =>
    match step s with
    | .next t => run fuel t
    | _ => s

/-- The numeric code of a condition; no register or memory word holds it (60_exceptions.md R286). -/
def causeCode : Status → Nat
  | .running => 0
  | .halted .normal => 0
  | .faulted (.unmappedAddress _) => 1
  | .faulted (.boundsViolation _ _) => 2
  | .faulted (.deviceFault _ _) => 3
  | .halted (.illegalOpcode _) => 4

/-! ### Before the first step: the raw loader view and the mapping -/

/-- Main memory, where device 0 is a memory device. -/
def mainMemory (s : State) : Option Memory :=
  match s.device mainDevice with
  | .memory m => some m
  | .peripheral _ => none

/-- A read through the raw loader view: main memory's byte by index, past the mapper, before the first step only
(20_memory.md R55, log 12, log 14). -/
def rawRead (s : State) (i : Nat) : Option Byte :=
  match mainMemory s with
  | some m => if s.started = false ∧ i < m.size then some (m.byteAt mainDevice i) else none
  | none => none

/-- A write through the raw loader view (20_memory.md R55). -/
def rawWrite (s : State) (i : Nat) (b : Byte) : Option State :=
  match mainMemory s with
  | some m =>
    if s.started = false ∧ i < m.size then some (s.withDevice mainDevice (.memory (m.putByte i b))) else none
  | none => none

/-- A region put in front of the list, with the next token (20_memory.md R58, R59). -/
def State.withRegion (s : State) (d : Nat) (start last : Word) (remap : Bool) : State :=
  { s with
    regions := { device := d, start := start, last := last, remap := remap, token := s.nextToken } :: s.regions
    nextToken := s.nextToken + 1 }

/-- `map(device, start, end, remap)`: the unmap token and the state; before the first step only, for a device that exists
(20_memory.md R59, 60_exceptions.md R299, log 13). -/
def mapRegion (s : State) (d : Nat) (start last : Word) (remap : Bool) : Option (Nat × State) :=
  if s.started = false ∧ d < s.devices.length then some (s.nextToken, s.withRegion d start last remap) else none

/-- Unmapping a token removes its region; before the first step only (20_memory.md R59, 60_exceptions.md R299). -/
def unmapRegion (s : State) (token : Nat) : Option State :=
  if s.started = false then some { s with regions := s.regions.filter fun g => g.token != token } else none

/-! ### The launch -/

/-- A device to construct besides main memory (70_reset_and_hazards.md R312 step 1). -/
inductive DeviceSpec where
  | memory (size : Nat)
  | peripheral
  deriving DecidableEq, Repr

/-- A region to register (70_reset_and_hazards.md R312 step 2). -/
structure RegionSpec where
  device : Nat
  start : Word
  last : Word
  remap : Bool
  deriving DecidableEq, Repr

/-- A launch: P_MEM_SIZE, the other devices, P_REGIONS in the order of registration, the parameters the CPU reads, and
the program image (00_scope.md R7, 70_reset_and_hazards.md R312). -/
structure Launch where
  mainSize : Nat
  others : List DeviceSpec
  regions : List RegionSpec
  params : Config.Params
  image : List Byte
  deriving DecidableEq, Repr

/-- The default launch of an image: 0x10000 bytes of main memory at [0x0000, 0xFFFF] (20_memory.md R69, D14). -/
def defaultLaunch (image : List Byte) : Launch :=
  { mainSize := Config.mainMemorySize
    others := []
    regions := [{ device := mainDevice, start := 0x0000, last := 0xFFFF, remap := false }]
    params := Config.defaultParams
    image := image }

/-- A device as it is constructed: nothing written, nothing received. -/
def constructDevice : DeviceSpec → Device
  | .memory size => .memory { size := size, cells := [] }
  | .peripheral => .peripheral []

/-- The image fits main memory (70_reset_and_hazards.md R313), the parameters are admitted ones, and every region names
a device of the launch. -/
abbrev Launch.admitted (l : Launch) : Prop :=
  l.image.length ≤ l.mainSize ∧ ParamsWellFormed l.params ∧ ∀ g ∈ l.regions, g.device < l.others.length + 1

/-- The machine with the devices constructed, main memory first and holding the image from address 0 on, and the registers
at their launch values, before any region is registered. The spec lets steps 3 and 4 stand in either order
(70_reset_and_hazards.md R310, R312). -/
def constructed (l : Launch) : State :=
  { regs := resetRegs
    fsz := 0
    status := .running
    regions := []
    devices :=
      .memory (Memory.putBytes { size := l.mainSize, cells := [] } 0 l.image) :: l.others.map constructDevice
    nextToken := 0
    started := false
    params := l.params }

/-- The regions registered in order. -/
def registerRegions (s : State) : List RegionSpec → State
  | [] => s
  | g :: rest => registerRegions (s.withRegion g.device g.start g.last g.remap) rest

/-- The state before the first step; a launch that is not admitted is refused before execution starts
(70_reset_and_hazards.md R312, R313, log 16). -/
def launch (l : Launch) : Option State :=
  if l.admitted then some (registerRegions (constructed l) l.regions) else none

end Sys2Proof.Machine
end

