-- ==== Sys2Proof/Safety.lean ====
section
/-! DEFINITION. What the statements say of runs and of states: how a run ends, where a word lies, what an instruction
leaves alone, and the invariant of the machine. -/

namespace Sys2Proof.Machine

/-! ### Runs -/

/-- The run has ended (45_control.md R275). -/
abbrev State.ended (s : State) : Prop := s.status ≠ .running

/-- A run ends normally exactly when its status becomes Halted(Normal) (45_control.md R275). -/
def EndsNormally (s : State) : Prop := ∃ fuel, (run fuel s).status = .halted .normal

/-- A run ends abnormally: an illegal opcode or a fault (45_control.md R275). -/
def EndsAbnormally (s : State) : Prop := ∃ fuel, (run fuel s).ended ∧ (run fuel s).status ≠ .halted .normal

/-! ### Where bytes and words lie -/

/-- Byte `k` of memory device `d`. -/
def State.localByte (s : State) (d k : Nat) : Option Byte :=
  match s.device d with
  | .memory m => if k < m.size then some (m.byteAt d k) else none
  | .peripheral _ => none

/-- Where a 16-bit access at a global address lands, if it lands inside a memory device: the device's number and the local
address of the first byte (20_memory.md R53, R58, R62). The access completes exactly then, or on a peripheral that takes it. -/
def State.wordSlot (s : State) (a : Word) : Option (Nat × Nat) :=
  match resolve s.regions a with
  | none => none
  | some (d, la) =>
    match s.device d with
    | .memory m => if la.toNat + 1 < m.size then some (d, la.toNat) else none
    | .peripheral _ => none

/-- The word a 16-bit read of a slot gives: the high byte at the slot, the low byte after it (20_memory.md R53). -/
def State.slotWord (s : State) (slot : Nat × Nat) : Word :=
  match s.device slot.1 with
  | .memory m => m.wordAt slot.1 slot.2
  | .peripheral _ => 0

/-- The default map of 20_memory.md R69: one region, main memory, the whole address space, 0x10000 bytes. -/
def FlatMap (s : State) : Prop :=
  s.regions = [mainRegion] ∧ ∃ cells, s.devices = [.memory { size := Config.mainMemorySize, cells := cells }]

/-- Under the default map: the word at an address below 0xFFFF. -/
def State.flatWord (s : State) (a : Word) : Word := s.slotWord (mainDevice, a.toNat)

/-- How many bytes an access of a width has. -/
def Width.bytes : Width → Nat
  | .byte => 1
  | .word => 2

/-- An access meets no memory that holds it, and ends with this cause: no region covers its address, or its last byte lies beyond
the memory device it resolves to (60_exceptions.md R282, R283). -/
def AccessFaults (s : State) (info : AccessInfo) (cause : FaultCause) : Prop :=
  (resolve s.regions info.addr = none ∧ cause = .unmappedAddress info) ∨
  ∃ d la m, resolve s.regions info.addr = some (d, la) ∧ s.device d = .memory m ∧ m.size < la.toNat + info.width.bytes ∧
    cause = .boundsViolation info la

/-- A 16-bit read at a global address faults with this cause. -/
abbrev ReadFaults (s : State) (a : Word) (cause : FaultCause) : Prop := AccessFaults s ⟨.read, a, .word⟩ cause

/-- A 16-bit write at a global address faults with this cause. -/
abbrev WriteFaults (s : State) (a : Word) (cause : FaultCause) : Prop := AccessFaults s ⟨.write, a, .word⟩ cause

/-- Two words share no byte. -/
abbrev SlotsApart (a b : Nat × Nat) : Prop := a.1 ≠ b.1 ∨ a.2 + 1 < b.2 ∨ b.2 + 1 < a.2

/-! ### Frames -/

/-- What no instruction changes: the mapper, the parameters and the model's own fields. -/
structure SameMachine (s t : State) : Prop where
  regions : t.regions = s.regions
  nextToken : t.nextToken = s.nextToken
  started : t.started = s.started
  params : t.params = s.params

/-- No byte and no peripheral is touched. -/
structure SameStore (s t : State) : Prop where
  devices : t.devices = s.devices
  peek : ∀ a, t.peek a = s.peek a

/-- Every register outside the list is unchanged. -/
def SameRegsBut (changed : List Reg) (s t : State) : Prop := ∀ r, r ∉ changed → t.reg r = s.reg r

/-- Only the listed registers change: not the other registers, the frame-byte counter, the run state, memory, a
peripheral, the mapper or a parameter. -/
structure OnlyRegs (changed : List Reg) (s t : State) : Prop where
  regs : SameRegsBut changed s t
  fsz : t.fsz = s.fsz
  status : t.status = s.status
  store : SameStore s t
  machine : SameMachine s t

/-- Memory after the word `v` is stored in a slot: `v >> 8` in its first byte, `v & 0xFF` in its second, every other byte of
every memory device as before, every global address that does not reach those two bytes reads as before, and no
peripheral is touched. -/
structure StoresWord (slot : Nat × Nat) (v : Word) (s t : State) : Prop where
  high : t.localByte slot.1 slot.2 = some ((v >>> 8).setWidth 8)
  low : t.localByte slot.1 (slot.2 + 1) = some (v.setWidth 8)
  others : ∀ d k, (d, k) ≠ slot → (d, k) ≠ (slot.1, slot.2 + 1) → t.localByte d k = s.localByte d k
  peek : ∀ a d la, resolve s.regions a = some (d, la) → (d, la.toNat) ≠ slot → (d, la.toNat) ≠ (slot.1, slot.2 + 1) →
    t.peek a = s.peek a
  unmapped : ∀ a, resolve s.regions a = none → t.peek a = s.peek a
  peripherals : ∀ d h, t.device d = .peripheral h ↔ s.device d = .peripheral h
  count : t.devices.length = s.devices.length

/-- Byte `k` of device `d` lies in none of the words that `n` pushes from `s` on store: push number `j` stores the word at the
old `sp` minus `2 * j` (44_stack_call.md R240). -/
def OutsidePushes (s : State) (n d k : Nat) : Prop :=
  ∀ j, j < n → ∀ slot, s.wordSlot (s.reg .sp - BitVec.ofNat 16 (2 * j)) = some slot →
    (d, k) ≠ slot ∧ (d, k) ≠ (slot.1, slot.2 + 1)

/-- Every byte outside the words of `n` pushes is as before, by its device and by every global address that resolves to it, an
address that no region covers reads as before, and no peripheral is touched. -/
structure OnlyPushedBytes (n : Nat) (s t : State) : Prop where
  bytes : ∀ d k, OutsidePushes s n d k → t.localByte d k = s.localByte d k
  peek : ∀ a d la, resolve s.regions a = some (d, la) → OutsidePushes s n d la.toNat → t.peek a = s.peek a
  unmapped : ∀ a, resolve s.regions a = none → t.peek a = s.peek a
  peripherals : ∀ d h, t.device d = .peripheral h ↔ s.device d = .peripheral h

/-- The ten words of a frame, in the order they are pushed (44_stack_call.md R242, R251). -/
def frameWords (s : State) : List Word := Reg.general.map s.reg ++ [s.reg .ip, s.fsz + 20]

/-- After the first `n` of the words `ws` are pushed from `s` on: a word stands in its slot, unless a later push shares a byte with
it. -/
def HoldsPushedWords (n : Nat) (ws : List Word) (s t : State) : Prop :=
  ∀ (j : Nat) (w : Word) (slot : Nat × Nat), j < n → ws[j]? = some w →
    s.wordSlot (s.reg .sp - BitVec.ofNat 16 (2 * j)) = some slot →
    (∀ i, j < i → i < n → ∀ later, s.wordSlot (s.reg .sp - BitVec.ofNat 16 (2 * i)) = some later →
      SlotsApart slot later) →
    t.slotWord slot = w

/-- Peripheral `d`, having received `h`, receives one access more and no other device receives or holds anything new: not a byte of
memory, not another peripheral, not the mapper or a parameter (20_memory.md R67, R68). -/
structure ReachesPeripheral (d : Nat) (h : List Config.DeviceAccess) (acc : Config.DeviceAccess) (s t : State) : Prop where
  received : t.device d = .peripheral (acc :: h)
  others : ∀ e, e ≠ d → t.device e = s.device e
  machine : SameMachine s t

/-- Nothing changes but what peripherals have received: no register, no byte of a memory device, not the frame-byte counter,
the run state, the mapper or a parameter. -/
structure OnlyPeripheralsReached (s t : State) : Prop where
  regs : SameRegsBut [] s t
  fsz : t.fsz = s.fsz
  status : t.status = s.status
  machine : SameMachine s t
  memories : ∀ d m, t.device d = .memory m ↔ s.device d = .memory m
  bytes : ∀ a, t.peek a = s.peek a

/-! ### The operand fetches of an instruction -/

/-- The widths of a format's operand fetches in encoding order: a register byte is a byte fetch, a literal or an address a word
fetch, the literal of RL8 a byte fetch (30_encoding.md R95, R105 to R107). -/
def operandWidths : Format → List Width
  | .N => []
  | .R => [.byte]
  | .L => [.word]
  | .A => [.word]
  | .RR => [.byte, .byte]
  | .RL8 => [.byte, .byte]
  | .LR => [.word, .byte]
  | .AR => [.word, .byte]
  | .RL => [.byte, .word]
  | .RA => [.byte, .word]
  | .LA => [.word, .word]
  | .LRR => [.word, .byte, .byte]

/-- How many bytes fetches of these widths take. -/
def fetchBytes : List Width → Nat
  | [] => 0
  | w :: rest => w.bytes + fetchBytes rest

/-- Where operand number `k` starts, counted from the opcode byte. -/
def operandOffset (f : Format) (k : Nat) : Nat := fetchBytes ((operandWidths f).take k) + 1

/-- The bytes that one fetch reads at a global address, where they lie in a memory device: a word fetch is routed by its first
address alone (20_memory.md R60, R62). -/
def State.fetchedAt (s : State) (a : Word) : Width → Option (List Byte)
  | .byte => (s.peek a).map fun b => [b]
  | .word => (s.wordSlot a).map fun slot => wordBytes (s.slotWord slot)

/-- The bytes that fetches of these widths read from a global address on, each in a memory device; addresses wrap (10_state.md
R29). -/
def State.fetchedFrom (s : State) (a : Word) : List Width → Option (List Byte)
  | [] => some []
  | w :: rest =>
    match s.fetchedAt a w, s.fetchedFrom (a + BitVec.ofNat 16 w.bytes) rest with
    | some bs, some more => some (bs ++ more)
    | _, _ => none

/-- One fetch at `ip`, wherever its bytes come from: `Fetch8` or `Fetch16`, its value as the bytes fetched. -/
def fetchOne : Width → Op (List Byte)
  | .byte => do let b ← fetch8; return [b]
  | .word => do let w ← fetch16; return wordBytes w

/-- Fetches at `ip`, one after the other, and the bytes fetched. -/
def fetchAll : List Width → Op (List Byte)
  | [] => pure []
  | w :: rest => do let bs ← fetchOne w; let more ← fetchAll rest; return bs ++ more

/-- The access that a read of a width makes of a device. -/
def readAccess (la : Word) : Width → Config.DeviceAccess
  | .byte => .read8 la
  | .word => .read16 la

/-- The bytes of a peripheral's answer to a read of a width. -/
def answerBytes (d : Nat) (h : List Config.DeviceAccess) (la : Word) : Width → List Byte
  | .byte => [Config.deviceByte d h la]
  | .word => wordBytes (Config.deviceWord d h la)

/-! ### The invariant -/

/-- What every reachable state satisfies: each memory device is in canonical form, each region names a device, no two
regions share a token and no token is yet to be given, the parameters are admitted ones, and the run has not ended before
it began. -/
structure State.Inv (s : State) : Prop where
  memories : ∀ d m, s.device d = .memory m → m.wf = true
  regions : ∀ g ∈ s.regions, g.device < s.devices.length
  tokens : (s.regions.map Region.token).Nodup ∧ ∀ g ∈ s.regions, g.token < s.nextToken
  params : ParamsWellFormed s.params
  begun : s.started = false → s.status = .running

/-- What a step keeps of the machine's make-up: the mapper, the parameters, the number of devices, which devices are
memories and of what size. -/
structure SameMakeUp (s t : State) : Prop where
  regions : t.regions = s.regions
  nextToken : t.nextToken = s.nextToken
  params : t.params = s.params
  count : t.devices.length = s.devices.length
  sizes : ∀ d m, s.device d = .memory m → ∃ m', t.device d = .memory m' ∧ m'.size = m.size
  peripherals : ∀ d h, s.device d = .peripheral h → ∃ h', t.device d = .peripheral h'

end Sys2Proof.Machine
end

