-- ==== Sys2Proof/Certificates/Slice0/Obligations.lean ====
section
/-! DEFINITION. The statements for the provers. A docstring names the rule of spec/ a statement formalises; where the rule is
marked as the spec's own decision D<n> (92_eei_decisions.md) it says so, and log 18 records that the model follows it. -/

open Sys2Proof Sys2Proof.Machine

/-! ### Encoding and decoding -/

/-- Decode and encode agree (30_encoding.md sections 1 to 3; operand order and formats are decisions D2 and D3): for every
admitted opcode map and both shift-literal widths, the bytes of a well-formed instruction decode to it and leave what
follows. -/
def Obligations.DecodeInvertsEncode : Prop :=
  ∀ (p : Config.Params) (i : Instr) (rest : List Byte),
    ParamsWellFormed p → i.wellFormed p.shiftLit = true → decode p (encode p i ++ rest) = .ok (i, rest)

/-- The first byte alone fixes the instruction's length (30_encoding.md R90; lengths by R95, R96, decisions D2, D3), and a
decoded instruction depends on its own bytes only. -/
def Obligations.FirstByteFixesTheLength : Prop :=
  ∀ (p : Config.Params) (bs rest : List Byte) (i : Instr), decode p bs = .ok (i, rest) →
    i.wellFormed p.shiftLit = true ∧
    ∃ (b : Byte) (operands : List Byte), bs = b :: operands ++ rest ∧
      opcodeOfByte p.opcodes b = some i.opcode ∧
      operands.length + 1 = formatLength (opcodeFormat p.shiftLit i.opcode) ∧
      ∀ other, decode p (b :: operands ++ other) = .ok (i, other)

/-- The decoder's only verdicts are an instruction and an unrecognized opcode, once the bytes can be read (30_encoding.md
R101): it refuses a list only by its first byte, or because the list ends too early. -/
def Obligations.DecoderRefusesByNameOnly : Prop :=
  ∀ (p : Config.Params) (bs : List Byte) (e : DecodeError), decode p bs = .error e →
    (∃ b, bs.head? = some b ∧ opcodeOfByte p.opcodes b = none ∧ e = .unrecognizedOpcode b) ∨
    (e = .truncated ∧ (bs = [] ∨ ∃ b o, bs.head? = some b ∧ opcodeOfByte p.opcodes b = some o ∧
      bs.length < formatLength (opcodeFormat p.shiftLit o)))

/-- Every register byte is legal and names register `b mod 12`, with the rule's three examples (30_encoding.md R92). -/
def Obligations.RegisterByteModTwelve : Prop :=
  (∀ b : Byte, regIndex (regOfByte b) = b.toNat % 12) ∧
  (∀ (b : Byte) (rest : List Byte), nextReg (b :: rest) = .ok (regOfByte b) rest) ∧
  regOfByte 0x0C = .ip ∧ regOfByte 0x0E = .r1 ∧ regOfByte 0xFF = .r2

/-- The default opcode table is an admitted one and leaves 210 byte values unrecognized, 0x00 among them (30_encoding.md
R98, R99: decision D1, PRESUMED, log 3). -/
def Obligations.DefaultTableLeaves210Bytes : Prop :=
  ParamsWellFormed Config.defaultParams ∧
  ((List.range 256).filter fun b => opcodeOfByte Config.defaultOpcodes (BitVec.ofNat 8 b) = none).length = 210 ∧
  opcodeOfByte Config.defaultOpcodes 0x00 = none

/-- Words written out from the encodings of the spec's rules decode to the instructions they stand for (the examples of R120,
R122, R126, R151, R154, R182, R211, R212, R246, R247, R249, R270). The opcode bytes are the default table's (PRESUMED, log 3), the
operand order is the spec's decision D2 and JMP_NOT_EQ's form its decision D7 (log 18), and the four-byte shift word is its
decision D3 (log 4). -/
def Obligations.ExampleWordsDecode : Prop :=
  decode Config.defaultParams [0x10, 0x12, 0x34, 0x02] = .ok (.movLitReg 0x1234 .r1, []) ∧
  decode Config.defaultParams [0x12, 0x02, 0x02, 0x00] = .ok (.movRegMem .r1 0x0200, []) ∧
  decode Config.defaultParams [0x1D, 0x02, 0x00, 0x02, 0x03] = .ok (.movLitOffReg 0x0200 .r1 .r2, []) ∧
  decode Config.defaultParams [0x14, 0x02, 0x03] = .ok (.addRegReg .r1 .r2, []) ∧
  decode Config.defaultParams [0x1E, 0x02, 0x00, 0x03] = .ok (.subRegLit .r1 0x0003, []) ∧
  decode Config.defaultParams [0x26, 0x02, 0x00, 0x04] = .ok (.lsfRegLit .r1 0x0004, []) ∧
  decode Config.defaultParams [0x15, 0x00, 0x03, 0x01, 0x00] = .ok (.jmpNotEq 0x0003 0x0100, []) ∧
  decode Config.defaultParams [0x40, 0x02, 0x01, 0x00] = .ok (.jneReg .r1 0x0100, []) ∧
  decode Config.defaultParams [0x1A, 0x02] = .ok (.pop .r1, []) ∧
  decode Config.defaultParams [0x5E, 0x01, 0x00] = .ok (.callLit 0x0100, []) ∧
  decode Config.defaultParams [0x60] = .ok (.ret, []) ∧
  decode Config.defaultParams [0xFF] = .ok (.hlt, [])

/-! ### The step -/

/-- A step runs the decoded instruction, with `ip` moved past its bytes first (30_encoding.md R107, 10_state.md R28, R29:
decision D8): where the bytes at `ip` lie in one memory device; where the opcode byte and each operand fetch of its format lie in
memory, in whichever devices, `ip` running on from 0xFFFF to 0x0000 included (20_memory.md R62: a word fetch is routed by its first
address); and fetch by fetch, wherever the bytes come from, a peripheral included, with a failing operand fetch ending the step
(60_exceptions.md R287: decision D17, log 18). -/
def Obligations.StepRunsTheDecodedInstruction : Prop :=
  (∀ (s : State) (n : Nat) (bs : List Byte) (i : Instr),
    s.status = .running → s.codeBytes n = some bs → decode s.params bs = .ok (i, []) →
    step s = exec i (s.begun.withReg .ip (s.reg .ip + BitVec.ofNat 16 n))) ∧
  (∀ (s : State) (b : Byte) (o : Opcode) (bs : List Byte),
    s.status = .running → s.peek (s.reg .ip) = some b → opcodeOfByte s.params.opcodes b = some o →
    s.fetchedFrom (s.reg .ip + 1) (operandWidths (opcodeFormat s.params.shiftLit o)) = some bs →
    ∃ i, decode s.params (b :: bs) = .ok (i, []) ∧
      step s = exec i (s.begun.withReg .ip (s.reg .ip + BitVec.ofNat 16 (bs.length + 1)))) ∧
  ∀ (s s1 : State) (b : Byte) (o : Opcode),
    s.status = .running → fetch8 s.begun = .ok b s1 → opcodeOfByte s.params.opcodes b = some o →
    (∀ bs t, fetchAll (operandWidths (opcodeFormat s.params.shiftLit o)) s1 = .ok bs t →
      ∃ i, decode s.params (b :: bs) = .ok (i, []) ∧ step s = exec i t) ∧
    ∀ e t, fetchAll (operandWidths (opcodeFormat s.params.shiftLit o)) s1 = .error e t → step s = .next (t.stopped e)

/-- No step is defined once `status` has left Running (45_control.md R272: decision D18; the model answers a fault of its own
name, log 2). -/
def Obligations.NoStepAfterTheEnd : Prop :=
  ∀ s : State, s.status ≠ .running → step s = .fault (.notRunning s.status)

/-- An unrecognized opcode byte halts with the byte recorded, `ip` one past it, and nothing else changed (45_control.md R271,
60_exceptions.md R285: decision D19). -/
def Obligations.UnrecognizedOpcodeHalts : Prop :=
  ∀ (s : State) (b : Byte), s.status = .running → s.codeBytes 1 = some [b] →
    opcodeOfByte s.params.opcodes b = none →
    ∃ t, step s = .next t ∧ t.status = .halted (.illegalOpcode b) ∧ t.reg .ip = s.reg .ip + 1 ∧
      SameRegsBut [.ip] s t ∧ t.fsz = s.fsz ∧ SameStore s t ∧ SameMachine s.begun t

/-- A fetch from an address that no region covers ends the step with UnmappedAddress of that fetch; `ip` stays at the failing byte
and nothing else changes (60_exceptions.md R282, R287, 30_encoding.md R104, R105; the record is decision D26, log 18): the opcode
fetch, and the fetch of operand number `k` of any instruction whose fetches before it lie in memory. -/
def Obligations.UnmappedFetchFaults : Prop :=
  (∀ s : State, s.status = .running → resolve s.regions (s.reg .ip) = none →
    ∃ t, step s = .next t ∧ t.status = .faulted (.unmappedAddress ⟨.fetch, s.reg .ip, .byte⟩) ∧
      SameRegsBut [] s t ∧ t.fsz = s.fsz ∧ SameStore s t ∧ SameMachine s.begun t) ∧
  ∀ (s : State) (b : Byte) (o : Opcode) (k : Nat) (w : Width) (a : Word),
    s.status = .running → s.peek (s.reg .ip) = some b → opcodeOfByte s.params.opcodes b = some o →
    (operandWidths (opcodeFormat s.params.shiftLit o))[k]? = some w →
    (s.fetchedFrom (s.reg .ip + 1) ((operandWidths (opcodeFormat s.params.shiftLit o)).take k)).isSome →
    a = s.reg .ip + BitVec.ofNat 16 (operandOffset (opcodeFormat s.params.shiftLit o) k) →
    resolve s.regions a = none →
    ∃ t, step s = .next t ∧ t.status = .faulted (.unmappedAddress ⟨.fetch, a, w⟩) ∧
      t.reg .ip = a ∧ SameRegsBut [.ip] s t ∧ t.fsz = s.fsz ∧ SameStore s t ∧ SameMachine s.begun t

/-- A fetch past the memory device it resolves to ends the step with BoundsViolation of that fetch; `ip` stays at its first byte and
nothing else changes (60_exceptions.md R283, R287, 30_encoding.md R104, R105, 10_state.md R29, 20_memory.md R52, R53: decisions
D16, D26, log 18). The opcode byte, where the device's size is at most the local address; operand number `k` of any instruction
whose fetches before it lie in memory, a register byte as the opcode byte, a word where its second byte lies beyond; and the case
of the default map: a word operand, first or second, at 0xFFFF (an instruction at 0xFFFE whose first operand is a literal or an
address, at 0xFFFD of format RL or RA, at 0xFFFC of format LA). -/
def Obligations.FetchPastTheDeviceFaults : Prop :=
  (∀ (s : State) (d : Nat) (la : Word) (m : Memory),
    s.status = .running → resolve s.regions (s.reg .ip) = some (d, la) → s.device d = .memory m → m.size ≤ la.toNat →
    ∃ t, step s = .next t ∧ t.status = .faulted (.boundsViolation ⟨.fetch, s.reg .ip, .byte⟩ la) ∧
      SameRegsBut [] s t ∧ t.fsz = s.fsz ∧ SameStore s t ∧ SameMachine s.begun t) ∧
  (∀ (s : State) (b : Byte) (o : Opcode) (k : Nat) (w : Width) (a : Word) (d : Nat) (la : Word) (m : Memory),
    s.status = .running → s.peek (s.reg .ip) = some b → opcodeOfByte s.params.opcodes b = some o →
    (operandWidths (opcodeFormat s.params.shiftLit o))[k]? = some w →
    (s.fetchedFrom (s.reg .ip + 1) ((operandWidths (opcodeFormat s.params.shiftLit o)).take k)).isSome →
    a = s.reg .ip + BitVec.ofNat 16 (operandOffset (opcodeFormat s.params.shiftLit o) k) →
    resolve s.regions a = some (d, la) → s.device d = .memory m → m.size < la.toNat + w.bytes →
    ∃ t, step s = .next t ∧ t.status = .faulted (.boundsViolation ⟨.fetch, a, w⟩ la) ∧
      t.reg .ip = a ∧ SameRegsBut [.ip] s t ∧ t.fsz = s.fsz ∧ SameStore s t ∧ SameMachine s.begun t) ∧
  ∀ (s : State) (b : Byte) (o : Opcode) (k : Nat), FlatMap s → s.status = .running → s.peek (s.reg .ip) = some b →
    opcodeOfByte s.params.opcodes b = some o →
    (operandWidths (opcodeFormat s.params.shiftLit o))[k]? = some .word →
    s.reg .ip + BitVec.ofNat 16 (operandOffset (opcodeFormat s.params.shiftLit o) k) = 0xFFFF →
    ∃ t, step s = .next t ∧ t.status = .faulted (.boundsViolation ⟨.fetch, 0xFFFF, .word⟩ 0xFFFF) ∧
      t.reg .ip = 0xFFFF ∧ SameRegsBut [.ip] s t ∧ t.fsz = s.fsz ∧ SameStore s t ∧ SameMachine s.begun t

/-- Every instruction is legal in every state (45_control.md R274, 30_encoding.md R100): its meaning always has a next state,
with `status` as before, Halted(Normal) or Faulted. -/
def Obligations.EveryInstructionIsLegal : Prop :=
  ∀ (i : Instr) (s : State), ∃ t, exec i s = .next t ∧
    (t.status = s.status ∨ t.status = .halted .normal ∨ ∃ c, t.status = .faulted c)

/-! ### The register file and reset -/

/-- Access by name (10_state.md R26, R20; the register file's contract: when a host may call `set` is no part of it, log 23): each
of the twelve names reads and writes its register; `set` then `get` by a name of the fixed set gives the value, leaves every other
name alone and changes nothing but that register; an unknown name is absent and setting it changes nothing; the names are exactly
the twelve. -/
def Obligations.NamedRegistersFailSoftly : Prop :=
  (∀ n, (regOfName n).isSome ↔ n ∈ ["ip", "acc", "r1", "r2", "r3", "r4", "r5", "r6", "r7", "r8", "sp", "fp"]) ∧
  (∀ row ∈ [("ip", Reg.ip), ("acc", .acc), ("r1", .r1), ("r2", .r2), ("r3", .r3), ("r4", .r4), ("r5", .r5), ("r6", .r6),
      ("r7", .r7), ("r8", .r8), ("sp", .sp), ("fp", .fp)], ∀ (s : State) (v : Word),
    getByName s row.1 = some (s.reg row.2) ∧ (setByName s row.1 v).reg row.2 = v ∧
    OnlyRegs [row.2] s (setByName s row.1 v)) ∧
  (∀ (s : State) (n : String) (v : Word), (regOfName n).isSome →
    getByName (setByName s n v) n = some v ∧
    ∀ m, m ≠ n → getByName (setByName s n v) m = getByName s m) ∧
  (∀ (s : State) (n : String) (v : Word), regOfName n = none →
    setByName s n v = s ∧ getByName s n = none)

/-- The register file as storage: 24 bytes, register `i` at byte offsets `2*i` and `2*i + 1`, high byte first
(10_state.md R25). -/
def Obligations.RegisterStorageLayout : Prop :=
  ∀ (f : RegFile), f.storage.length = 24 ∧
    ∀ r : Reg, f.storage[2 * regIndex r]? = some ((f.get r >>> 8).setWidth 8) ∧
      f.storage[2 * regIndex r + 1]? = some ((f.get r).setWidth 8)

/-- The reset values of the registers (10_state.md R21): `sp` and `fp` one below the top, all others 0. -/
def Obligations.ResetRegisters : Prop :=
  State.reset.reg .sp = 0xFFFE ∧ State.reset.reg .fp = 0xFFFE ∧
  ∀ r : Reg, r ≠ .sp → r ≠ .fp → State.reset.reg r = 0x0000

/-- The rest of the reset state (10_state.md R39: the counter is decision D13, the map D14, log 18; main memory lists nothing, its
bytes are the open P_INIT_MEM, log 7; `started` is the model's own, log 12): counter 0, Running, the default map and the default
parameters (logs 3 to 5). It is the default launch of an empty image, and the default launch of any image that fits differs from
it in the bytes of main memory that the image holds, and in nothing else. -/
def Obligations.ResetMachine : Prop :=
  State.reset.fsz = 0 ∧ State.reset.status = .running ∧ FlatMap State.reset ∧
  State.reset.params = Config.defaultParams ∧ State.reset.started = false ∧
  (∀ a : Word, State.reset.peek a = some (Config.initByte mainDevice a.toNat)) ∧
  launch (defaultLaunch []) = some State.reset ∧
  ∀ image : List Byte, image.length ≤ 0x10000 →
    ∃ t, launch (defaultLaunch image) = some t ∧ t = { State.reset with devices := t.devices } ∧ FlatMap t ∧
      ∀ a : Word, t.peek a = some ((image[a.toNat]?).getD (Config.initByte mainDevice a.toNat))

/-- The launch (70_reset_and_hazards.md R312, R313; decisions D14, D21, log 18). An image that is too long is refused; so are, the
model's own grounds (log 16), an opcode map that is not injective and a region that names no device. Every other launch loads: the
image stands from address 0 on, every other byte of main memory has its launch contents (log 7), the other devices are as
constructed, the regions are listed with the last registered first, every register has its reset value, and the machine's
invariant (the model's own, logs 7, 12, 13) holds. -/
def Obligations.LaunchLoadsTheImage : Prop :=
  ∀ l : Launch,
    (l.mainSize < l.image.length → launch l = none) ∧
    (¬ ParamsWellFormed l.params → launch l = none) ∧
    (∀ g ∈ l.regions, l.others.length < g.device → launch l = none) ∧
    (l.image.length ≤ l.mainSize → ParamsWellFormed l.params → (∀ g ∈ l.regions, g.device ≤ l.others.length) →
      ∃ s, launch l = some s ∧
        (∀ k, s.localByte mainDevice k =
          if k < l.mainSize then some ((l.image[k]?).getD (Config.initByte mainDevice k)) else none) ∧
        s.devices.tail = l.others.map constructDevice ∧
        s.regions.map (fun g => RegionSpec.mk g.device g.start g.last g.remap) = l.regions.reverse ∧
        s.regs = resetRegs ∧ s.fsz = 0 ∧ s.status = .running ∧ s.started = false ∧ s.params = l.params ∧ s.Inv)

/-! ### The memory device and the mapper -/

/-- The round-trip laws of a memory device of size `N` (20_memory.md R54): they hold for every local address with `la + 1 < N`,
and at `la = N - 1` the access fails instead. -/
def Obligations.MemoryRoundTrip : Prop :=
  ∀ (s : State) (d : Nat) (m : Memory) (la v : Word) (info : AccessInfo), s.device d = .memory m →
    (la.toNat + 1 < m.size →
      ∃ t, deviceWrite16 d la v info s = .ok () t ∧
        deviceRead16 d la info t = .ok v t ∧
        deviceRead8 d la info t = .ok ((v >>> 8).setWidth 8) t ∧
        (la.toNat + 1 < 0x10000 → deviceRead8 d (la + 1) info t = .ok (v.setWidth 8) t)) ∧
    (la.toNat + 1 = m.size →
      deviceWrite16 d la v info s = .error (.fault (.boundsViolation info la)) s ∧
      deviceRead16 d la info s = .error (.fault (.boundsViolation info la)) s)

/-- The canonical form of a memory device's list of bytes, the model's own form of 20_memory.md R52 (log 7): every write in
range keeps it, and two memories in it that list the same bytes are equal data. -/
def Obligations.MemoryKeepsItsCanonicalForm : Prop :=
  (∀ (m : Memory) (a : Nat) (b : Byte), m.wf = true → a < m.size → (m.putByte a b).wf = true) ∧
  (∀ (m : Memory) (a : Nat) (v : Word), m.wf = true → a + 1 < m.size → (m.putWord a v).wf = true) ∧
  (∀ (m : Memory) (a : Nat) (bs : List Byte), m.wf = true → a + bs.length ≤ m.size → (m.putBytes a bs).wf = true) ∧
  ∀ m n : Memory, m.wf = true → n.wf = true → m.size = n.size →
    (∀ a, cellAt a m.cells = cellAt a n.cells) → m = n

/-- Under the default map a 16-bit access raises BoundsViolation exactly at 0xFFFF, and then changes nothing
(60_exceptions.md R283, 20_memory.md R53: decision D16). -/
def Obligations.BoundsViolationExactlyAtTheTop : Prop :=
  ∀ (s : State) (kind : AccessKind) (a v : Word), FlatMap s →
    (a ≠ 0xFFFF → memRead16 kind a s = .ok (s.flatWord a) s ∧ ∃ t, memWrite16 kind a v s = .ok () t) ∧
    (a = 0xFFFF → memRead16 kind a s = .error (.fault (.boundsViolation ⟨kind, a, .word⟩ 0xFFFF)) s ∧
      memWrite16 kind a v s = .error (.fault (.boundsViolation ⟨kind, a, .word⟩ 0xFFFF)) s)

/-- The first region whose inclusive interval holds the address gets the access, translated where `remap` is set; an empty
interval holds nothing; an access at an address in none raises UnmappedAddress (20_memory.md R57, R58; the record the error
carries, its kind, address and width, is decision D26, log 18). -/
def Obligations.FirstRegionWins : Prop :=
  (∀ (before after : List Region) (g : Region) (a : Word),
    (∀ e ∈ before, ¬ (e.start.toNat ≤ a.toNat ∧ a.toNat ≤ e.last.toNat)) →
    g.start.toNat ≤ a.toNat → a.toNat ≤ g.last.toNat →
    ∃ la, resolve (before ++ g :: after) a = some (g.device, la) ∧
      la.toNat = if g.remap then a.toNat - g.start.toNat else a.toNat) ∧
  (∀ (l : List Region) (a : Word),
    (∀ e ∈ l, ¬ (e.start.toNat ≤ a.toNat ∧ a.toNat ≤ e.last.toNat)) → resolve l a = none) ∧
  (∀ (s : State) (kind : AccessKind) (a v : Word), resolve s.regions a = none →
    memRead8 kind a s = .error (.fault (.unmappedAddress ⟨kind, a, .byte⟩)) s ∧
    memRead16 kind a s = .error (.fault (.unmappedAddress ⟨kind, a, .word⟩)) s ∧
    memWrite8 kind a v s = .error (.fault (.unmappedAddress ⟨kind, a, .byte⟩)) s ∧
    memWrite16 kind a v s = .error (.fault (.unmappedAddress ⟨kind, a, .word⟩)) s)

/-- Before the first step, `map` of a device that exists answers a token; the region shadows every earlier one inside its interval
and leaves the rest, and unmapping its token makes the shadowed regions visible again; neither touches anything but the list of
regions and the model's own `nextToken` (20_memory.md R59, 60_exceptions.md R299: decisions D21 and D25, log 18; tokens are log 13).
A device that does not exist is refused, and once stepping has begun `map` and unmap answer nothing (logs 10, 12). -/
def Obligations.MappingShadowsUntilUnmapped : Prop :=
  ∀ (s : State) (d : Nat) (start last : Word) (remap : Bool),
    (s.started = false → d < s.devices.length →
      ∃ token t, mapRegion s d start last remap = some (token, t) ∧
        t = { s with regions := t.regions, nextToken := t.nextToken } ∧
        (∀ a : Word, start.toNat ≤ a.toNat → a.toNat ≤ last.toNat →
          resolve t.regions a = some (d, if remap then a - start else a)) ∧
        (∀ a : Word, ¬ (start.toNat ≤ a.toNat ∧ a.toNat ≤ last.toNat) →
          resolve t.regions a = resolve s.regions a) ∧
        (s.Inv → t.Inv ∧ ∃ u, unmapRegion t token = some u ∧ u = { t with regions := s.regions } ∧ u.Inv)) ∧
    (s.devices.length ≤ d → mapRegion s d start last remap = none) ∧
    (s.started = true → mapRegion s d start last remap = none ∧ ∀ token, unmapRegion s token = none)

/-- A 16-bit access is one access of the device that its first address resolves to, whatever the second address resolves to
(20_memory.md R60 to R62): in a memory device it reads or writes local bytes `la` and `la + 1`, at any alignment. -/
def Obligations.WordAccessRoutedByItsFirstByte : Prop :=
  ∀ (s : State) (kind : AccessKind) (a v : Word) (slot : Nat × Nat), s.wordSlot a = some slot →
    (∃ w hi lo, memRead16 kind a s = .ok w s ∧ s.localByte slot.1 slot.2 = some hi ∧
      s.localByte slot.1 (slot.2 + 1) = some lo ∧ w.toNat = 256 * hi.toNat + lo.toNat) ∧
    ∃ t, memWrite16 kind a v s = .ok () t ∧ StoresWord slot v s t ∧ SameRegsBut [] s t ∧ t.fsz = s.fsz ∧
      t.status = s.status ∧ SameMachine s t

/-- The raw loader view and the mapper see the same bytes of main memory under the default map, and the raw view is closed once
stepping has begun (20_memory.md R55). -/
def Obligations.RawViewSharesMainMemory : Prop :=
  ∀ (s : State) (a : Word) (b : Byte), FlatMap s →
    (s.started = false →
      rawRead s a.toNat = s.peek a ∧
      ∃ t, rawWrite s a.toNat b = some t ∧ t.peek a = some b ∧
        (∀ c, c ≠ a → t.peek c = s.peek c) ∧ SameRegsBut [] s t ∧ t.fsz = s.fsz ∧ t.status = s.status ∧
        SameMachine s t) ∧
    (s.started = true → rawRead s a.toNat = none ∧ rawWrite s a.toNat b = none)

/-- A host read, of a byte, of a word or of the range of a dump, goes through the mapper and gives the value or the error to the
host; it changes neither the run state, nor a register, nor a byte of memory (60_exceptions.md R299: decision D25, log 18). Its
errors are those of 60_exceptions.md R282 and R283, with the record of a `read` (decision D26, log 18, and log 14); a peripheral
receives it like any other read (P_DEVICES, log 8). A range of `n` bytes answers `n` results: number `k` is the byte read at
`a + k`, wrapped, in the state the reads before it have left; a dump answers the twelve registers by name, and a range (the forms
of both are log 14). -/
def Obligations.HostReadsLeaveTheRunAlone : Prop :=
  ∀ (s : State) (a : Word),
    (OnlyPeripheralsReached s (hostRead8 s a).2 ∧ OnlyPeripheralsReached s (hostRead16 s a).2 ∧
      ∀ n, OnlyPeripheralsReached s (hostReadRange s a n).2 ∧ OnlyPeripheralsReached s (hostDump s a n).2.2) ∧
    (hostReadRange s a 0 = ([], s) ∧
      ∀ n, hostReadRange s a (n + 1) =
        ((hostReadRange s a n).1 ++ [(hostRead8 (hostReadRange s a n).2 (a + BitVec.ofNat 16 n)).1],
          (hostRead8 (hostReadRange s a n).2 (a + BitVec.ofNat 16 n)).2)) ∧
    (∀ n, hostDump s a n =
      ([("ip", s.reg .ip), ("acc", s.reg .acc), ("r1", s.reg .r1), ("r2", s.reg .r2), ("r3", s.reg .r3),
        ("r4", s.reg .r4), ("r5", s.reg .r5), ("r6", s.reg .r6), ("r7", s.reg .r7), ("r8", s.reg .r8),
        ("sp", s.reg .sp), ("fp", s.reg .fp)], hostReadRange s a n)) ∧
    (∀ b, s.peek a = some b → hostRead8 s a = (.ok b, s)) ∧
    (∀ slot, s.wordSlot a = some slot → hostRead16 s a = (.ok (s.slotWord slot), s)) ∧
    (resolve s.regions a = none →
      hostRead8 s a = (.error (.fault (.unmappedAddress ⟨.read, a, .byte⟩)), s) ∧
      hostRead16 s a = (.error (.fault (.unmappedAddress ⟨.read, a, .word⟩)), s)) ∧
    (∀ d la m, resolve s.regions a = some (d, la) → s.device d = .memory m →
      (m.size ≤ la.toNat → hostRead8 s a = (.error (.fault (.boundsViolation ⟨.read, a, .byte⟩ la)), s)) ∧
      (m.size ≤ la.toNat + 1 → hostRead16 s a = (.error (.fault (.boundsViolation ⟨.read, a, .word⟩ la)), s))) ∧
    (∀ d la h, resolve s.regions a = some (d, la) → s.device d = .peripheral h →
      ReachesPeripheral d h (.read8 la) s (hostRead8 s a).2 ∧
      (hostRead8 s a).1 = (if Config.deviceFails d h (.read8 la) then
        .error (.fault (.deviceFault ⟨.read, a, .byte⟩ la)) else .ok (Config.deviceByte d h la)) ∧
      ReachesPeripheral d h (.read16 la) s (hostRead16 s a).2 ∧
      (hostRead16 s a).1 = (if Config.deviceFails d h (.read16 la) then
        .error (.fault (.deviceFault ⟨.read, a, .word⟩ la)) else .ok (Config.deviceWord d h la)))

/-! ### Peripherals (P_DEVICES is open: the statements hold for every behaviour, log 8) -/

/-- A store into a peripheral's region reaches it as one `write16` at the local address; if the device fails it, the run ends
with DeviceFault (20_memory.md R56, R67, R68, 60_exceptions.md R284: decisions D22, D26, log 18; a failed access stays in the
history, log 9): both storing MOVs, the two PSH, and, as the operation `Push`, each push of a call. A push moves `sp` and the
counter only where the device takes the word (44_stack_call.md R240: decision D12, log 18). -/
def Obligations.StoresReachPeripheralsOnce : Prop :=
  ∀ (s : State) (addr : Word) (d : Nat) (la : Word) (h : List Config.DeviceAccess),
    resolve s.regions addr = some (d, la) → s.device d = .peripheral h →
    (∀ (i : Instr) (v : Word), (i = .movLitMem v addr ∨ ∃ rs, i = .movRegMem rs addr ∧ v = s.reg rs) →
      ∃ t, exec i s = .next t ∧ ReachesPeripheral d h (.write16 la v) s t ∧ SameRegsBut [] s t ∧ t.fsz = s.fsz ∧
        t.status = if Config.deviceFails d h (.write16 la v) then
          .faulted (.deviceFault ⟨.write, addr, .word⟩ la) else s.status) ∧
    (s.reg .sp = addr → ∀ v : Word,
      (∀ i : Instr, (i = .pshLit v ∨ ∃ r, i = .pshReg r ∧ v = s.reg r) →
        ∃ t, exec i s = .next t ∧ ReachesPeripheral d h (.write16 la v) s t ∧ SameRegsBut [.sp] s t ∧
          if Config.deviceFails d h (.write16 la v) then
            t.status = .faulted (.deviceFault ⟨.write, addr, .word⟩ la) ∧ t.reg .sp = s.reg .sp ∧ t.fsz = s.fsz
          else t.status = s.status ∧ t.reg .sp = s.reg .sp - 2 ∧ t.fsz = s.fsz + 2) ∧
      ∃ t, ReachesPeripheral d h (.write16 la v) s t ∧ SameRegsBut [.sp] s t ∧ t.status = s.status ∧
        if Config.deviceFails d h (.write16 la v) then
          push v s = .error (.fault (.deviceFault ⟨.write, addr, .word⟩ la)) t ∧
            t.reg .sp = s.reg .sp ∧ t.fsz = s.fsz
        else push v s = .ok () t ∧ t.reg .sp = s.reg .sp - 2 ∧ t.fsz = s.fsz + 2)

/-- A read at a peripheral's region reaches it as one `read8` or `read16`; its value is the device's, and a failed read ends the run
with DeviceFault of that read and delivers nothing (20_memory.md R56, R68, R70, 60_exceptions.md R284, 40_data_movement.md R123:
decisions D22, D26, log 18; a failed access stays in the history, log 9): the three loading MOVs; POP, and, as the operation `Pop`,
each pop of a return, the discarded words included (decision D24), a pop having moved `sp` and the counter before the read
(44_stack_call.md R241); and the fetches: as the operations `Fetch8` and `Fetch16`, whose failure leaves `ip` at its address
(30_encoding.md R104, R105), and in a step whose other fetches lie in memory as its opcode fetch or as operand fetch number `k`:
a failure ends the step there, an answer is what the decoder reads. -/
def Obligations.ReadsReachPeripheralsOnce : Prop :=
  ∀ (s : State) (addr : Word) (d : Nat) (la : Word) (h : List Config.DeviceAccess),
    resolve s.regions addr = some (d, la) → s.device d = .peripheral h →
    (∀ (i : Instr) (rd : Reg),
      (i = .movMemReg addr rd ∨ (∃ rp, i = .movRegPtrReg rp rd ∧ s.reg rp = addr) ∨
        ∃ base ro, i = .movLitOffReg base ro rd ∧ base + s.reg ro = addr) →
      ∃ t, exec i s = .next t ∧ ReachesPeripheral d h (.read16 la) s t ∧ SameRegsBut [rd] s t ∧ t.fsz = s.fsz ∧
        if Config.deviceFails d h (.read16 la) then
          t.status = .faulted (.deviceFault ⟨.read, addr, .word⟩ la) ∧ t.reg rd = s.reg rd
        else t.status = s.status ∧ t.reg rd = Config.deviceWord d h la) ∧
    (s.reg .sp + 2 = addr →
      (∀ rd, ∃ t, exec (.pop rd) s = .next t ∧ ReachesPeripheral d h (.read16 la) s t ∧ SameRegsBut [rd, .sp] s t ∧
        t.fsz = s.fsz - 2 ∧ (rd ≠ .sp → t.reg .sp = s.reg .sp + 2) ∧
        if Config.deviceFails d h (.read16 la) then
          t.status = .faulted (.deviceFault ⟨.read, addr, .word⟩ la) ∧ SameRegsBut [.sp] s t ∧
            t.reg .sp = s.reg .sp + 2
        else t.status = s.status ∧ t.reg rd = Config.deviceWord d h la) ∧
      ∃ t, ReachesPeripheral d h (.read16 la) s t ∧ SameRegsBut [.sp] s t ∧ t.status = s.status ∧
        t.reg .sp = s.reg .sp + 2 ∧ t.fsz = s.fsz - 2 ∧
        pop s = if Config.deviceFails d h (.read16 la) then
          .error (.fault (.deviceFault ⟨.read, addr, .word⟩ la)) t else .ok (Config.deviceWord d h la) t) ∧
    (s.reg .ip = addr →
      (∃ t, ReachesPeripheral d h (.read8 la) s t ∧ SameRegsBut [.ip] s t ∧ t.fsz = s.fsz ∧ t.status = s.status ∧
        if Config.deviceFails d h (.read8 la) then
          fetch8 s = .error (.fault (.deviceFault ⟨.fetch, addr, .byte⟩ la)) t ∧ t.reg .ip = addr
        else fetch8 s = .ok (Config.deviceByte d h la) t ∧ t.reg .ip = addr + 1) ∧
      ∃ t, ReachesPeripheral d h (.read16 la) s t ∧ SameRegsBut [.ip] s t ∧ t.fsz = s.fsz ∧ t.status = s.status ∧
        if Config.deviceFails d h (.read16 la) then
          fetch16 s = .error (.fault (.deviceFault ⟨.fetch, addr, .word⟩ la)) t ∧ t.reg .ip = addr
        else fetch16 s = .ok (Config.deviceWord d h la) t ∧ t.reg .ip = addr + 2) ∧
    (s.status = .running → s.reg .ip = addr →
      if Config.deviceFails d h (.read8 la) then
        ∃ t, step s = .next t ∧ t.status = .faulted (.deviceFault ⟨.fetch, addr, .byte⟩ la) ∧
          ReachesPeripheral d h (.read8 la) s.begun t ∧ SameRegsBut [] s t ∧ t.fsz = s.fsz
      else match opcodeOfByte s.params.opcodes (Config.deviceByte d h la) with
        | none =>
          ∃ t, step s = .next t ∧ t.status = .halted (.illegalOpcode (Config.deviceByte d h la)) ∧
            ReachesPeripheral d h (.read8 la) s.begun t ∧ t.reg .ip = addr + 1 ∧ SameRegsBut [.ip] s t ∧ t.fsz = s.fsz
        | some o =>
          ∀ bs, s.fetchedFrom (addr + 1) (operandWidths (opcodeFormat s.params.shiftLit o)) = some bs →
            ∃ i t, decode s.params (Config.deviceByte d h la :: bs) = .ok (i, []) ∧ step s = exec i t ∧
              ReachesPeripheral d h (.read8 la) s.begun t ∧ t.reg .ip = addr + BitVec.ofNat 16 (bs.length + 1) ∧
              SameRegsBut [.ip] s t ∧ t.fsz = s.fsz ∧ t.status = s.status) ∧
    ∀ (b : Byte) (o : Opcode) (k : Nat) (w : Width) (before : List Byte),
      s.status = .running → s.peek (s.reg .ip) = some b → opcodeOfByte s.params.opcodes b = some o →
      (operandWidths (opcodeFormat s.params.shiftLit o))[k]? = some w →
      s.fetchedFrom (s.reg .ip + 1) ((operandWidths (opcodeFormat s.params.shiftLit o)).take k) = some before →
      s.reg .ip + BitVec.ofNat 16 (operandOffset (opcodeFormat s.params.shiftLit o) k) = addr →
      if Config.deviceFails d h (readAccess la w) then
        ∃ t, step s = .next t ∧ t.status = .faulted (.deviceFault ⟨.fetch, addr, w⟩ la) ∧
          ReachesPeripheral d h (readAccess la w) s.begun t ∧ t.reg .ip = addr ∧ SameRegsBut [.ip] s t ∧ t.fsz = s.fsz
      else
        ∀ rest, s.fetchedFrom (addr + BitVec.ofNat 16 w.bytes)
            ((operandWidths (opcodeFormat s.params.shiftLit o)).drop (k + 1)) = some rest →
          ∃ i t, decode s.params (b :: (before ++ (answerBytes d h la w ++ rest))) = .ok (i, []) ∧ step s = exec i t ∧
            ReachesPeripheral d h (readAccess la w) s.begun t ∧
            t.reg .ip = addr + BitVec.ofNat 16 (w.bytes + rest.length) ∧ SameRegsBut [.ip] s t ∧ t.fsz = s.fsz ∧
            t.status = s.status

/-- Accesses reach a peripheral in program order and are never taken back (20_memory.md R67, R71): a step only adds to the
front of what a peripheral has received. -/
def Obligations.PeripheralHistoryOnlyGrows : Prop :=
  ∀ (s t : State) (d : Nat) (h : List Config.DeviceAccess), step s = .next t → s.device d = .peripheral h →
    ∃ new, t.device d = .peripheral (new ++ h)

/-! ### Data movement -/

/-- MOV_LIT_REG and MOV_REG_REG write the destination and nothing else (40_data_movement.md R120, R121). With `rd = ip` this is
the jump the rules describe. -/
def Obligations.MovesIntoRegisters : Prop :=
  ∀ (s : State) (rd : Reg),
    (∀ lit, ∃ t, exec (.movLitReg lit rd) s = .next t ∧ t.reg rd = lit ∧ OnlyRegs [rd] s t) ∧
    (∀ rs, ∃ t, exec (.movRegReg rs rd) s = .next t ∧ t.reg rd = s.reg rs ∧ OnlyRegs [rd] s t)

/-- The three loads read the big-endian word at their address, computed before the destination is written, and write the
destination and nothing else (40_data_movement.md R123, R125, R126: decisions D2, D15). -/
def Obligations.LoadsReadTheWord : Prop :=
  ∀ (s : State) (rd : Reg) (d k : Nat) (hi lo : Byte),
    s.localByte d k = some hi → s.localByte d (k + 1) = some lo →
    (∀ addr, s.wordSlot addr = some (d, k) →
      ∃ t, exec (.movMemReg addr rd) s = .next t ∧ (t.reg rd).toNat = 256 * hi.toNat + lo.toNat ∧ OnlyRegs [rd] s t) ∧
    (∀ rp, s.wordSlot (s.reg rp) = some (d, k) →
      ∃ t, exec (.movRegPtrReg rp rd) s = .next t ∧ (t.reg rd).toNat = 256 * hi.toNat + lo.toNat ∧
        OnlyRegs [rd] s t) ∧
    (∀ base ro, s.wordSlot (BitVec.ofNat 16 (base.toNat + (s.reg ro).toNat)) = some (d, k) →
      ∃ t, exec (.movLitOffReg base ro rd) s = .next t ∧ (t.reg rd).toNat = 256 * hi.toNat + lo.toNat ∧
        OnlyRegs [rd] s t)

/-- The two stores write their word at the absolute address and change no register, no other byte and nothing else
(40_data_movement.md R122, R124: decision D2). -/
def Obligations.StoresWriteTheWord : Prop :=
  ∀ (s : State) (addr : Word) (slot : Nat × Nat), s.wordSlot addr = some slot →
    (∀ rs, ∃ t, exec (.movRegMem rs addr) s = .next t ∧ StoresWord slot (s.reg rs) s t ∧ SameRegsBut [] s t ∧
      t.fsz = s.fsz ∧ t.status = s.status ∧ SameMachine s t) ∧
    (∀ lit, ∃ t, exec (.movLitMem lit addr) s = .next t ∧ StoresWord slot lit s t ∧ SameRegsBut [] s t ∧
      t.fsz = s.fsz ∧ t.status = s.status ∧ SameMachine s t)

/-- A data access of a MOV at an address that no region covers ends the step with UnmappedAddress of that access and changes
nothing else (60_exceptions.md R282; the record is decision D26). -/
def Obligations.UnmappedDataAccessFaults : Prop :=
  ∀ (s : State) (addr : Word), resolve s.regions addr = none →
    (∀ rs, exec (.movRegMem rs addr) s =
      .next { s with status := .faulted (.unmappedAddress ⟨.write, addr, .word⟩) }) ∧
    (∀ lit, exec (.movLitMem lit addr) s =
      .next { s with status := .faulted (.unmappedAddress ⟨.write, addr, .word⟩) }) ∧
    (∀ rd, exec (.movMemReg addr rd) s =
      .next { s with status := .faulted (.unmappedAddress ⟨.read, addr, .word⟩) }) ∧
    (∀ rp rd, s.reg rp = addr → exec (.movRegPtrReg rp rd) s =
      .next { s with status := .faulted (.unmappedAddress ⟨.read, addr, .word⟩) }) ∧
    (∀ base ro rd, base + s.reg ro = addr → exec (.movLitOffReg base ro rd) s =
      .next { s with status := .faulted (.unmappedAddress ⟨.read, addr, .word⟩) })

/-- A data access of a MOV whose second byte lies beyond its memory device ends the step with BoundsViolation and changes
nothing else, the first byte of a store included (60_exceptions.md R283: decisions D16, D26). -/
def Obligations.DataAccessPastTheDeviceFaults : Prop :=
  ∀ (s : State) (addr : Word) (d : Nat) (la : Word) (m : Memory),
    resolve s.regions addr = some (d, la) → s.device d = .memory m → m.size ≤ la.toNat + 1 →
    (∀ rs, exec (.movRegMem rs addr) s =
      .next { s with status := .faulted (.boundsViolation ⟨.write, addr, .word⟩ la) }) ∧
    (∀ lit, exec (.movLitMem lit addr) s =
      .next { s with status := .faulted (.boundsViolation ⟨.write, addr, .word⟩ la) }) ∧
    (∀ rd, exec (.movMemReg addr rd) s =
      .next { s with status := .faulted (.boundsViolation ⟨.read, addr, .word⟩ la) }) ∧
    (∀ rp rd, s.reg rp = addr → exec (.movRegPtrReg rp rd) s =
      .next { s with status := .faulted (.boundsViolation ⟨.read, addr, .word⟩ la) }) ∧
    (∀ base ro rd, base + s.reg ro = addr → exec (.movLitOffReg base ro rd) s =
      .next { s with status := .faulted (.boundsViolation ⟨.read, addr, .word⟩ la) })

/-- A store is seen by the next fetch of the same bytes (20_memory.md R73, 70_reset_and_hazards.md R316): under the default
map, after `MOV_LIT_MEM lit, addr` with `addr` the next instruction's address, the next step fetches the stored bytes. -/
def Obligations.StoredBytesAreFetchedNext : Prop :=
  ∀ (s : State) (lit : Word), FlatMap s → (s.reg .ip).toNat < 0xFFFF →
    ∃ t, exec (.movLitMem lit (s.reg .ip)) s = .next t ∧
      t.codeBytes 2 = some [(lit >>> 8).setWidth 8, lit.setWidth 8]

/-! ### Arithmetic and logic -/

/-- ADD, SUB and MUL put the exact result modulo 2^16 into `acc` and change nothing else; SUB_LIT_REG is register minus
literal, SUB_REG_LIT literal minus register (41_arithmetic.md R150 to R157: operand order D2, the wrap of SUB and MUL D5). -/
def Obligations.ArithmeticIntoAcc : Prop :=
  ∀ (s : State) (lit : Word) (ra rb : Reg),
    (∃ t, exec (.addRegReg ra rb) s = .next t ∧ OnlyRegs [.acc] s t ∧
      (t.reg .acc).toNat = ((s.reg ra).toNat + (s.reg rb).toNat) % 65536) ∧
    (∃ t, exec (.addLitReg lit ra) s = .next t ∧ OnlyRegs [.acc] s t ∧
      (t.reg .acc).toNat = (lit.toNat + (s.reg ra).toNat) % 65536) ∧
    (∃ t, exec (.subLitReg lit ra) s = .next t ∧ OnlyRegs [.acc] s t ∧
      (t.reg .acc).toNat = (65536 + (s.reg ra).toNat - lit.toNat) % 65536) ∧
    (∃ t, exec (.subRegLit ra lit) s = .next t ∧ OnlyRegs [.acc] s t ∧
      (t.reg .acc).toNat = (65536 + lit.toNat - (s.reg ra).toNat) % 65536) ∧
    (∃ t, exec (.subRegReg ra rb) s = .next t ∧ OnlyRegs [.acc] s t ∧
      (t.reg .acc).toNat = (65536 + (s.reg ra).toNat - (s.reg rb).toNat) % 65536) ∧
    (∃ t, exec (.mulLitReg lit ra) s = .next t ∧ OnlyRegs [.acc] s t ∧
      (t.reg .acc).toNat = (lit.toNat * (s.reg ra).toNat) % 65536) ∧
    (∃ t, exec (.mulRegReg ra rb) s = .next t ∧ OnlyRegs [.acc] s t ∧
      (t.reg .acc).toNat = ((s.reg ra).toNat * (s.reg rb).toNat) % 65536)

/-- INC_REG and DEC_REG change the named register by one, modulo 2^16, and nothing else, `acc` included unless it is the named
one (41_arithmetic.md R158, R159). -/
def Obligations.IncrementAndDecrementInPlace : Prop :=
  ∀ (s : State) (r : Reg),
    (∃ t, exec (.incReg r) s = .next t ∧ OnlyRegs [r] s t ∧
      (t.reg r).toNat = ((s.reg r).toNat + 1) % 65536) ∧
    (∃ t, exec (.decReg r) s = .next t ∧ OnlyRegs [r] s t ∧
      (t.reg r).toNat = ((s.reg r).toNat + 65535) % 65536)

/-- A shift by 0 to 15 in place: left modulo 2^16, right with zeros entering at bit 15; the amount is read before the register
is written (42_logic_shift.md R180, R182 to R185: decisions D2, D3, D27, D28). -/
def Obligations.ShiftsBelowSixteen : Prop :=
  ∀ (s : State) (r rn : Reg) (n : Word),
    (n.toNat ≤ 15 →
      (∃ t, exec (.lsfRegLit r n) s = .next t ∧ OnlyRegs [r] s t ∧
        (t.reg r).toNat = ((s.reg r).toNat * 2 ^ n.toNat) % 65536) ∧
      (∃ t, exec (.rsfRegLit r n) s = .next t ∧ OnlyRegs [r] s t ∧
        (t.reg r).toNat = (s.reg r).toNat / 2 ^ n.toNat)) ∧
    ((s.reg rn).toNat ≤ 15 →
      (∃ t, exec (.lsfRegReg r rn) s = .next t ∧ OnlyRegs [r] s t ∧
        (t.reg r).toNat = ((s.reg r).toNat * 2 ^ (s.reg rn).toNat) % 65536) ∧
      (∃ t, exec (.rsfRegReg r rn) s = .next t ∧ OnlyRegs [r] s t ∧
        (t.reg r).toNat = (s.reg r).toNat / 2 ^ (s.reg rn).toNat))

/-- A shift by 16 or more completes: the register gets the open value P_SHIFT_OVERSIZE of direction, value and amount, whatever
it is, and nothing else changes (42_logic_shift.md R180: decision D4, log 6). -/
def Obligations.ShiftsFromSixteenOn : Prop :=
  ∀ (s : State) (r rn : Reg) (n : Word),
    (16 ≤ n.toNat →
      (∃ t, exec (.lsfRegLit r n) s = .next t ∧ OnlyRegs [r] s t ∧
        t.reg r = Config.shiftOversize .left (s.reg r) n) ∧
      (∃ t, exec (.rsfRegLit r n) s = .next t ∧ OnlyRegs [r] s t ∧
        t.reg r = Config.shiftOversize .right (s.reg r) n)) ∧
    (16 ≤ (s.reg rn).toNat →
      (∃ t, exec (.lsfRegReg r rn) s = .next t ∧ OnlyRegs [r] s t ∧
        t.reg r = Config.shiftOversize .left (s.reg r) (s.reg rn)) ∧
      (∃ t, exec (.rsfRegReg r rn) s = .next t ∧ OnlyRegs [r] s t ∧
        t.reg r = Config.shiftOversize .right (s.reg r) (s.reg rn)))

/-- AND, OR and XOR put the bitwise result into `acc` and change nothing else (42_logic_shift.md R186 to R191; the operand order
of the literal forms is D2). -/
def Obligations.BitwiseIntoAcc : Prop :=
  ∀ (s : State) (lit : Word) (ra rb : Reg),
    (∃ t, exec (.andRegLit ra lit) s = .next t ∧ OnlyRegs [.acc] s t ∧
      ∀ k, (t.reg .acc).getLsbD k = ((s.reg ra).getLsbD k && lit.getLsbD k)) ∧
    (∃ t, exec (.andRegReg ra rb) s = .next t ∧ OnlyRegs [.acc] s t ∧
      ∀ k, (t.reg .acc).getLsbD k = ((s.reg ra).getLsbD k && (s.reg rb).getLsbD k)) ∧
    (∃ t, exec (.orRegLit ra lit) s = .next t ∧ OnlyRegs [.acc] s t ∧
      ∀ k, (t.reg .acc).getLsbD k = ((s.reg ra).getLsbD k || lit.getLsbD k)) ∧
    (∃ t, exec (.orRegReg ra rb) s = .next t ∧ OnlyRegs [.acc] s t ∧
      ∀ k, (t.reg .acc).getLsbD k = ((s.reg ra).getLsbD k || (s.reg rb).getLsbD k)) ∧
    (∃ t, exec (.xorRegLit ra lit) s = .next t ∧ OnlyRegs [.acc] s t ∧
      ∀ k, (t.reg .acc).getLsbD k = ((s.reg ra).getLsbD k ^^ lit.getLsbD k)) ∧
    (∃ t, exec (.xorRegReg ra rb) s = .next t ∧ OnlyRegs [.acc] s t ∧
      ∀ k, (t.reg .acc).getLsbD k = ((s.reg ra).getLsbD k ^^ (s.reg rb).getLsbD k))

/-- NOT inverts the named register in place and changes nothing else, `acc` included unless it is the named one
(42_logic_shift.md R192). -/
def Obligations.NotInPlace : Prop :=
  ∀ (s : State) (r : Reg), ∃ t, exec (.notReg r) s = .next t ∧ OnlyRegs [r] s t ∧
    (t.reg r).toNat = 65535 - (s.reg r).toNat

/-! ### Conditional jumps -/

/-- The six jumps that compare a literal: unsigned, the literal on the left of `acc`; taken, `ip` is the target, else it stays at
the next instruction; nothing else changes (43_branch.md R210, R211, R213, R215, R217, R219, R221: decisions D6, D7). -/
def Obligations.LiteralJumps : Prop :=
  ∀ (s : State) (lit addr : Word),
    (∃ t, exec (.jmpNotEq lit addr) s = .next t ∧ OnlyRegs [.ip] s t ∧
      t.reg .ip = if lit.toNat ≠ (s.reg .acc).toNat then addr else s.reg .ip) ∧
    (∃ t, exec (.jeqLit lit addr) s = .next t ∧ OnlyRegs [.ip] s t ∧
      t.reg .ip = if lit.toNat = (s.reg .acc).toNat then addr else s.reg .ip) ∧
    (∃ t, exec (.jltLit lit addr) s = .next t ∧ OnlyRegs [.ip] s t ∧
      t.reg .ip = if lit.toNat < (s.reg .acc).toNat then addr else s.reg .ip) ∧
    (∃ t, exec (.jgtLit lit addr) s = .next t ∧ OnlyRegs [.ip] s t ∧
      t.reg .ip = if lit.toNat > (s.reg .acc).toNat then addr else s.reg .ip) ∧
    (∃ t, exec (.jleLit lit addr) s = .next t ∧ OnlyRegs [.ip] s t ∧
      t.reg .ip = if lit.toNat ≤ (s.reg .acc).toNat then addr else s.reg .ip) ∧
    (∃ t, exec (.jgeLit lit addr) s = .next t ∧ OnlyRegs [.ip] s t ∧
      t.reg .ip = if lit.toNat ≥ (s.reg .acc).toNat then addr else s.reg .ip)

/-- The six jumps that compare a register, `ip` and `acc` included: as the literal ones with the register's value on the left
(43_branch.md R210, R212, R214, R216, R218, R220, R222: decisions D6, D8). -/
def Obligations.RegisterJumps : Prop :=
  ∀ (s : State) (r : Reg) (addr : Word),
    (∃ t, exec (.jneReg r addr) s = .next t ∧ OnlyRegs [.ip] s t ∧
      t.reg .ip = if (s.reg r).toNat ≠ (s.reg .acc).toNat then addr else s.reg .ip) ∧
    (∃ t, exec (.jeqReg r addr) s = .next t ∧ OnlyRegs [.ip] s t ∧
      t.reg .ip = if (s.reg r).toNat = (s.reg .acc).toNat then addr else s.reg .ip) ∧
    (∃ t, exec (.jltReg r addr) s = .next t ∧ OnlyRegs [.ip] s t ∧
      t.reg .ip = if (s.reg r).toNat < (s.reg .acc).toNat then addr else s.reg .ip) ∧
    (∃ t, exec (.jgtReg r addr) s = .next t ∧ OnlyRegs [.ip] s t ∧
      t.reg .ip = if (s.reg r).toNat > (s.reg .acc).toNat then addr else s.reg .ip) ∧
    (∃ t, exec (.jleReg r addr) s = .next t ∧ OnlyRegs [.ip] s t ∧
      t.reg .ip = if (s.reg r).toNat ≤ (s.reg .acc).toNat then addr else s.reg .ip) ∧
    (∃ t, exec (.jgeReg r addr) s = .next t ∧ OnlyRegs [.ip] s t ∧
      t.reg .ip = if (s.reg r).toNat ≥ (s.reg .acc).toNat then addr else s.reg .ip)

/-! ### Stack, call and return -/

/-- PSH_LIT and PSH_REG store the word at the old `sp`, then move `sp` down by 2 and count 2 bytes; the pushed register is read
before the push, `sp` itself included (44_stack_call.md R240, R244, R245: decisions D5, D8, D12). -/
def Obligations.PushStoresAtSp : Prop :=
  ∀ (s : State) (slot : Nat × Nat), s.wordSlot (s.reg .sp) = some slot →
    (∀ lit, ∃ t, exec (.pshLit lit) s = .next t ∧ StoresWord slot lit s t ∧ SameRegsBut [.sp] s t ∧
      t.reg .sp = s.reg .sp - 2 ∧ t.fsz = s.fsz + 2 ∧ t.status = s.status ∧ SameMachine s t) ∧
    (∀ r, ∃ t, exec (.pshReg r) s = .next t ∧ StoresWord slot (s.reg r) s t ∧ SameRegsBut [.sp] s t ∧
      t.reg .sp = s.reg .sp - 2 ∧ t.fsz = s.fsz + 2 ∧ t.status = s.status ∧ SameMachine s t)

/-- A push whose write faults changes neither `sp` nor the counter nor memory: only `status` (44_stack_call.md R240,
60_exceptions.md R287: decisions D12, D17). -/
def Obligations.FailedPushKeepsSp : Prop :=
  ∀ (s : State) (lit : Word) (r : Reg),
    (resolve s.regions (s.reg .sp) = none →
      exec (.pshLit lit) s = .next { s with status := .faulted (.unmappedAddress ⟨.write, s.reg .sp, .word⟩) } ∧
      exec (.pshReg r) s = .next { s with status := .faulted (.unmappedAddress ⟨.write, s.reg .sp, .word⟩) }) ∧
    (∀ d la m, resolve s.regions (s.reg .sp) = some (d, la) → s.device d = .memory m → m.size ≤ la.toNat + 1 →
      exec (.pshLit lit) s = .next { s with status := .faulted (.boundsViolation ⟨.write, s.reg .sp, .word⟩ la) } ∧
      exec (.pshReg r) s = .next { s with status := .faulted (.boundsViolation ⟨.write, s.reg .sp, .word⟩ la) })

/-- POP reads the word at `sp + 2`, wrapped, moves `sp` up by 2 and counts 2 bytes back, then writes the destination, which wins
over the moved `sp` (44_stack_call.md R241, R246). -/
def Obligations.PopReadsAboveSp : Prop :=
  ∀ (s : State) (rd : Reg) (d k : Nat) (hi lo : Byte), s.wordSlot (s.reg .sp + 2) = some (d, k) →
    s.localByte d k = some hi → s.localByte d (k + 1) = some lo →
    ∃ t, exec (.pop rd) s = .next t ∧ (t.reg rd).toNat = 256 * hi.toNat + lo.toNat ∧
      (rd ≠ .sp → t.reg .sp = s.reg .sp + 2) ∧ SameRegsBut [rd, .sp] s t ∧ t.fsz = s.fsz - 2 ∧
      t.status = s.status ∧ SameStore s t ∧ SameMachine s t

/-- A pop whose read faults has already moved `sp` and the counter; what was to be written is not (44_stack_call.md R241, R243,
60_exceptions.md R287, R288: decisions D17, D26, log 18; the counter by P_FRAME_RESTORE, decision D11, log 5; discarded words are
read, decision D24): the pop of POP, whose destination is not written; and pop number `k` of RET, where the pops before it lie in
memory devices: the first failing pop is the one reported, the registers restored before it stay, no other register changes, `fp`
among them. -/
def Obligations.FailedPopHasMovedSp : Prop :=
  (∀ (s : State) (rd : Reg) (cause : FaultCause), ReadFaults s (s.reg .sp + 2) cause →
    ∃ t, exec (.pop rd) s = .next t ∧ t.status = .faulted cause ∧
      t.reg .sp = s.reg .sp + 2 ∧ t.fsz = s.fsz - 2 ∧ SameRegsBut [.sp] s t ∧ SameStore s t ∧ SameMachine s t) ∧
  ∀ (s : State) (slot : Nat → Nat × Nat) (k : Nat) (cause : FaultCause),
    (∀ j, j < k → s.wordSlot (s.reg .fp + BitVec.ofNat 16 (2 * (j + 1))) = some (slot j)) →
    (10 < k → k < 11 + (s.slotWord (slot 10)).toNat) →
    ReadFaults s (s.reg .fp + BitVec.ofNat 16 (2 * (k + 1))) cause →
    ∃ t, exec .ret s = .next t ∧ t.status = .faulted cause ∧
      t.reg .sp = s.reg .fp + BitVec.ofNat 16 (2 * (k + 1)) ∧
      t.fsz = (if k = 0 then s.fsz - 2
        else restoredFsz s.params.frameRestore (s.slotWord (slot 0)) - BitVec.ofNat 16 (2 * k)) ∧
      t.reg .ip = (if 1 < k then s.slotWord (slot 1) else s.reg .ip) ∧
      (∀ (j : Nat) (r : Reg), Reg.general.reverse[j]? = some r →
        t.reg r = if j + 2 < k then s.slotWord (slot (j + 2)) else s.reg r) ∧
      t.reg .fp = s.reg .fp ∧ t.reg .acc = s.reg .acc ∧ SameStore s t ∧ SameMachine s t

/-- The stack law (44_stack_call.md R254): a push, then a pop from any state with the same `sp` and counter in which the slot still
holds the word, returns the word and restores `sp` and the counter; and two words pushed onto slots that share no byte come back
last in, first out. -/
def Obligations.PushThenPopReturnsTheWord : Prop :=
  ∀ (s : State) (v : Word) (slot : Nat × Nat), s.wordSlot (s.reg .sp) = some slot →
    (∃ t, exec (.pshLit v) s = .next t ∧ t.wordSlot (s.reg .sp) = some slot ∧ t.slotWord slot = v ∧
      ∀ (u : State) (rd : Reg), u.wordSlot (s.reg .sp) = some slot → u.slotWord slot = v →
        u.reg .sp = t.reg .sp → u.fsz = t.fsz →
        ∃ w, exec (.pop rd) u = .next w ∧ w.reg rd = v ∧ (rd ≠ .sp → w.reg .sp = s.reg .sp) ∧
          SameRegsBut [rd, .sp] u w ∧ w.fsz = s.fsz) ∧
    ∀ (second : Word) (slot2 : Nat × Nat) (ra rb : Reg), s.wordSlot (s.reg .sp - 2) = some slot2 →
      (slot.1 ≠ slot2.1 ∨ slot.2 + 1 < slot2.2 ∨ slot2.2 + 1 < slot.2) → ra ≠ rb → ra ≠ .sp → rb ≠ .sp →
      ∃ t1 t2 t3 t4, exec (.pshLit v) s = .next t1 ∧ exec (.pshLit second) t1 = .next t2 ∧
        exec (.pop ra) t2 = .next t3 ∧ exec (.pop rb) t3 = .next t4 ∧
        t4.reg ra = second ∧ t4.reg rb = v ∧ t4.reg .sp = s.reg .sp ∧ t4.fsz = s.fsz ∧ SameRegsBut [ra, rb] s t4

/-- CALL_LIT and CALL_REG complete when their ten pushes lie in memory devices: `ip` is the target read before the call, `sp` and
`fp` are 20 below the old `sp`, the counter is 0, no other register, no byte outside the ten words and no peripheral changes, and
each of the ten words (`r1` to `r8`, the return address, the counter plus 20) stands in its slot unless a later one overlaps it
(44_stack_call.md R242, R247, R248: decisions D9, D10, D12). -/
def Obligations.CallsEnterTheNewFrame : Prop :=
  ∀ (s : State) (target : Word), (∀ k, k < 10 → (s.wordSlot (s.reg .sp - BitVec.ofNat 16 (2 * k))).isSome) →
    (∃ t, exec (.callLit target) s = .next t ∧ t.reg .ip = target ∧ t.reg .sp = s.reg .sp - 20 ∧
      t.reg .fp = s.reg .sp - 20 ∧ t.fsz = 0 ∧ SameRegsBut [.ip, .sp, .fp] s t ∧ t.status = s.status ∧
      SameMachine s t ∧ OnlyPushedBytes 10 s t ∧ HoldsPushedWords 10 (frameWords s) s t) ∧
    (∀ r, ∃ t, exec (.callReg r) s = .next t ∧ t.reg .ip = s.reg r ∧ t.reg .sp = s.reg .sp - 20 ∧
      t.reg .fp = s.reg .sp - 20 ∧ t.fsz = 0 ∧ SameRegsBut [.ip, .sp, .fp] s t ∧ t.status = s.status ∧
      SameMachine s t ∧ OnlyPushedBytes 10 s t ∧ HoldsPushedWords 10 (frameWords s) s t)

/-- The frame a call leaves, under the default map (44_stack_call.md R251, derived there from R240 and R242): with `F` the new
`fp`, the saved frame size at `F + 2` (the counter plus 20), the return address at `F + 4`, `r8` at `F + 6` up to `r1` at
`F + 20`; every byte outside those ten words reads as before. -/
def Obligations.CallLeavesTheFrame : Prop :=
  ∀ (s t : State) (i : Instr), FlatMap s → (∀ k, k < 10 → s.reg .sp - BitVec.ofNat 16 (2 * k) ≠ 0xFFFF) →
    ((∃ addr, i = .callLit addr) ∨ ∃ r, i = .callReg r) → exec i s = .next t →
    FlatMap t ∧
    t.flatWord (t.reg .fp + 2) = s.fsz + 20 ∧
    t.flatWord (t.reg .fp + 4) = s.reg .ip ∧
    (∀ (j : Nat) (r : Reg), Reg.general[j]? = some r →
      t.flatWord (t.reg .fp + BitVec.ofNat 16 (20 - 2 * j)) = s.reg r) ∧
    ∀ a : Word, (∀ k, k < 20 → a ≠ t.reg .fp + 2 + BitVec.ofNat 16 k) → t.peek a = s.peek a

/-- The first push that fails ends a call, CALL_LIT or CALL_REG, under any map: where the pushes before number `k` lie in memory
devices and push `k` meets an unmapped address or the end of a memory device, the words already pushed stay (the registers from
`r1` on, then the return address), every other byte and every peripheral is as before, `sp` and the counter stand where the earlier
pushes left them, and no other register changes, `ip` and `fp` among them (60_exceptions.md R282, R283, R287, R288: decision D17,
log 18; the order of the pushes is decision D10, the record decision D26). -/
def Obligations.CallStopsAtItsFirstFailingPush : Prop :=
  ∀ (s : State) (i : Instr) (k : Nat) (cause : FaultCause), ((∃ addr, i = .callLit addr) ∨ ∃ r, i = .callReg r) →
    k < 10 → (∀ j, j < k → (s.wordSlot (s.reg .sp - BitVec.ofNat 16 (2 * j))).isSome) →
    WriteFaults s (s.reg .sp - BitVec.ofNat 16 (2 * k)) cause →
    ∃ t, exec i s = .next t ∧ t.status = .faulted cause ∧
      t.reg .sp = s.reg .sp - BitVec.ofNat 16 (2 * k) ∧ t.fsz = s.fsz + BitVec.ofNat 16 (2 * k) ∧
      SameRegsBut [.sp] s t ∧ SameMachine s t ∧ HoldsPushedWords k (frameWords s) s t ∧ OnlyPushedBytes k s t

/-- RET completes when its pops lie in memory devices, and restores what CALL saves, from `fp` up (44_stack_call.md R243, R249:
decisions D11, D12, D24): the frame size, the return address, `r8` to `r1`, the argument count `n` with `n` words discarded;
`fp` moves up by the saved size; `acc`, memory and the run state are unchanged. -/
def Obligations.ReturnRestoresTheFrame : Prop :=
  ∀ (s : State) (slot : Nat → Nat × Nat) (n : Nat), n = (s.slotWord (slot 10)).toNat →
    (∀ j, j < 11 + n → s.wordSlot (s.reg .fp + BitVec.ofNat 16 (2 * (j + 1))) = some (slot j)) →
    ∃ t, exec .ret s = .next t ∧
      t.reg .ip = s.slotWord (slot 1) ∧ t.reg .r8 = s.slotWord (slot 2) ∧ t.reg .r7 = s.slotWord (slot 3) ∧
      t.reg .r6 = s.slotWord (slot 4) ∧ t.reg .r5 = s.slotWord (slot 5) ∧ t.reg .r4 = s.slotWord (slot 6) ∧
      t.reg .r3 = s.slotWord (slot 7) ∧ t.reg .r2 = s.slotWord (slot 8) ∧ t.reg .r1 = s.slotWord (slot 9) ∧
      t.reg .sp = s.reg .fp + BitVec.ofNat 16 (22 + 2 * n) ∧
      t.reg .fp = s.reg .fp + s.slotWord (slot 0) ∧ t.reg .acc = s.reg .acc ∧
      t.fsz = restoredFsz s.params.frameRestore (s.slotWord (slot 0)) - BitVec.ofNat 16 (20 + 2 * n) ∧
      t.status = s.status ∧ SameStore s t ∧ SameMachine s t

/-- A return from a call, CALL_LIT or CALL_REG (44_stack_call.md R252, R253, derived there from R240 to R243; P_FRAME_RESTORE is
decision D11, log 5): if the callee leaves `fp` and the frame words alone, whatever else it did, RET brings back the return address,
`r1` to `r8`, the caller's `sp` above the count and the arguments, `fp` as the rule computes it, and the counter as P_FRAME_RESTORE
says. -/
def Obligations.CallThenReturnRestoresTheCaller : Prop :=
  ∀ (s t u : State) (i : Instr) (n : Nat), FlatMap s →
    (∀ k, k < 10 → s.reg .sp - BitVec.ofNat 16 (2 * k) ≠ 0xFFFF) →
    ((∃ addr, i = .callLit addr) ∨ ∃ r, i = .callReg r) → exec i s = .next t →
    FlatMap u → u.params = s.params → u.reg .fp = t.reg .fp →
    (∀ k, 1 ≤ k → k ≤ 10 → u.flatWord (t.reg .fp + BitVec.ofNat 16 (2 * k)) =
      t.flatWord (t.reg .fp + BitVec.ofNat 16 (2 * k))) →
    n = (u.flatWord (s.reg .sp + 2)).toNat →
    (∀ k, k ≤ n → s.reg .sp + BitVec.ofNat 16 (2 * (k + 1)) ≠ 0xFFFF) →
    ∃ v, exec .ret u = .next v ∧ v.reg .ip = s.reg .ip ∧ (∀ r ∈ Reg.general, v.reg r = s.reg r) ∧
      v.reg .sp = s.reg .sp + BitVec.ofNat 16 (2 + 2 * n) ∧ v.reg .fp = s.reg .sp + s.fsz ∧
      v.reg .acc = u.reg .acc ∧
      v.fsz = match s.params.frameRestore with
        | .literal => s.fsz - BitVec.ofNat 16 (2 * n)
        | .balanced => s.fsz - BitVec.ofNat 16 (2 + 2 * n)

/-- `acc` is neither saved nor restored by a call or a return, a faulting one included (44_stack_call.md R242, R249). -/
def Obligations.CallsAndReturnsKeepAcc : Prop :=
  ∀ (s t : State) (i : Instr), ((∃ addr, i = .callLit addr) ∨ (∃ r, i = .callReg r) ∨ i = .ret) →
    exec i s = .next t → t.reg .acc = s.reg .acc

/-! ### Control and the whole machine -/

/-- HLT ends the run normally and changes nothing but `status`; as a step, which tells the host that the machine should stop, it
leaves `ip` at the address after its byte (45_control.md R270). -/
def Obligations.HaltStopsTheRun : Prop :=
  (∀ s : State, ∃ t, exec .hlt s = .next t ∧ t.status = .halted .normal ∧ SameRegsBut [] s t ∧ t.fsz = s.fsz ∧
    SameStore s t ∧ SameMachine s t) ∧
  ∀ (s : State) (b : Byte), s.status = .running → s.codeBytes 1 = some [b] →
    opcodeOfByte s.params.opcodes b = some .hlt →
    ∃ t, hostStep s = some (true, t) ∧ t.status = .halted .normal ∧ t.reg .ip = s.reg .ip + 1 ∧
      SameRegsBut [.ip] s t ∧ t.fsz = s.fsz ∧ SameStore s t

/-- HLT is the only instruction that halts (45_control.md R274): an instruction whose meaning leaves a running machine halted is
HLT, and the halt is Normal. -/
def Obligations.OnlyHltHalts : Prop :=
  ∀ (s t : State) (i : Instr) (why : HaltReason), s.status = .running → exec i s = .next t →
    t.status = .halted why → i = .hlt ∧ why = .normal

/-- The frame-byte counter is written by no instruction but the stack and call instructions (10_state.md R33), a faulting one
included. -/
def Obligations.OnlyStackInstructionsCount : Prop :=
  ∀ (s t : State) (i : Instr), exec i s = .next t →
    i.opcode ∉ [Opcode.pshLit, .pshReg, .pop, .callLit, .callReg, .ret] → t.fsz = s.fsz

/-- A run takes steps while `status` is Running, each of them one whole transition to a next state, and ends exactly when it leaves
Running (45_control.md R273, R275, 70_reset_and_hazards.md R318; `run` is bounded by fuel, log 17): with one more step of fuel, a
running machine first takes its step; a run that has spent its fuel and not ended has taken every one of its steps. An ended
machine stays as it is, by the spec's decisions D17 and D18 (logs 2, 18), and no run ends both normally and abnormally. -/
def Obligations.RunStopsAtTheEnd : Prop :=
  (∀ s : State, s.status = .running → ∃ t, step s = .next t ∧ ∀ fuel, run (fuel + 1) s = run fuel t) ∧
  (∀ s : State, run 0 s = s) ∧
  (∀ (s : State) (fuel : Nat), s.ended → run fuel s = s) ∧
  (∀ (s : State) (fuel : Nat), ¬ (run fuel s).ended → step (run fuel s) = .next (run (fuel + 1) s)) ∧
  (∀ (s : State) (fuel more : Nat), (run fuel s).ended → run (fuel + more) s = run fuel s) ∧
  ∀ s : State, ¬ (EndsNormally s ∧ EndsAbnormally s)

/-- No step changes the region list, a launch parameter, the number of devices, which of them are memories, or a memory's size
(10_state.md R35, R36: decision D21). -/
def Obligations.StepKeepsTheMakeUp : Prop :=
  ∀ s t : State, step s = .next t → SameMakeUp s t

/-- The invariant of the machine holds after every step from every state in which it holds (the canonical form of memory is the
model's own, log 7). -/
def Obligations.StepKeepsTheInvariant : Prop :=
  ∀ s t : State, s.Inv → step s = .next t → t.Inv

/-- The invariant holds at reset. -/
def Obligations.ResetSatisfiesTheInvariant : Prop := State.reset.Inv
end

