-- ==== Sys2Proof/Laws/Memory.lean ====
section
/-! SUPPORT. The memory device: reading after a write, and the canonical form that every write keeps. -/

namespace Sys2Proof

/-! ### Byte order -/

theorem toNat_beWord (hi lo : Byte) : (beWord hi lo).toNat = hi.toNat * 256 + lo.toNat := by
  simp only [beWord, BitVec.toNat_append]
  rw [← Nat.shiftLeft_add_eq_or_of_lt lo.isLt, Nat.shiftLeft_eq]

theorem toNat_hiByte (v : Word) : (hiByte v).toNat = v.toNat / 256 := by
  have := v.isLt
  simp only [hiByte, BitVec.extractLsb'_toNat, Nat.shiftRight_eq_div_pow]
  omega

theorem toNat_loByte (v : Word) : (loByte v).toNat = v.toNat % 256 := by
  simp [loByte, BitVec.extractLsb'_toNat]

@[simp] theorem beWord_hi_lo (v : Word) : beWord (hiByte v) (loByte v) = v := by
  apply BitVec.eq_of_toNat_eq
  rw [toNat_beWord, toNat_hiByte, toNat_loByte]
  omega

@[simp] theorem hiByte_beWord (hi lo : Byte) : hiByte (beWord hi lo) = hi := by
  apply BitVec.eq_of_toNat_eq
  have := lo.isLt
  rw [toNat_hiByte, toNat_beWord]
  omega

@[simp] theorem loByte_beWord (hi lo : Byte) : loByte (beWord hi lo) = lo := by
  apply BitVec.eq_of_toNat_eq
  have := lo.isLt
  rw [toNat_loByte, toNat_beWord]
  omega

theorem hiByte_eq_shift (v : Word) : hiByte v = (v >>> 8).setWidth 8 := by
  apply BitVec.eq_of_toNat_eq
  have := v.isLt
  rw [toNat_hiByte]
  simp [BitVec.toNat_setWidth, BitVec.toNat_ushiftRight, Nat.shiftRight_eq_div_pow]
  omega

theorem loByte_eq_setWidth (v : Word) : loByte v = v.setWidth 8 := by
  apply BitVec.eq_of_toNat_eq
  rw [toNat_loByte]
  simp

end Sys2Proof

namespace Sys2Proof.Machine

/-! ### The list of written bytes -/

/-- Reading the list after a byte is put into it. -/
theorem cellAt_putCell (a k : Nat) (b : Byte) (l : List Host.Cell) :
    cellAt k (putCell a b l) = if k = a then some b else cellAt k l := by
  induction l with
  | nil => simp [putCell, cellAt, eq_comm]
  | cons c rest ih =>
    rcases c with ⟨a', b'⟩
    by_cases h : k = a
    · subst h
      rcases Nat.lt_trichotomy k a' with h1 | h1 | h1
      · simp [putCell, cellAt, h1]
      · simp [putCell, cellAt, h1]
      · simp [putCell, cellAt, ih, Nat.not_lt.mpr h1.le, h1.ne, h1.ne']
    · rcases Nat.lt_trichotomy a a' with h1 | h1 | h1
      · simp [putCell, cellAt, h1, h, Ne.symm h]
      · subst h1
        simp [putCell, cellAt, h, Ne.symm h]
      · simp [putCell, cellAt, ih, h, Nat.not_lt.mpr h1.le, h1.ne']

/-- Putting a byte keeps the canonical form. -/
theorem cellsRise_putCell {size lo a : Nat} {l : List Host.Cell} (b : Byte)
    (h : cellsRise size lo l = true) (hlo : lo ≤ a) (ha : a < size) :
    cellsRise size lo (putCell a b l) = true := by
  induction l generalizing lo with
  | nil => simp [putCell, cellsRise, hlo, ha]
  | cons c rest ih =>
    simp only [cellsRise, Bool.and_eq_true, decide_eq_true_eq] at h
    obtain ⟨⟨h1, h2⟩, h3⟩ := h
    simp only [putCell]
    split
    next hlt => simp [cellsRise, hlo, ha, h2, h3, Nat.succ_le_of_lt hlt]
    next hge =>
      split
      next heq =>
        subst heq
        simp [cellsRise, h1, ha, h3]
      next hne =>
        simp only [cellsRise, Bool.and_eq_true, decide_eq_true_eq]
        exact ⟨⟨h1, h2⟩, ih h3 (by omega)⟩

/-! ### The device -/

@[simp] theorem putByte_size (m : Memory) (a : Nat) (b : Byte) : (m.putByte a b).size = m.size := rfl
@[simp] theorem putWord_size (m : Memory) (a : Nat) (v : Word) : (m.putWord a v).size = m.size := rfl

/-- Reading a byte after one is written. -/
theorem byteAt_putByte (m : Memory) (d a k : Nat) (b : Byte) :
    (m.putByte a b).byteAt d k = if k = a then b else m.byteAt d k := by
  simp only [Memory.byteAt, Memory.putByte, cellAt_putCell]
  split <;> rfl

/-- Reading a byte after a word is written: `v >> 8` first, then `v & 0xFF` (20_memory.md R53). -/
theorem byteAt_putWord (m : Memory) (d a k : Nat) (v : Word) :
    (m.putWord a v).byteAt d k = if k = a + 1 then loByte v else if k = a then hiByte v else m.byteAt d k := by
  simp only [Memory.putWord, byteAt_putByte]

/-- Reading the word that was written (20_memory.md R54). -/
@[simp] theorem wordAt_putWord_same (m : Memory) (d a : Nat) (v : Word) : (m.putWord a v).wordAt d a = v := by
  simp [Memory.wordAt, byteAt_putWord]

/-- Reading a word that shares no byte with the one written. -/
theorem wordAt_putWord_apart (m : Memory) (d a k : Nat) (v : Word) (h : k + 1 < a ∨ a + 1 < k) :
    (m.putWord a v).wordAt d k = m.wordAt d k := by
  have h1 : k ≠ a := by omega
  have h2 : k ≠ a + 1 := by omega
  have h3 : k + 1 ≠ a := by omega
  have h4 : k + 1 ≠ a + 1 := by omega
  simp [Memory.wordAt, byteAt_putWord, h1, h2, h3]

/-- Reading a byte after consecutive bytes are written from `a` on (20_memory.md R55). -/
theorem byteAt_putBytes (d : Nat) (bs : List Byte) (m : Memory) (a k : Nat) :
    (m.putBytes a bs).byteAt d k = if a ≤ k then (bs[k - a]?).getD (m.byteAt d k) else m.byteAt d k := by
  induction bs generalizing m a with
  | nil => simp [Memory.putBytes]
  | cons b bs ih =>
    rw [Memory.putBytes, ih, byteAt_putByte]
    by_cases h1 : k = a
    · subst h1; simp
    · by_cases h2 : a + 1 ≤ k
      · have h3 : a ≤ k := by omega
        have h4 : k - a = (k - (a + 1)) + 1 := by omega
        simp [h1, h2, h3, h4]
      · have h3 : ¬ a ≤ k := by omega
        simp [h1, h2, h3]

/-- A byte written in range keeps the canonical form. -/
theorem wf_putByte {m : Memory} {a : Nat} (b : Byte) (h : m.wf = true) (ha : a < m.size) :
    (m.putByte a b).wf = true := cellsRise_putCell b h (Nat.zero_le a) ha

/-- A word written in range keeps the canonical form. -/
theorem wf_putWord {m : Memory} {a : Nat} (v : Word) (h : m.wf = true) (ha : a + 1 < m.size) :
    (m.putWord a v).wf = true :=
  wf_putByte (m := m.putByte a (hiByte v)) (loByte v) (wf_putByte (hiByte v) h (by omega)) ha

/-- Bytes written through the raw view in range keep the canonical form and the size. -/
theorem wf_putBytes (bs : List Byte) {m : Memory} {a : Nat} (h : m.wf = true) (ha : a + bs.length ≤ m.size) :
    (m.putBytes a bs).wf = true ∧ (m.putBytes a bs).size = m.size := by
  induction bs generalizing m a with
  | nil => exact ⟨h, rfl⟩
  | cons b bs ih =>
    have hlen : a + (bs.length + 1) ≤ m.size := by simpa using ha
    exact ih (m := m.putByte a b) (a := a + 1) (wf_putByte b h (by omega)) (by simp; omega)

end Sys2Proof.Machine
end

