-- ==== Sys2Proof/Laws/Decode.lean ====
section
/-! SUPPORT. The decoder's readers: what each gives on the bytes the encoder writes, and how many bytes each takes. -/

namespace Sys2Proof

/-! ### Single operands -/

theorem regOfByte_regByte (r : Reg) : regOfByte (regByte r) = r := by cases r <;> rfl

theorem reader_bind {α β : Type} (x : ByteReader α) (f : α → ByteReader β) (bs : List Byte) :
    (x >>= f) bs = match x bs with
      | .ok a t => f a t
      | .error e t => .error e t := by
  show EStateM.bind x f bs = _
  unfold EStateM.bind
  cases x bs <;> rfl

theorem reader_pure {α : Type} (a : α) (bs : List Byte) : (pure a : ByteReader α) bs = .ok a bs := rfl

/-- A byte written for a register reads back as it (30_encoding.md R92). -/
theorem nextReg_regByte (r : Reg) (rest : List Byte) : nextReg ([regByte r] ++ rest) = .ok r rest := by
  show EStateM.Result.ok (regOfByte (regByte r)) rest = _
  rw [regOfByte_regByte]

/-- Two bytes written for a word read back as it (30_encoding.md R93). -/
theorem nextWord_wordBytes (v : Word) (rest : List Byte) : nextWord (wordBytes v ++ rest) = .ok v rest := by
  show EStateM.Result.ok (beWord (hiByte v) (loByte v)) rest = _
  rw [beWord_hi_lo]

/-- A shift literal that fits its width reads back (42_logic_shift.md R181). -/
theorem nextShiftLit_shiftLitBytes {w : Config.ShiftLitWidth} {n : Word} (h : shiftLitFits w n = true)
    (rest : List Byte) : nextShiftLit w (shiftLitBytes w n ++ rest) = .ok n rest := by
  cases w with
  | bits16 => exact nextWord_wordBytes n rest
  | bits8 =>
    have hlt : n.toNat < 256 := by simpa [shiftLitFits] using h
    show EStateM.Result.ok (zext (loByte n)) rest = _
    congr 1
    apply BitVec.eq_of_toNat_eq
    simp [zext, toNat_loByte]
    omega

/-! ### The opcode map -/

theorem opcode_mem_all (o : Opcode) : o ∈ Opcode.all := by cases o <;> decide

/-- In a table without a byte twice, a row's byte stands for the row's mnemonic. -/
theorem opcodeOfByte_of_mem {t : Config.OpcodeTable} (hn : (t.map Prod.fst).Nodup) {b : Byte} {o : Opcode}
    (h : (b, o) ∈ t) : opcodeOfByte t b = some o := by
  induction t with
  | nil => cases h
  | cons row rest ih =>
    rw [List.map_cons, List.nodup_cons] at hn
    rcases List.mem_cons.mp h with rfl | h
    · simp [opcodeOfByte]
    · have hne : row.1 ≠ b := fun e => hn.1 (e ▸ List.mem_map_of_mem h)
      have := ih hn.2 h
      simpa [opcodeOfByte, List.find?_cons, hne] using this

/-- The byte of a mnemonic stands for it, in every admitted table (30_encoding.md R97). -/
theorem opcodeOfByte_byteOfOpcode {t : Config.OpcodeTable} (h : OpcodesInjective t) (o : Opcode) :
    opcodeOfByte t (byteOfOpcode t o) = some o := by
  obtain ⟨hn, _, hall⟩ := h
  obtain ⟨row, hrow, ho⟩ := List.mem_map.mp (hall o (opcode_mem_all o))
  cases hf : t.find? (fun r => r.2 == o) with
  | none =>
    rw [List.find?_eq_none] at hf
    exact absurd (by simpa using ho) (hf row hrow)
  | some found =>
    have hmem := List.mem_of_find?_eq_some hf
    have heq : found.2 = o := by simpa using List.find?_some hf
    have : (byteOfOpcode t o, o) ∈ t := by
      simp only [byteOfOpcode, hf, Option.map_some, Option.getD_some]
      rw [← heq]; exact hmem
    exact opcodeOfByte_of_mem hn this

/-! ### How many bytes a reader takes -/

/-- A reader takes exactly `n` bytes, whatever follows them, gives only values with `P`, and fails only on a list that is
too short. -/
structure Exactly {α : Type} (n : Nat) (P : α → Prop) (x : ByteReader α) : Prop where
  takes : ∀ bs a rest, x bs = .ok a rest → P a ∧ ∃ taken, bs = taken ++ rest ∧ taken.length = n ∧
    ∀ other, x (taken ++ other) = .ok a other
  fails : ∀ bs e rest, x bs = .error e rest → e = .truncated ∧ bs.length < n

theorem exactly_pure {α : Type} {P : α → Prop} {a : α} (h : P a) : Exactly 0 P (pure a) where
  takes := by
    intro bs b rest hx
    cases hx
    exact ⟨h, [], rfl, rfl, fun _ => rfl⟩
  fails := by intro bs e rest hx; cases hx

theorem Exactly.bind {α β : Type} {n m : Nat} {P : α → Prop} {Q : β → Prop} {x : ByteReader α} {f : α → ByteReader β}
    (hx : Exactly n P x) (hf : ∀ a, P a → Exactly m Q (f a)) : Exactly (n + m) Q (x >>= f) where
  takes := by
    intro bs b rest h
    rw [reader_bind] at h
    cases hxs : x bs with
    | error e t => rw [hxs] at h; cases h
    | ok a mid =>
      rw [hxs] at h
      obtain ⟨hP, t1, rfl, hl1, ho1⟩ := hx.takes bs a mid hxs
      obtain ⟨hQ, t2, rfl, hl2, ho2⟩ := (hf a hP).takes mid b rest h
      refine ⟨hQ, t1 ++ t2, by simp, by simp [hl1, hl2], fun other => ?_⟩
      rw [reader_bind, List.append_assoc, ho1]
      exact ho2 other
  fails := by
    intro bs e rest h
    rw [reader_bind] at h
    cases hxs : x bs with
    | error e' t =>
      rw [hxs] at h
      cases h
      obtain ⟨h1, h2⟩ := hx.fails bs e rest hxs
      exact ⟨h1, by omega⟩
    | ok a mid =>
      rw [hxs] at h
      obtain ⟨hP, t1, rfl, hl1, _⟩ := hx.takes bs a mid hxs
      obtain ⟨h1, h2⟩ := (hf a hP).fails mid e rest h
      exact ⟨h1, by simp; omega⟩

theorem exactly_nextByte : Exactly 1 (fun _ => True) nextByte where
  takes := by
    intro bs b rest h
    cases bs with
    | nil => cases h
    | cons c cs => cases h; exact ⟨trivial, [b], rfl, rfl, fun _ => rfl⟩
  fails := by
    intro bs e rest h
    cases bs with
    | nil => cases h; exact ⟨rfl, Nat.zero_lt_one⟩
    | cons c cs => cases h

theorem exactly_nextReg : Exactly 1 (fun _ => True) nextReg :=
  exactly_nextByte.bind fun _ _ => exactly_pure trivial

theorem exactly_nextWord : Exactly 2 (fun _ => True) nextWord :=
  exactly_nextByte.bind fun _ _ => exactly_nextByte.bind fun _ _ => exactly_pure trivial

/-- How many bytes a shift literal has. -/
def shiftLitLength : Config.ShiftLitWidth → Nat
  | .bits16 => 2
  | .bits8 => 1

theorem exactly_nextShiftLit (w : Config.ShiftLitWidth) :
    Exactly (shiftLitLength w) (fun n => shiftLitFits w n = true) (nextShiftLit w) := by
  cases w with
  | bits16 =>
    exact exactly_nextByte.bind fun _ _ => exactly_nextByte.bind fun _ _ =>
      exactly_pure (P := fun n => shiftLitFits .bits16 n = true) rfl
  | bits8 =>
    refine exactly_nextByte.bind (m := 0) fun b _ => exactly_pure ?_
    have := b.isLt
    simp [shiftLitFits, zext]
    omega

/-- The operands of a mnemonic take what its format says (30_encoding.md R95, R96) and make a well-formed instruction of
that mnemonic. -/
theorem exactly_operands (w : Config.ShiftLitWidth) (o : Opcode) :
    Exactly (formatLength (opcodeFormat w o) - 1) (fun i => i.opcode = o ∧ i.wellFormed w = true)
      (readOperands nextReg nextWord (nextShiftLit w) o) := by
  have hr := exactly_nextReg
  have hw := exactly_nextWord
  have hs := exactly_nextShiftLit w
  cases w <;> cases o <;>
    first
    | exact exactly_pure ⟨rfl, rfl⟩
    | exact hr.bind fun _ _ => exactly_pure ⟨rfl, rfl⟩
    | exact hw.bind fun _ _ => exactly_pure ⟨rfl, rfl⟩
    | exact hr.bind fun _ _ => hr.bind fun _ _ => exactly_pure ⟨rfl, rfl⟩
    | exact hr.bind fun _ _ => hw.bind fun _ _ => exactly_pure ⟨rfl, rfl⟩
    | exact hr.bind fun _ _ => hs.bind fun _ h => exactly_pure ⟨rfl, h⟩
    | exact hw.bind fun _ _ => hr.bind fun _ _ => exactly_pure ⟨rfl, rfl⟩
    | exact hw.bind fun _ _ => hw.bind fun _ _ => exactly_pure ⟨rfl, rfl⟩
    | exact hw.bind fun _ _ => hr.bind fun _ _ => hr.bind fun _ _ => exactly_pure ⟨rfl, rfl⟩

end Sys2Proof
end

