-- ==== Sys2Proof/Laws/State.lean ====
section
/-! SUPPORT. One lemma per field per update of State, true by `rfl`, and the laws of registers and devices under the
updates, so that no proof unfolds a record update. -/

namespace Sys2Proof.Machine

/-! ### Fields after an update -/

@[simp] theorem withReg_regs (s : State) (r : Reg) (v : Word) : (s.withReg r v).regs = s.regs.set r v := rfl
@[simp] theorem withReg_fsz (s : State) (r : Reg) (v : Word) : (s.withReg r v).fsz = s.fsz := rfl
@[simp] theorem withReg_status (s : State) (r : Reg) (v : Word) : (s.withReg r v).status = s.status := rfl
@[simp] theorem withReg_regions (s : State) (r : Reg) (v : Word) : (s.withReg r v).regions = s.regions := rfl
@[simp] theorem withReg_devices (s : State) (r : Reg) (v : Word) : (s.withReg r v).devices = s.devices := rfl
@[simp] theorem withReg_nextToken (s : State) (r : Reg) (v : Word) : (s.withReg r v).nextToken = s.nextToken := rfl
@[simp] theorem withReg_started (s : State) (r : Reg) (v : Word) : (s.withReg r v).started = s.started := rfl
@[simp] theorem withReg_params (s : State) (r : Reg) (v : Word) : (s.withReg r v).params = s.params := rfl

@[simp] theorem withFsz_regs (s : State) (v : Word) : (s.withFsz v).regs = s.regs := rfl
@[simp] theorem withFsz_fsz (s : State) (v : Word) : (s.withFsz v).fsz = v := rfl
@[simp] theorem withFsz_status (s : State) (v : Word) : (s.withFsz v).status = s.status := rfl
@[simp] theorem withFsz_regions (s : State) (v : Word) : (s.withFsz v).regions = s.regions := rfl
@[simp] theorem withFsz_devices (s : State) (v : Word) : (s.withFsz v).devices = s.devices := rfl
@[simp] theorem withFsz_nextToken (s : State) (v : Word) : (s.withFsz v).nextToken = s.nextToken := rfl
@[simp] theorem withFsz_started (s : State) (v : Word) : (s.withFsz v).started = s.started := rfl
@[simp] theorem withFsz_params (s : State) (v : Word) : (s.withFsz v).params = s.params := rfl

@[simp] theorem withDevice_regs (s : State) (d : Nat) (dev : Device) : (s.withDevice d dev).regs = s.regs := rfl
@[simp] theorem withDevice_fsz (s : State) (d : Nat) (dev : Device) : (s.withDevice d dev).fsz = s.fsz := rfl
@[simp] theorem withDevice_status (s : State) (d : Nat) (dev : Device) : (s.withDevice d dev).status = s.status := rfl
@[simp] theorem withDevice_regions (s : State) (d : Nat) (dev : Device) : (s.withDevice d dev).regions = s.regions := rfl
@[simp] theorem withDevice_devices (s : State) (d : Nat) (dev : Device) : (s.withDevice d dev).devices = s.devices.set d dev := rfl
@[simp] theorem withDevice_nextToken (s : State) (d : Nat) (dev : Device) : (s.withDevice d dev).nextToken = s.nextToken := rfl
@[simp] theorem withDevice_started (s : State) (d : Nat) (dev : Device) : (s.withDevice d dev).started = s.started := rfl
@[simp] theorem withDevice_params (s : State) (d : Nat) (dev : Device) : (s.withDevice d dev).params = s.params := rfl

@[simp] theorem stopped_regs (s : State) (why : Stop) : (s.stopped why).regs = s.regs := rfl
@[simp] theorem stopped_fsz (s : State) (why : Stop) : (s.stopped why).fsz = s.fsz := rfl
@[simp] theorem stopped_status (s : State) (why : Stop) : (s.stopped why).status = stopStatus why := rfl
@[simp] theorem stopped_regions (s : State) (why : Stop) : (s.stopped why).regions = s.regions := rfl
@[simp] theorem stopped_devices (s : State) (why : Stop) : (s.stopped why).devices = s.devices := rfl
@[simp] theorem stopped_nextToken (s : State) (why : Stop) : (s.stopped why).nextToken = s.nextToken := rfl
@[simp] theorem stopped_started (s : State) (why : Stop) : (s.stopped why).started = s.started := rfl
@[simp] theorem stopped_params (s : State) (why : Stop) : (s.stopped why).params = s.params := rfl

@[simp] theorem begun_regs (s : State) : (s.begun).regs = s.regs := rfl
@[simp] theorem begun_fsz (s : State) : (s.begun).fsz = s.fsz := rfl
@[simp] theorem begun_status (s : State) : (s.begun).status = s.status := rfl
@[simp] theorem begun_regions (s : State) : (s.begun).regions = s.regions := rfl
@[simp] theorem begun_devices (s : State) : (s.begun).devices = s.devices := rfl
@[simp] theorem begun_nextToken (s : State) : (s.begun).nextToken = s.nextToken := rfl
@[simp] theorem begun_started (s : State) : (s.begun).started = true := rfl
@[simp] theorem begun_params (s : State) : (s.begun).params = s.params := rfl

@[simp] theorem withRegion_regs (s : State) (d : Nat) (start last : Word) (remap : Bool) : (s.withRegion d start last remap).regs = s.regs := rfl
@[simp] theorem withRegion_fsz (s : State) (d : Nat) (start last : Word) (remap : Bool) : (s.withRegion d start last remap).fsz = s.fsz := rfl
@[simp] theorem withRegion_status (s : State) (d : Nat) (start last : Word) (remap : Bool) : (s.withRegion d start last remap).status = s.status := rfl
@[simp] theorem withRegion_regions (s : State) (d : Nat) (start last : Word) (remap : Bool) : (s.withRegion d start last remap).regions = { device := d, start := start, last := last, remap := remap, token := s.nextToken } :: s.regions := rfl
@[simp] theorem withRegion_devices (s : State) (d : Nat) (start last : Word) (remap : Bool) : (s.withRegion d start last remap).devices = s.devices := rfl
@[simp] theorem withRegion_nextToken (s : State) (d : Nat) (start last : Word) (remap : Bool) : (s.withRegion d start last remap).nextToken = s.nextToken + 1 := rfl
@[simp] theorem withRegion_started (s : State) (d : Nat) (start last : Word) (remap : Bool) : (s.withRegion d start last remap).started = s.started := rfl
@[simp] theorem withRegion_params (s : State) (d : Nat) (start last : Word) (remap : Bool) : (s.withRegion d start last remap).params = s.params := rfl

/-! ### Registers -/

/-- Reading a register file after a write: the written value at the written register, the old value elsewhere. -/
theorem get_set (f : RegFile) (r q : Reg) (v : Word) : (f.set r v).get q = if q = r then v else f.get q := by
  cases r <;> cases q <;> rfl

@[simp] theorem get_set_same (f : RegFile) (r : Reg) (v : Word) : (f.set r v).get r = v := by simp [get_set]

theorem get_set_other (f : RegFile) {r q : Reg} (v : Word) (h : q ≠ r) : (f.set r v).get q = f.get q := by
  simp [get_set, h]

theorem reg_withReg (s : State) (r q : Reg) (v : Word) :
    (s.withReg r v).reg q = if q = r then v else s.reg q := get_set s.regs r q v

@[simp] theorem reg_withReg_same (s : State) (r : Reg) (v : Word) : (s.withReg r v).reg r = v := by simp [reg_withReg]

theorem reg_withReg_other (s : State) {r q : Reg} (v : Word) (h : q ≠ r) : (s.withReg r v).reg q = s.reg q := by
  simp [reg_withReg, h]

@[simp] theorem reg_withFsz (s : State) (v : Word) (q : Reg) : (s.withFsz v).reg q = s.reg q := rfl
@[simp] theorem reg_withDevice (s : State) (d : Nat) (dev : Device) (q : Reg) : (s.withDevice d dev).reg q = s.reg q := rfl
@[simp] theorem reg_stopped (s : State) (why : Stop) (q : Reg) : (s.stopped why).reg q = s.reg q := rfl
@[simp] theorem reg_begun (s : State) (q : Reg) : s.begun.reg q = s.reg q := rfl

/-! ### Devices -/

/-- What a device number stands for depends on the list of devices alone. -/
theorem device_congr {s t : State} (h : t.devices = s.devices) (d : Nat) : t.device d = s.device d := by
  simp [State.device, h]

@[simp] theorem device_withReg (s : State) (r : Reg) (v : Word) (d : Nat) : (s.withReg r v).device d = s.device d := rfl
@[simp] theorem device_withFsz (s : State) (v : Word) (d : Nat) : (s.withFsz v).device d = s.device d := rfl
@[simp] theorem device_stopped (s : State) (why : Stop) (d : Nat) : (s.stopped why).device d = s.device d := rfl
@[simp] theorem device_begun (s : State) (d : Nat) : s.begun.device d = s.device d := rfl

/-- A device other than the changed one is unchanged. -/
theorem device_withDevice_other (s : State) {d e : Nat} (dev : Device) (h : e ≠ d) :
    (s.withDevice d dev).device e = s.device e := by
  simp [State.device, List.getD_eq_getElem?_getD, List.getElem?_set_ne (Ne.symm h)]

/-- The changed device, where its number is a device's. -/
theorem device_withDevice_same (s : State) {d : Nat} (dev : Device) (h : d < s.devices.length) :
    (s.withDevice d dev).device d = dev := by
  simp [State.device, List.getD_eq_getElem?_getD, h]

/-- A peripheral's number is a device's. -/
theorem device_lt_of_peripheral {s : State} {d : Nat} {h : List Config.DeviceAccess}
    (hd : s.device d = .peripheral h) : d < s.devices.length := by
  by_contra hlt
  simp [State.device, List.getD_eq_getElem?_getD, List.getElem?_eq_none (Nat.le_of_not_lt hlt)] at hd

/-- The number of a memory device that has a byte is a device's. -/
theorem device_lt_of_memory {s : State} {d k : Nat} {m : Memory}
    (hd : s.device d = .memory m) (hk : k < m.size) : d < s.devices.length := by
  by_contra hlt
  simp [State.device, List.getD_eq_getElem?_getD, List.getElem?_eq_none (Nat.le_of_not_lt hlt)] at hd
  subst hd
  exact absurd hk (Nat.not_lt_zero k)

end Sys2Proof.Machine
end

