-- ==== Sys2Proof/Laws/Ops.lean ====
section
/-! SUPPORT. What each shared operation can do, said once: how operations run in sequence, the elementary effects an
operation is made of (`Micro`, `Keeps`), and the result of each memory and stack operation on a memory slot. -/

namespace Sys2Proof.Machine

/-! ### Sequencing -/

theorem run_pure {α : Type} (a : α) (s : State) : (pure a : Op α) s = .ok a s := rfl

theorem run_bind {α β : Type} (x : Op α) (f : α → Op β) (s : State) :
    (x >>= f) s = match x s with
      | .ok a t => f a t
      | .error e t => .error e t := by
  show EStateM.bind x f s = _
  unfold EStateM.bind
  cases x s <;> rfl

theorem run_map {α β : Type} (g : α → β) (x : Op α) (s : State) :
    (g <$> x) s = match x s with
      | .ok a t => .ok (g a) t
      | .error e t => .error e t := by
  show EStateM.map g x s = _
  unfold EStateM.map
  cases x s <;> rfl

theorem bind_ok {α β : Type} {x : Op α} {f : α → Op β} {s t : State} {a : α} (h : x s = .ok a t) :
    (x >>= f) s = f a t := by rw [run_bind, h]

theorem bind_error {α β : Type} {x : Op α} {f : α → Op β} {s t : State} {e : Stop} (h : x s = .error e t) :
    (x >>= f) s = .error e t := by rw [run_bind, h]

theorem perform_ok {op : Op Unit} {s t : State} (h : op s = .ok () t) : perform op s = .next t := by
  simp [perform, h]

theorem perform_error {op : Op Unit} {s t : State} {e : Stop} (h : op s = .error e t) :
    perform op s = .next (t.stopped e) := by simp [perform, h]

/-- A performed operation always has a next state: what it completed with, or what it stopped with. -/
theorem perform_cases {op : Op Unit} {s t : State} (h : perform op s = .next t) :
    op s = .ok () t ∨ ∃ e u, op s = .error e u ∧ t = u.stopped e := by
  unfold perform at h
  split at h
  · next heq => cases h; exact .inl heq
  · next e u heq => cases h; exact .inr ⟨e, u, heq, rfl⟩

@[simp] theorem run_getReg (r : Reg) (s : State) : getReg r s = .ok (s.reg r) s := rfl
@[simp] theorem run_setReg (r : Reg) (v : Word) (s : State) : setReg r v s = .ok () (s.withReg r v) := rfl
@[simp] theorem run_getFsz (s : State) : getFsz s = .ok s.fsz s := rfl
@[simp] theorem run_setFsz (v : Word) (s : State) : setFsz v s = .ok () (s.withFsz v) := rfl
@[simp] theorem run_getFrameRestore (s : State) : getFrameRestore s = .ok s.params.frameRestore s := rfl
@[simp] theorem run_stop {α : Type} (why : Stop) (s : State) : (stop why : Op α) s = .error why s := rfl

/-! ### The elementary effects -/

/-- One elementary effect: a register among `P` is written, the frame-byte counter is (where `F` allows it), a byte or a
word in range of a memory device is, or a peripheral receives an access. Nothing else ever happens to a state while an
operation runs. -/
inductive Micro (P : Reg → Prop) (F : Prop) : State → State → Prop where
  | reg (s : State) (r : Reg) (v : Word) (h : P r) : Micro P F s (s.withReg r v)
  | fsz (s : State) (v : Word) (h : F) : Micro P F s (s.withFsz v)
  | byte (s : State) (d : Nat) (m : Memory) (a : Nat) (b : Byte) (hd : s.device d = .memory m) (ha : a < m.size) :
      Micro P F s (s.withDevice d (.memory (m.putByte a b)))
  | word (s : State) (d : Nat) (m : Memory) (a : Nat) (v : Word) (hd : s.device d = .memory m) (ha : a + 1 < m.size) :
      Micro P F s (s.withDevice d (.memory (m.putWord a v)))
  | access (s : State) (d : Nat) (h : List Config.DeviceAccess) (acc : Config.DeviceAccess)
      (hd : s.device d = .peripheral h) : Micro P F s (s.withDevice d (.peripheral (acc :: h)))

/-- A sequence of elementary effects. -/
abbrev Effects (P : Reg → Prop) (F : Prop) : State → State → Prop := Relation.ReflTransGen (Micro P F)

/-- The state an operation ends in, completed or stopped, comes from the state it started in by elementary effects, and it
stops only by a fault. -/
def Keeps {α : Type} (P : Reg → Prop) (F : Prop) (op : Op α) : Prop :=
  ∀ s, match op s with
    | .ok _ t => Effects P F s t
    | .error e t => Effects P F s t ∧ ∃ c, e = .fault c

variable {α β : Type} {P : Reg → Prop} {F : Prop}

theorem Keeps.ok {op : Op α} (h : Keeps P F op) {s t : State} {a : α} (hs : op s = .ok a t) : Effects P F s t := by
  have := h s; rw [hs] at this; exact this

theorem Keeps.error {op : Op α} (h : Keeps P F op) {s t : State} {e : Stop} (hs : op s = .error e t) :
    Effects P F s t ∧ ∃ c, e = .fault c := by
  have := h s; rw [hs] at this; exact this

theorem keeps_pure (a : α) : Keeps P F (pure a : Op α) := fun _ => .refl

theorem Keeps.bind {x : Op α} {f : α → Op β} (hx : Keeps P F x) (hf : ∀ a, Keeps P F (f a)) :
    Keeps P F (x >>= f) := by
  intro s
  cases hs : x s with
  | ok a t =>
    rw [bind_ok hs]
    have h1 := hx.ok hs
    cases ht : f a t with
    | ok b u => exact h1.trans ((hf a).ok ht)
    | error e u => exact ⟨h1.trans ((hf a).error ht).1, ((hf a).error ht).2⟩
  | error e t =>
    rw [bind_error hs]
    exact hx.error hs

theorem keeps_getReg (r : Reg) : Keeps P F (getReg r) := fun _ => .refl
theorem keeps_setReg {r : Reg} (v : Word) (h : P r) : Keeps P F (setReg r v) := fun s => .single (.reg s r v h)
theorem keeps_getFsz : Keeps P F getFsz := fun _ => .refl
theorem keeps_setFsz (v : Word) (h : F) : Keeps P F (setFsz v) := fun s => .single (.fsz s v h)
theorem keeps_getFrameRestore : Keeps P F getFrameRestore := fun _ => .refl

theorem effects_peripheralAccess {d : Nat} {h : List Config.DeviceAccess} {s : State}
    (hd : s.device d = .peripheral h) (acc : Config.DeviceAccess) (answer : α) (info : AccessInfo) (la : Word) :
    match peripheralAccess d h acc answer info la s with
    | .ok _ t => Effects P F s t
    | .error e t => Effects P F s t ∧ ∃ c, e = .fault c := by
  by_cases hf : Config.deviceFails d h acc = true
  · rw [peripheralAccess, if_pos hf]
    exact ⟨.single (.access s d h acc hd), _, rfl⟩
  · rw [peripheralAccess, if_neg hf]
    exact .single (.access s d h acc hd)

theorem keeps_memRead8 (kind : AccessKind) (a : Word) : Keeps P F (memRead8 kind a) := by
  intro s
  unfold memRead8
  cases resolve s.regions a with
  | none => exact ⟨.refl, _, rfl⟩
  | some p =>
    obtain ⟨d, la⟩ := p
    simp only [deviceRead8]
    cases hd : s.device d with
    | memory m =>
      by_cases hb : la.toNat < m.size
      · simp only [if_pos hb]; exact .refl
      · simp only [if_neg hb]; exact ⟨.refl, _, rfl⟩
    | peripheral h => exact effects_peripheralAccess hd _ _ _ _

theorem keeps_memRead16 (kind : AccessKind) (a : Word) : Keeps P F (memRead16 kind a) := by
  intro s
  unfold memRead16
  cases resolve s.regions a with
  | none => exact ⟨.refl, _, rfl⟩
  | some p =>
    obtain ⟨d, la⟩ := p
    simp only [deviceRead16]
    cases hd : s.device d with
    | memory m =>
      by_cases hb : la.toNat + 1 < m.size
      · simp only [if_pos hb]; exact .refl
      · simp only [if_neg hb]; exact ⟨.refl, _, rfl⟩
    | peripheral h => exact effects_peripheralAccess hd _ _ _ _

theorem keeps_memWrite8 (kind : AccessKind) (a v : Word) : Keeps P F (memWrite8 kind a v) := by
  intro s
  unfold memWrite8
  cases resolve s.regions a with
  | none => exact ⟨.refl, _, rfl⟩
  | some p =>
    obtain ⟨d, la⟩ := p
    simp only [deviceWrite8]
    cases hd : s.device d with
    | memory m =>
      by_cases hb : la.toNat < m.size
      · simp only [if_pos hb]; exact .single (.byte s d m _ _ hd hb)
      · simp only [if_neg hb]; exact ⟨.refl, _, rfl⟩
    | peripheral h => exact effects_peripheralAccess hd _ _ _ _

theorem keeps_memWrite16 (kind : AccessKind) (a v : Word) : Keeps P F (memWrite16 kind a v) := by
  intro s
  unfold memWrite16
  cases resolve s.regions a with
  | none => exact ⟨.refl, _, rfl⟩
  | some p =>
    obtain ⟨d, la⟩ := p
    simp only [deviceWrite16]
    cases hd : s.device d with
    | memory m =>
      by_cases hb : la.toNat + 1 < m.size
      · simp only [if_pos hb]; exact .single (.word s d m _ _ hd hb)
      · simp only [if_neg hb]; exact ⟨.refl, _, rfl⟩
    | peripheral h => exact effects_peripheralAccess hd _ _ _ _

theorem keeps_push (v : Word) (hsp : P .sp) (hF : F) : Keeps P F (push v) :=
  (keeps_getReg _).bind fun _ => (keeps_memWrite16 _ _ _).bind fun _ => (keeps_getReg _).bind fun _ =>
    (keeps_setReg _ hsp).bind fun _ => keeps_getFsz.bind fun _ => keeps_setFsz _ hF

theorem keeps_pop (hsp : P .sp) (hF : F) : Keeps P F pop :=
  (keeps_getReg _).bind fun _ => (keeps_setReg _ hsp).bind fun _ => keeps_getFsz.bind fun _ =>
    (keeps_setFsz _ hF).bind fun _ => (keeps_getReg _).bind fun _ => keeps_memRead16 _ _

theorem keeps_pushRegs (l : List Reg) (hsp : P .sp) (hF : F) : Keeps P F (pushRegs l) := by
  induction l with
  | nil => exact keeps_pure ()
  | cons r rest ih => exact (keeps_getReg r).bind fun _ => (keeps_push _ hsp hF).bind fun _ => ih

theorem keeps_popRegs (l : List Reg) (hl : ∀ r ∈ l, P r) (hsp : P .sp) (hF : F) : Keeps P F (popRegs l) := by
  induction l with
  | nil => exact keeps_pure ()
  | cons r rest ih =>
    exact (keeps_pop hsp hF).bind fun _ => (keeps_setReg _ (hl r (by simp))).bind fun _ =>
      ih fun q hq => hl q (by simp [hq])

theorem keeps_popDiscard (n : Nat) (hsp : P .sp) (hF : F) : Keeps P F (popDiscard n) := by
  induction n with
  | zero => exact keeps_pure ()
  | succ n ih => exact (keeps_pop hsp hF).bind fun _ => ih

theorem keeps_pushState (hsp : P .sp) (hfp : P .fp) (hF : F) : Keeps P F pushState :=
  (keeps_pushRegs _ hsp hF).bind fun _ => (keeps_getReg _).bind fun _ => (keeps_push _ hsp hF).bind fun _ =>
    keeps_getFsz.bind fun _ => (keeps_push _ hsp hF).bind fun _ => (keeps_getReg _).bind fun _ =>
      (keeps_setReg _ hfp).bind fun _ => keeps_setFsz _ hF

theorem keeps_popState (hip : P .ip) (hsp : P .sp) (hfp : P .fp) (hg : ∀ r ∈ Reg.general, P r) (hF : F) :
    Keeps P F popState :=
  (keeps_getReg _).bind fun _ => (keeps_setReg _ hsp).bind fun _ => (keeps_pop hsp hF).bind fun _ =>
    keeps_getFrameRestore.bind fun _ => (keeps_setFsz _ hF).bind fun _ => (keeps_pop hsp hF).bind fun _ =>
      (keeps_setReg _ hip).bind fun _ =>
        (keeps_popRegs _ (fun r hr => hg r (List.mem_reverse.mp hr)) hsp hF).bind fun _ =>
          (keeps_pop hsp hF).bind fun _ => (keeps_popDiscard _ hsp hF).bind fun _ => keeps_setReg _ hfp

/-! ### What effects leave alone -/

/-- A register outside `P` is unchanged by effects. -/
theorem Effects.reg_eq {s t : State} (h : Effects P F s t) {r : Reg} (hr : ¬ P r) : t.reg r = s.reg r := by
  induction h with
  | refl => rfl
  | tail _ hm ih =>
    cases hm with
    | reg q v hq => rw [reg_withReg_other _ _ (by rintro rfl; exact hr hq), ih]
    | fsz | byte | word | access => exact ih

/-- The frame-byte counter is unchanged by effects that may not write it. -/
theorem Effects.fsz_eq {s t : State} (h : Effects P F s t) (hF : ¬ F) : t.fsz = s.fsz := by
  induction h with
  | refl => rfl
  | tail _ hm ih =>
    cases hm with
    | fsz v hf => exact absurd hf hF
    | reg | byte | word | access => exact ih

/-- Effects change nothing but registers, the counter and devices. -/
theorem Effects.same {s t : State} (h : Effects P F s t) :
    t.status = s.status ∧ t.regions = s.regions ∧ t.nextToken = s.nextToken ∧ t.started = s.started ∧
      t.params = s.params ∧ t.devices.length = s.devices.length := by
  induction h with
  | refl => exact ⟨rfl, rfl, rfl, rfl, rfl, rfl⟩
  | tail _ hm ih => cases hm <;> simpa using ih

/-- Effects keep a property of single devices that writes in range and peripheral accesses keep. -/
theorem Effects.device_rel {R : Device → Device → Prop} (hrefl : ∀ x, R x x)
    (htrans : ∀ x y z, R x y → R y z → R x z)
    (hbyte : ∀ m a b, a < m.size → R (.memory m) (.memory (m.putByte a b)))
    (hword : ∀ m a v, a + 1 < m.size → R (.memory m) (.memory (m.putWord a v)))
    (haccess : ∀ h acc, R (.peripheral h) (.peripheral (acc :: h)))
    {s t : State} (h : Effects P F s t) (d : Nat) : R (s.device d) (t.device d) := by
  induction h with
  | refl => exact hrefl _
  | tail _ hm ih =>
    refine htrans _ _ _ ih ?_
    cases hm with
    | reg | fsz => exact hrefl _
    | byte e m a b he ha =>
      by_cases hde : d = e
      · subst hde; rw [device_withDevice_same _ _ (device_lt_of_memory he ha), he]; exact hbyte m a b ha
      · rw [device_withDevice_other _ _ hde]; exact hrefl _
    | word e m a v he ha =>
      by_cases hde : d = e
      · subst hde; rw [device_withDevice_same _ _ (device_lt_of_memory he ha), he]; exact hword m a v ha
      · rw [device_withDevice_other _ _ hde]; exact hrefl _
    | access e h acc he =>
      by_cases hde : d = e
      · subst hde; rw [device_withDevice_same _ _ (device_lt_of_peripheral he), he]; exact haccess h acc
      · rw [device_withDevice_other _ _ hde]; exact hrefl _

end Sys2Proof.Machine
end

