-- ==== Sys2Proof/Laws/Slots.lean ====
section
/-! SUPPORT. The memory and stack operations on a slot, a word that lies inside a memory device: the one result each has
there, what it leaves alone, and the result where it faults. -/

namespace Sys2Proof.Machine

/-- The state after a word is stored in a slot of a memory device. -/
def State.storeWord (s : State) (slot : Nat × Nat) (v : Word) : State :=
  match s.device slot.1 with
  | .memory m => s.withDevice slot.1 (.memory (m.putWord slot.2 v))
  | .peripheral _ => s

/-- The slot lies inside a memory device. -/
def SlotIn (s : State) (slot : Nat × Nat) : Prop :=
  ∃ m, s.device slot.1 = .memory m ∧ slot.2 + 1 < m.size

/-- What a slot is. -/
theorem wordSlot_cases {s : State} {a : Word} {slot : Nat × Nat} (h : s.wordSlot a = some slot) :
    ∃ d la m, resolve s.regions a = some (d, la) ∧ s.device d = .memory m ∧ la.toNat + 1 < m.size ∧
      slot = (d, la.toNat) := by
  unfold State.wordSlot at h
  cases hr : resolve s.regions a with
  | none => simp [hr] at h
  | some p =>
    obtain ⟨d, la⟩ := p
    cases hd : s.device d with
    | peripheral q => simp [hr, hd] at h
    | memory m =>
      simp only [hr, hd] at h
      split at h
      next hlt => exact ⟨d, la, m, rfl, hd, hlt, (Option.some.inj h).symm⟩
      next => cases h

theorem slotIn_of_wordSlot {s : State} {a : Word} {slot : Nat × Nat} (h : s.wordSlot a = some slot) :
    SlotIn s slot := by
  obtain ⟨d, la, m, _, hd, hlt, rfl⟩ := wordSlot_cases h
  exact ⟨m, hd, hlt⟩

/-! ### Reading and writing a slot -/

theorem memRead16_slot {s : State} {a : Word} {slot : Nat × Nat} (h : s.wordSlot a = some slot) (kind : AccessKind) :
    memRead16 kind a s = .ok (s.slotWord slot) s := by
  obtain ⟨d, la, m, hr, hd, hlt, rfl⟩ := wordSlot_cases h
  simp [memRead16, hr, deviceRead16, hd, hlt, State.slotWord]

theorem memWrite16_slot {s : State} {a : Word} {slot : Nat × Nat} (h : s.wordSlot a = some slot) (kind : AccessKind)
    (v : Word) : memWrite16 kind a v s = .ok () (s.storeWord slot v) := by
  obtain ⟨d, la, m, hr, hd, hlt, rfl⟩ := wordSlot_cases h
  simp [memWrite16, hr, deviceWrite16, hd, hlt, State.storeWord]

/-- A byte that can be seen is what a byte read gives. -/
theorem memRead8_peek {s : State} {a : Word} {b : Byte} (h : s.peek a = some b) (kind : AccessKind) :
    memRead8 kind a s = .ok b s := by
  unfold State.peek at h
  cases hr : resolve s.regions a with
  | none => simp [hr] at h
  | some p =>
    obtain ⟨d, la⟩ := p
    cases hd : s.device d with
    | peripheral q => simp [hr, hd] at h
    | memory m =>
      simp only [hr, hd] at h
      split at h
      next hlt => simp [memRead8, hr, deviceRead8, hd, hlt, Option.some.inj h]
      next => cases h

theorem memRead16_unmapped {s : State} {a : Word} (h : resolve s.regions a = none) (kind : AccessKind) :
    memRead16 kind a s = .error (.fault (.unmappedAddress ⟨kind, a, .word⟩)) s := by simp [memRead16, h]

theorem memWrite16_unmapped {s : State} {a : Word} (h : resolve s.regions a = none) (kind : AccessKind) (v : Word) :
    memWrite16 kind a v s = .error (.fault (.unmappedAddress ⟨kind, a, .word⟩)) s := by simp [memWrite16, h]

theorem memRead16_outside {s : State} {a la : Word} {d : Nat} {m : Memory} (h : resolve s.regions a = some (d, la))
    (hd : s.device d = .memory m) (hb : m.size ≤ la.toNat + 1) (kind : AccessKind) :
    memRead16 kind a s = .error (.fault (.boundsViolation ⟨kind, a, .word⟩ la)) s := by
  simp [memRead16, h, deviceRead16, hd, Nat.not_lt.mpr hb]

theorem memWrite16_outside {s : State} {a la : Word} {d : Nat} {m : Memory} (h : resolve s.regions a = some (d, la))
    (hd : s.device d = .memory m) (hb : m.size ≤ la.toNat + 1) (kind : AccessKind) (v : Word) :
    memWrite16 kind a v s = .error (.fault (.boundsViolation ⟨kind, a, .word⟩ la)) s := by
  simp [memWrite16, h, deviceWrite16, hd, Nat.not_lt.mpr hb]

/-- The word of a slot by its two bytes. -/
theorem toNat_slotWord {s : State} {d k : Nat} {hi lo : Byte} (hh : s.localByte d k = some hi)
    (hl : s.localByte d (k + 1) = some lo) : (s.slotWord (d, k)).toNat = 256 * hi.toNat + lo.toNat := by
  cases hd : s.device d with
  | peripheral q => simp [State.localByte, hd] at hh
  | memory m =>
    simp only [State.localByte, hd] at hh hl
    split at hh <;> split at hl <;> simp_all [State.slotWord, Memory.wordAt, toNat_beWord, Nat.mul_comm]

/-! ### The state after a store -/

@[simp] theorem storeWord_regs (s : State) (slot : Nat × Nat) (v : Word) : (s.storeWord slot v).regs = s.regs := by
  unfold State.storeWord; split <;> rfl
@[simp] theorem storeWord_fsz (s : State) (slot : Nat × Nat) (v : Word) : (s.storeWord slot v).fsz = s.fsz := by
  unfold State.storeWord; split <;> rfl
@[simp] theorem storeWord_status (s : State) (slot : Nat × Nat) (v : Word) :
    (s.storeWord slot v).status = s.status := by
  unfold State.storeWord; split <;> rfl
@[simp] theorem storeWord_regions (s : State) (slot : Nat × Nat) (v : Word) :
    (s.storeWord slot v).regions = s.regions := by
  unfold State.storeWord; split <;> rfl
@[simp] theorem storeWord_nextToken (s : State) (slot : Nat × Nat) (v : Word) :
    (s.storeWord slot v).nextToken = s.nextToken := by
  unfold State.storeWord; split <;> rfl
@[simp] theorem storeWord_started (s : State) (slot : Nat × Nat) (v : Word) :
    (s.storeWord slot v).started = s.started := by
  unfold State.storeWord; split <;> rfl
@[simp] theorem storeWord_params (s : State) (slot : Nat × Nat) (v : Word) :
    (s.storeWord slot v).params = s.params := by
  unfold State.storeWord; split <;> rfl
@[simp] theorem storeWord_count (s : State) (slot : Nat × Nat) (v : Word) :
    (s.storeWord slot v).devices.length = s.devices.length := by
  unfold State.storeWord; split <;> simp
@[simp] theorem reg_storeWord (s : State) (slot : Nat × Nat) (v : Word) (r : Reg) :
    (s.storeWord slot v).reg r = s.reg r := by simp [State.reg]

/-- The device a store goes to, after it. -/
theorem device_storeWord_same {s : State} {slot : Nat × Nat} {m : Memory} (hd : s.device slot.1 = .memory m)
    (hlt : slot.2 + 1 < m.size) (v : Word) :
    (s.storeWord slot v).device slot.1 = .memory (m.putWord slot.2 v) := by
  simp only [State.storeWord, hd]
  exact device_withDevice_same _ _ (device_lt_of_memory hd (Nat.lt_of_succ_lt hlt))

theorem device_storeWord_other (s : State) (slot : Nat × Nat) (v : Word) {d : Nat} (h : d ≠ slot.1) :
    (s.storeWord slot v).device d = s.device d := by
  unfold State.storeWord; split
  · exact device_withDevice_other _ _ h
  · rfl

/-- A store into a slot, seen byte by byte. -/
theorem localByte_storeWord {s : State} {slot : Nat × Nat} (h : SlotIn s slot) (v : Word) (d k : Nat) :
    (s.storeWord slot v).localByte d k =
      if (d, k) = (slot.1, slot.2 + 1) then some (loByte v)
      else if (d, k) = slot then some (hiByte v) else s.localByte d k := by
  obtain ⟨e, a⟩ := slot
  obtain ⟨m, hd, hlt⟩ := h
  by_cases hde : d = e
  · subst hde
    have hd' := device_storeWord_same hd hlt v
    simp only at hd hd' hlt
    simp only [State.localByte, hd, hd', byteAt_putWord, putWord_size, Prod.mk.injEq, true_and]
    by_cases h1 : k = a + 1
    · simp [h1, hlt]
    · by_cases h2 : k = a
      · simp [h2, Nat.lt_of_succ_lt hlt]
      · simp [h1, h2]
  · have hd' := device_storeWord_other s (e, a) v (d := d) hde
    simp [State.localByte, hd', hde]

/-- Slots do not move under a store. -/
theorem wordSlot_storeWord (s : State) (slot : Nat × Nat) (v : Word) (a : Word) :
    (s.storeWord slot v).wordSlot a = s.wordSlot a := by
  unfold State.wordSlot
  simp only [storeWord_regions]
  cases resolve s.regions a with
  | none => rfl
  | some p =>
    obtain ⟨d, la⟩ := p
    simp only
    unfold State.storeWord
    cases hs : s.device slot.1 with
    | peripheral q => rfl
    | memory m =>
      by_cases hd : d = slot.1
      · subst hd
        by_cases hlen : slot.1 < s.devices.length
        · rw [device_withDevice_same _ _ hlen, hs]
          rfl
        · have hout : (s.withDevice slot.1 (.memory (m.putWord slot.2 v))).devices = s.devices :=
            List.set_eq_of_length_le (Nat.le_of_not_lt hlen)
          rw [device_congr hout, hs]
      · simp [device_withDevice_other _ _ hd]

/-- Slots depend on the map and the devices alone. -/
theorem wordSlot_congr {s t : State} (hr : t.regions = s.regions) (hd : t.devices = s.devices) (a : Word) :
    t.wordSlot a = s.wordSlot a := by
  simp [State.wordSlot, hr, State.device, hd]

theorem slotWord_congr {s t : State} (hd : t.devices = s.devices) (slot : Nat × Nat) :
    t.slotWord slot = s.slotWord slot := by
  simp [State.slotWord, State.device, hd]

theorem peek_congr {s t : State} (hr : t.regions = s.regions) (hd : t.devices = s.devices) (a : Word) :
    t.peek a = s.peek a := by
  simp [State.peek, hr, State.device, hd]

/-- A seen byte by its place. -/
theorem peek_eq_localByte {s : State} {a la : Word} {d : Nat} (h : resolve s.regions a = some (d, la)) :
    s.peek a = s.localByte d la.toNat := by
  cases hd : s.device d <;> simp [State.peek, State.localByte, h, hd]

theorem peek_eq_none {s : State} {a : Word} (h : resolve s.regions a = none) : s.peek a = none := by
  simp [State.peek, h]

/-- Everything a store does. -/
theorem storesWord_storeWord {s : State} {slot : Nat × Nat} (h : SlotIn s slot) (v : Word) :
    StoresWord slot v s (s.storeWord slot v) where
  high := by
    rw [localByte_storeWord h, ← hiByte_eq_shift]
    have : slot ≠ (slot.1, slot.2 + 1) := fun heq => by simpa using congrArg Prod.snd heq
    simp [this]
  low := by rw [localByte_storeWord h, ← loByte_eq_setWidth]; simp
  others := by intro d k h1 h2; rw [localByte_storeWord h]; simp [h1, h2]
  peek := by
    intro a d la hr h1 h2
    rw [peek_eq_localByte (s := s.storeWord slot v) (by simpa using hr), peek_eq_localByte hr, localByte_storeWord h]
    simp [h1, h2]
  unmapped := by
    intro a hr
    rw [peek_eq_none hr, peek_eq_none (s := s.storeWord slot v) (by simpa using hr)]
  peripherals := by
    intro d q
    obtain ⟨m, hd, hlt⟩ := h
    by_cases hde : d = slot.1
    · subst hde; simp [device_storeWord_same hd hlt, hd]
    · rw [device_storeWord_other _ _ _ hde]
  count := by simp

/-- What a store writes is what the slot then holds (20_memory.md R54). -/
theorem slotWord_storeWord_same {s : State} {slot : Nat × Nat} (h : SlotIn s slot) (v : Word) :
    (s.storeWord slot v).slotWord slot = v := by
  obtain ⟨m, hd, hlt⟩ := h
  simp [State.slotWord, device_storeWord_same hd hlt]

/-- A slot that shares no byte with the one stored to. -/
theorem slotWord_storeWord_apart {s : State} {slot other : Nat × Nat} (h : SlotIn s slot) (v : Word)
    (hapart : other.1 ≠ slot.1 ∨ other.2 + 1 < slot.2 ∨ slot.2 + 1 < other.2) :
    (s.storeWord slot v).slotWord other = s.slotWord other := by
  obtain ⟨m, hd, hlt⟩ := h
  by_cases hde : other.1 = slot.1
  · have hd' : s.device other.1 = .memory m := by rw [hde]; exact hd
    have hd'' := device_storeWord_same hd hlt v
    rw [← hde] at hd''
    simp only [State.slotWord, hd', hd'']
    exact wordAt_putWord_apart _ _ _ _ _ (by tauto)
  · simp [State.slotWord, device_storeWord_other _ _ _ hde]

/-! ### Push and Pop -/

/-- A push whose word lies in a slot (44_stack_call.md R240). -/
theorem push_slot {s : State} {slot : Nat × Nat} (h : s.wordSlot (s.reg .sp) = some slot) (v : Word) :
    push v s = .ok () (((s.storeWord slot v).withReg .sp (s.reg .sp - 2)).withFsz (s.fsz + 2)) := by
  simp [push, run_bind, memWrite16_slot h]

/-- A push whose write faults keeps the state the write left (44_stack_call.md R240). -/
theorem push_error {s t : State} {e : Stop} {v : Word} (h : memWrite16 .write (s.reg .sp) v s = .error e t) :
    push v s = .error e t := by
  simp [push, run_bind, h]

/-- The state a pop reads in: `sp` and the counter have moved (44_stack_call.md R241). -/
def State.popped (s : State) : State := (s.withReg .sp (s.reg .sp + 2)).withFsz (s.fsz - 2)

theorem run_pop (s : State) : pop s = memRead16 .read (s.reg .sp + 2) s.popped := by
  simp [pop, run_bind, State.popped]

/-- A pop whose word lies in a slot (44_stack_call.md R241). -/
theorem pop_slot {s : State} {slot : Nat × Nat} (h : s.wordSlot (s.reg .sp + 2) = some slot) :
    pop s = .ok (s.slotWord slot) s.popped := by
  have h' : s.popped.wordSlot (s.reg .sp + 2) = some slot := by rw [← h]; exact wordSlot_congr rfl rfl _
  rw [run_pop, memRead16_slot h', slotWord_congr (s := s) (t := s.popped) rfl]

/-! ### Accesses that fault -/

theorem AccessFaults.congr {s t : State} {info : AccessInfo} {cause : FaultCause} (h : AccessFaults s info cause)
    (hr : t.regions = s.regions) (hd : t.devices = s.devices) : AccessFaults t info cause := by
  simpa only [AccessFaults, hr, device_congr hd] using h

/-- What operations do to a state leaves the accesses that fault as they are: the map and the memories' sizes stay. -/
theorem AccessFaults.effects {P : Reg → Prop} {F : Prop} {s t : State} {info : AccessInfo} {cause : FaultCause}
    (h : AccessFaults s info cause) (he : Effects P F s t) : AccessFaults t info cause := by
  have hr : t.regions = s.regions := he.same.2.1
  rcases h with ⟨h, rfl⟩ | ⟨d, la, m, h, hd, hb, rfl⟩
  · exact .inl ⟨by rw [hr]; exact h, rfl⟩
  · have key := he.device_rel (R := fun x y => ∀ m, x = .memory m → ∃ m', y = .memory m' ∧ m'.size = m.size)
      (fun x m hx => ⟨m, hx, rfl⟩)
      (fun x y z hxy hyz m hx => by
        obtain ⟨m1, h1, e1⟩ := hxy m hx
        obtain ⟨m2, h2, e2⟩ := hyz m1 h1
        exact ⟨m2, h2, e2.trans e1⟩)
      (fun m a b _ m0 h0 => by cases h0; exact ⟨_, rfl, by simp⟩)
      (fun m a v _ m0 h0 => by cases h0; exact ⟨_, rfl, by simp⟩)
      (fun _ _ m0 h0 => by cases h0) d
    obtain ⟨m', hd', hs⟩ := key m hd
    exact .inr ⟨d, la, m', by rw [hr]; exact h, hd', by rw [hs]; exact hb, rfl⟩

theorem memRead8_faults {s : State} {kind : AccessKind} {a : Word} {cause : FaultCause}
    (h : AccessFaults s ⟨kind, a, .byte⟩ cause) : memRead8 kind a s = .error (.fault cause) s := by
  rcases h with ⟨hr, rfl⟩ | ⟨d, la, m, hr, hd, hb, rfl⟩
  · simp [memRead8, hr]
  · simp [memRead8, hr, deviceRead8, hd, Nat.not_lt.mpr (Nat.lt_succ_iff.mp hb)]

theorem memRead16_faults {s : State} {kind : AccessKind} {a : Word} {cause : FaultCause}
    (h : AccessFaults s ⟨kind, a, .word⟩ cause) : memRead16 kind a s = .error (.fault cause) s := by
  rcases h with ⟨hr, rfl⟩ | ⟨d, la, m, hr, hd, hb, rfl⟩
  · exact memRead16_unmapped hr _
  · exact memRead16_outside hr hd (Nat.lt_succ_iff.mp hb) _

theorem memWrite16_faults {s : State} {kind : AccessKind} {a : Word} {cause : FaultCause}
    (h : AccessFaults s ⟨kind, a, .word⟩ cause) (v : Word) : memWrite16 kind a v s = .error (.fault cause) s := by
  rcases h with ⟨hr, rfl⟩ | ⟨d, la, m, hr, hd, hb, rfl⟩
  · exact memWrite16_unmapped hr _ _
  · exact memWrite16_outside hr hd (Nat.lt_succ_iff.mp hb) _ _

/-- Two states that agree on the bytes of a slot agree on its word. -/
theorem slotWord_of_bytes {s t : State} {slot : Nat × Nat} (hs : SlotIn s slot)
    (h0 : t.localByte slot.1 slot.2 = s.localByte slot.1 slot.2)
    (h1 : t.localByte slot.1 (slot.2 + 1) = s.localByte slot.1 (slot.2 + 1)) : t.slotWord slot = s.slotWord slot := by
  obtain ⟨m, hd, hlt⟩ := hs
  have e0 : s.localByte slot.1 slot.2 = some (m.byteAt slot.1 slot.2) := by
    simp [State.localByte, hd, Nat.lt_of_succ_lt hlt]
  have e1 : s.localByte slot.1 (slot.2 + 1) = some (m.byteAt slot.1 (slot.2 + 1)) := by
    simp [State.localByte, hd, hlt]
  apply BitVec.eq_of_toNat_eq
  exact (toNat_slotWord (h0.trans e0) (h1.trans e1)).trans (toNat_slotWord e0 e1).symm

/-- A push whose write faults changes nothing (44_stack_call.md R240). -/
theorem push_faults {s : State} {cause : FaultCause} (h : WriteFaults s (s.reg .sp) cause) (v : Word) :
    push v s = .error (.fault cause) s := push_error (memWrite16_faults h v)

/-- A pop whose read faults has moved `sp` and the counter (44_stack_call.md R241). -/
theorem pop_faults {s : State} {cause : FaultCause} (h : ReadFaults s (s.reg .sp + 2) cause) :
    pop s = .error (.fault cause) s.popped := by
  rw [run_pop, memRead16_faults (h.congr (t := s.popped) rfl rfl)]

end Sys2Proof.Machine
end

