-- ==== Sys2Proof/Laws/Exec.lean ====
section
/-! SUPPORT. What an instruction can do, said once: the operation each meaning performs, the registers it may write, and
whether it may touch the frame-byte counter; and the result of each operand form. -/

namespace Sys2Proof.Machine

/-! ### Operand forms -/

theorem run_intoReg {src : Op Word} {s : State} {v : Word} (h : src s = .ok v s) (rd : Reg) :
    intoReg rd src s = .ok () (s.withReg rd v) := by simp [intoReg, run_bind, h]

theorem run_intoReg_error {src : Op Word} {s t : State} {e : Stop} (h : src s = .error e t) (rd : Reg) :
    intoReg rd src s = .error e t := by simp [intoReg, run_bind, h]

@[simp] theorem run_litOperand (v : Word) (s : State) : litOperand v s = .ok v s := rfl
@[simp] theorem run_regOperand (r : Reg) (s : State) : regOperand r s = .ok (s.reg r) s := rfl

theorem run_intoMemory {src : Op Word} {s : State} {v : Word} (h : src s = .ok v s) (addr : Word) :
    intoMemory addr src s = memWrite16 .write addr v s := by simp [intoMemory, run_bind, h]

theorem run_intoAcc {f : Word → Word → Word} {left right : Op Word} {s : State} {x y : Word} (hl : left s = .ok x s)
    (hr : right s = .ok y s) : intoAcc f left right s = .ok () (s.withReg .acc (f x y)) := by
  simp [intoAcc, run_bind, hl, hr]

theorem run_inPlace (f : Word → Word) (r : Reg) (s : State) :
    inPlace f r s = .ok () (s.withReg r (f (s.reg r))) := by simp [inPlace, run_bind]

theorem run_inPlaceBy {f : Word → Word → Word} {amount : Op Word} {s : State} {n : Word} (h : amount s = .ok n s)
    (r : Reg) : inPlaceBy f r amount s = .ok () (s.withReg r (f (s.reg r) n)) := by
  simp [inPlaceBy, run_bind, h]

/-- A jump writes `ip` or nothing (43_branch.md R210). -/
theorem run_jumpIf {rel : Relation} {compared : Op Word} {s : State} {v : Word} (h : compared s = .ok v s)
    (addr : Word) :
    jumpIf rel compared addr s =
      .ok () (s.withReg .ip (if relationHolds rel v (s.reg .acc) then addr else s.reg .ip)) := by
  have hself : s.withReg .ip (s.reg .ip) = s := rfl
  simp only [jumpIf, run_bind, h, run_getReg]
  cases relationHolds rel v (s.reg .acc) <;> simp [run_pure, hself]

theorem run_pushOperand {src : Op Word} {s : State} {v : Word} (h : src s = .ok v s) :
    pushOperand src s = push v s := by simp [pushOperand, run_bind, h]

theorem run_callOperand {src : Op Word} {s : State} {v : Word} (h : src s = .ok v s) :
    callOperand src s = (do pushState; setReg .ip v : Op Unit) s := by simp [callOperand, run_bind, h]

/-! ### What a register write leaves alone -/

theorem sameMachine_rfl (s : State) : SameMachine s s := ⟨rfl, rfl, rfl, rfl⟩

theorem sameStore_of_eq {s t : State} (hr : t.regions = s.regions) (hd : t.devices = s.devices) : SameStore s t :=
  ⟨hd, peek_congr hr hd⟩

theorem sameRegsBut_withReg (s : State) (r : Reg) (v : Word) : SameRegsBut [r] s (s.withReg r v) := fun q hq =>
  reg_withReg_other s v (by simpa using hq)

/-- Writing one register changes that register and nothing else. -/
theorem onlyRegs_withReg (s : State) (r : Reg) (v : Word) : OnlyRegs [r] s (s.withReg r v) where
  regs := sameRegsBut_withReg s r v
  fsz := rfl
  status := rfl
  store := sameStore_of_eq rfl rfl
  machine := ⟨rfl, rfl, rfl, rfl⟩

/-! ### The operation of each instruction -/

/-- The operation an instruction performs. -/
def instrOp : Instr → Op Unit
  | .movLitReg lit rd => intoReg rd (litOperand lit)
  | .movRegReg rs rd => intoReg rd (regOperand rs)
  | .movRegMem rs addr => intoMemory addr (regOperand rs)
  | .movMemReg addr rd => intoReg rd (absoluteOperand addr)
  | .movLitMem lit addr => intoMemory addr (litOperand lit)
  | .movRegPtrReg rp rd => intoReg rd (pointerOperand rp)
  | .movLitOffReg base ro rd => intoReg rd (offsetOperand base ro)
  | .addRegReg ra rb => intoAcc add16 (regOperand ra) (regOperand rb)
  | .addLitReg lit r => intoAcc add16 (litOperand lit) (regOperand r)
  | .subLitReg lit r => intoAcc sub16 (regOperand r) (litOperand lit)
  | .subRegLit r lit => intoAcc sub16 (litOperand lit) (regOperand r)
  | .subRegReg ra rb => intoAcc sub16 (regOperand ra) (regOperand rb)
  | .mulLitReg lit r => intoAcc mul16 (litOperand lit) (regOperand r)
  | .mulRegReg ra rb => intoAcc mul16 (regOperand ra) (regOperand rb)
  | .incReg r => inPlace (fun v => add16 v 1) r
  | .decReg r => inPlace (fun v => sub16 v 1) r
  | .lsfRegLit r n => inPlaceBy shl16 r (litOperand n)
  | .lsfRegReg r rn => inPlaceBy shl16 r (regOperand rn)
  | .rsfRegLit r n => inPlaceBy shr16 r (litOperand n)
  | .rsfRegReg r rn => inPlaceBy shr16 r (regOperand rn)
  | .andRegLit r lit => intoAcc and16 (regOperand r) (litOperand lit)
  | .andRegReg ra rb => intoAcc and16 (regOperand ra) (regOperand rb)
  | .orRegLit r lit => intoAcc or16 (regOperand r) (litOperand lit)
  | .orRegReg ra rb => intoAcc or16 (regOperand ra) (regOperand rb)
  | .xorRegLit r lit => intoAcc xor16 (regOperand r) (litOperand lit)
  | .xorRegReg ra rb => intoAcc xor16 (regOperand ra) (regOperand rb)
  | .notReg r => inPlace not16 r
  | .jmpNotEq lit addr => jumpIf .ne (litOperand lit) addr
  | .jneReg r addr => jumpIf .ne (regOperand r) addr
  | .jeqLit lit addr => jumpIf .eq (litOperand lit) addr
  | .jeqReg r addr => jumpIf .eq (regOperand r) addr
  | .jltLit lit addr => jumpIf .lt (litOperand lit) addr
  | .jltReg r addr => jumpIf .lt (regOperand r) addr
  | .jgtLit lit addr => jumpIf .gt (litOperand lit) addr
  | .jgtReg r addr => jumpIf .gt (regOperand r) addr
  | .jleLit lit addr => jumpIf .le (litOperand lit) addr
  | .jleReg r addr => jumpIf .le (regOperand r) addr
  | .jgeLit lit addr => jumpIf .ge (litOperand lit) addr
  | .jgeReg r addr => jumpIf .ge (regOperand r) addr
  | .pshLit lit => pushOperand (litOperand lit)
  | .pshReg r => pushOperand (regOperand r)
  | .pop rd => intoReg rd pop
  | .callLit addr => callOperand (litOperand addr)
  | .callReg r => callOperand (regOperand r)
  | .ret => popState
  | .hlt => stop (.halt .normal)

/-- Every meaning performs one operation. -/
theorem exec_eq_perform (i : Instr) (s : State) : exec i s = perform (instrOp i) s := by cases i <;> rfl

/-- Every meaning has a next state. -/
theorem exec_next (i : Instr) (s : State) : ∃ t, exec i s = .next t := by
  rw [exec_eq_perform]
  unfold perform
  cases instrOp i s <;> exact ⟨_, rfl⟩

/-! ### Footprints -/

/-- The registers an instruction may write, `ip` apart where it is a register operand like any other (10_state.md R23). -/
def mayWrite : Instr → Reg → Prop
  | .movLitReg _ rd, q => q = rd
  | .movRegReg _ rd, q => q = rd
  | .movRegMem _ _, _ => False
  | .movMemReg _ rd, q => q = rd
  | .movLitMem _ _, _ => False
  | .movRegPtrReg _ rd, q => q = rd
  | .movLitOffReg _ _ rd, q => q = rd
  | .addRegReg _ _, q => q = .acc
  | .addLitReg _ _, q => q = .acc
  | .subLitReg _ _, q => q = .acc
  | .subRegLit _ _, q => q = .acc
  | .subRegReg _ _, q => q = .acc
  | .mulLitReg _ _, q => q = .acc
  | .mulRegReg _ _, q => q = .acc
  | .incReg r, q => q = r
  | .decReg r, q => q = r
  | .lsfRegLit r _, q => q = r
  | .lsfRegReg r _, q => q = r
  | .rsfRegLit r _, q => q = r
  | .rsfRegReg r _, q => q = r
  | .andRegLit _ _, q => q = .acc
  | .andRegReg _ _, q => q = .acc
  | .orRegLit _ _, q => q = .acc
  | .orRegReg _ _, q => q = .acc
  | .xorRegLit _ _, q => q = .acc
  | .xorRegReg _ _, q => q = .acc
  | .notReg r, q => q = r
  | .jmpNotEq _ _, q => q = .ip
  | .jneReg _ _, q => q = .ip
  | .jeqLit _ _, q => q = .ip
  | .jeqReg _ _, q => q = .ip
  | .jltLit _ _, q => q = .ip
  | .jltReg _ _, q => q = .ip
  | .jgtLit _ _, q => q = .ip
  | .jgtReg _ _, q => q = .ip
  | .jleLit _ _, q => q = .ip
  | .jleReg _ _, q => q = .ip
  | .jgeLit _ _, q => q = .ip
  | .jgeReg _ _, q => q = .ip
  | .pshLit _, q => q = .sp
  | .pshReg _, q => q = .sp
  | .pop rd, q => q = .sp ∨ q = rd
  | .callLit _, q => q = .ip ∨ q = .sp ∨ q = .fp
  | .callReg _, q => q = .ip ∨ q = .sp ∨ q = .fp
  | .ret, q => q ≠ .acc
  | .hlt, _ => False

/-- The instructions that may write the frame-byte counter (10_state.md R33). -/
def mayCount (i : Instr) : Prop := i.opcode ∈ [Opcode.pshLit, .pshReg, .pop, .callLit, .callReg, .ret]

variable {P : Reg → Prop} {F : Prop}

theorem keeps_litOperand (v : Word) : Keeps P F (litOperand v) := keeps_pure v
theorem keeps_regOperand (r : Reg) : Keeps P F (regOperand r) := keeps_getReg r
theorem keeps_absoluteOperand (a : Word) : Keeps P F (absoluteOperand a) := keeps_memRead16 _ _
theorem keeps_pointerOperand (r : Reg) : Keeps P F (pointerOperand r) := fun s => keeps_memRead16 .read (pointerAddress s r) s
theorem keeps_offsetOperand (b : Word) (r : Reg) : Keeps P F (offsetOperand b r) := fun s =>
  keeps_memRead16 .read (offsetAddress s b r) s

theorem Keeps.intoReg {src : Op Word} (h : Keeps P F src) {rd : Reg} (hr : P rd) : Keeps P F (intoReg rd src) :=
  h.bind fun _ => keeps_setReg _ hr
theorem Keeps.intoMemory {src : Op Word} (h : Keeps P F src) (a : Word) : Keeps P F (intoMemory a src) :=
  h.bind fun _ => keeps_memWrite16 _ _ _
theorem Keeps.intoAcc {l r : Op Word} (hl : Keeps P F l) (hr : Keeps P F r) (f : Word → Word → Word) (hacc : P .acc) :
    Keeps P F (intoAcc f l r) := hl.bind fun _ => hr.bind fun _ => keeps_setReg _ hacc
theorem keeps_inPlace (f : Word → Word) {r : Reg} (hr : P r) : Keeps P F (inPlace f r) :=
  (keeps_getReg r).bind fun _ => keeps_setReg _ hr
theorem Keeps.inPlaceBy {n : Op Word} (h : Keeps P F n) (f : Word → Word → Word) {r : Reg} (hr : P r) :
    Keeps P F (inPlaceBy f r n) := (keeps_getReg r).bind fun _ => h.bind fun _ => keeps_setReg _ hr
theorem Keeps.jumpIf {v : Op Word} (h : Keeps P F v) (rel : Relation) (a : Word) (hip : P .ip) :
    Keeps P F (jumpIf rel v a) := h.bind fun _ => (keeps_getReg _).bind fun _ => by
  split
  · exact keeps_setReg _ hip
  · exact keeps_pure ()
theorem Keeps.pushOperand {v : Op Word} (h : Keeps P F v) (hsp : P .sp) (hF : F) : Keeps P F (pushOperand v) :=
  h.bind fun _ => keeps_push _ hsp hF
theorem Keeps.callOperand {v : Op Word} (h : Keeps P F v) (hip : P .ip) (hsp : P .sp) (hfp : P .fp) (hF : F) :
    Keeps P F (callOperand v) :=
  h.bind fun _ => (keeps_pushState hsp hfp hF).bind fun _ => keeps_setReg _ hip

/-- What a performed operation with a footprint leaves. -/
theorem Keeps.perform {op : Op Unit} (h : Keeps P F op) {s t : State} (ht : perform op s = .next t) :
    ∃ u, Effects P F s u ∧ (t = u ∨ ∃ c, t = u.stopped (.fault c)) := by
  rcases perform_cases ht with hok | ⟨e, u, herr, rfl⟩
  · exact ⟨t, h.ok hok, .inl rfl⟩
  · obtain ⟨heff, c, rfl⟩ := h.error herr
    exact ⟨u, heff, .inr ⟨c, rfl⟩⟩

/-- The whole of what an instruction can do: elementary effects within its footprint, then possibly a fault, or HLT's halt. -/
theorem exec_effects {i : Instr} {s t : State} (h : exec i s = .next t) :
    ∃ u, Effects (mayWrite i) (mayCount i) s u ∧
      (t = u ∨ (∃ c, t = u.stopped (.fault c)) ∨ (i = .hlt ∧ t = u.stopped (.halt .normal))) := by
  have lift : ∀ {op : Op Unit}, Keeps (mayWrite i) (mayCount i) op → perform op s = .next t →
      ∃ u, Effects (mayWrite i) (mayCount i) s u ∧
        (t = u ∨ (∃ c, t = u.stopped (.fault c)) ∨ (i = .hlt ∧ t = u.stopped (.halt .normal))) := by
    intro op hk hp
    obtain ⟨u, heff, h'⟩ := hk.perform hp
    exact ⟨u, heff, h'.elim .inl fun h' => .inr (.inl h')⟩
  cases i with
  | movLitReg lit rd => exact lift ((keeps_litOperand _).intoReg rfl) h
  | movRegReg rs rd => exact lift ((keeps_regOperand _).intoReg rfl) h
  | movRegMem rs addr => exact lift ((keeps_regOperand _).intoMemory _) h
  | movMemReg addr rd => exact lift ((keeps_absoluteOperand _).intoReg rfl) h
  | movLitMem lit addr => exact lift ((keeps_litOperand _).intoMemory _) h
  | movRegPtrReg rp rd => exact lift ((keeps_pointerOperand _).intoReg rfl) h
  | movLitOffReg base ro rd => exact lift ((keeps_offsetOperand _ _).intoReg rfl) h
  | addRegReg ra rb => exact lift ((keeps_regOperand _).intoAcc (keeps_regOperand _) _ rfl) h
  | addLitReg lit r => exact lift ((keeps_litOperand _).intoAcc (keeps_regOperand _) _ rfl) h
  | subLitReg lit r => exact lift ((keeps_regOperand _).intoAcc (keeps_litOperand _) _ rfl) h
  | subRegLit r lit => exact lift ((keeps_litOperand _).intoAcc (keeps_regOperand _) _ rfl) h
  | subRegReg ra rb => exact lift ((keeps_regOperand _).intoAcc (keeps_regOperand _) _ rfl) h
  | mulLitReg lit r => exact lift ((keeps_litOperand _).intoAcc (keeps_regOperand _) _ rfl) h
  | mulRegReg ra rb => exact lift ((keeps_regOperand _).intoAcc (keeps_regOperand _) _ rfl) h
  | incReg r => exact lift (keeps_inPlace (fun v => add16 v 1) rfl) h
  | decReg r => exact lift (keeps_inPlace (fun v => sub16 v 1) rfl) h
  | lsfRegLit r n => exact lift ((keeps_litOperand _).inPlaceBy _ rfl) h
  | lsfRegReg r rn => exact lift ((keeps_regOperand _).inPlaceBy _ rfl) h
  | rsfRegLit r n => exact lift ((keeps_litOperand _).inPlaceBy _ rfl) h
  | rsfRegReg r rn => exact lift ((keeps_regOperand _).inPlaceBy _ rfl) h
  | andRegLit r lit => exact lift ((keeps_regOperand _).intoAcc (keeps_litOperand _) _ rfl) h
  | andRegReg ra rb => exact lift ((keeps_regOperand _).intoAcc (keeps_regOperand _) _ rfl) h
  | orRegLit r lit => exact lift ((keeps_regOperand _).intoAcc (keeps_litOperand _) _ rfl) h
  | orRegReg ra rb => exact lift ((keeps_regOperand _).intoAcc (keeps_regOperand _) _ rfl) h
  | xorRegLit r lit => exact lift ((keeps_regOperand _).intoAcc (keeps_litOperand _) _ rfl) h
  | xorRegReg ra rb => exact lift ((keeps_regOperand _).intoAcc (keeps_regOperand _) _ rfl) h
  | notReg r => exact lift (keeps_inPlace not16 rfl) h
  | jmpNotEq lit addr => exact lift ((keeps_litOperand _).jumpIf _ _ rfl) h
  | jneReg r addr => exact lift ((keeps_regOperand _).jumpIf _ _ rfl) h
  | jeqLit lit addr => exact lift ((keeps_litOperand _).jumpIf _ _ rfl) h
  | jeqReg r addr => exact lift ((keeps_regOperand _).jumpIf _ _ rfl) h
  | jltLit lit addr => exact lift ((keeps_litOperand _).jumpIf _ _ rfl) h
  | jltReg r addr => exact lift ((keeps_regOperand _).jumpIf _ _ rfl) h
  | jgtLit lit addr => exact lift ((keeps_litOperand _).jumpIf _ _ rfl) h
  | jgtReg r addr => exact lift ((keeps_regOperand _).jumpIf _ _ rfl) h
  | jleLit lit addr => exact lift ((keeps_litOperand _).jumpIf _ _ rfl) h
  | jleReg r addr => exact lift ((keeps_regOperand _).jumpIf _ _ rfl) h
  | jgeLit lit addr => exact lift ((keeps_litOperand _).jumpIf _ _ rfl) h
  | jgeReg r addr => exact lift ((keeps_regOperand _).jumpIf _ _ rfl) h
  | pshLit lit => exact lift ((keeps_litOperand _).pushOperand rfl (by simp [mayCount, Instr.opcode])) h
  | pshReg r => exact lift ((keeps_regOperand _).pushOperand rfl (by simp [mayCount, Instr.opcode])) h
  | pop rd => exact lift ((keeps_pop (.inl rfl) (by simp [mayCount, Instr.opcode])).intoReg (.inr rfl)) h
  | callLit addr => exact lift ((keeps_litOperand _).callOperand (.inl rfl) (.inr (.inl rfl)) (.inr (.inr rfl)) (by simp [mayCount, Instr.opcode])) h
  | callReg r => exact lift ((keeps_regOperand _).callOperand (.inl rfl) (.inr (.inl rfl)) (.inr (.inr rfl)) (by simp [mayCount, Instr.opcode])) h
  | ret => exact lift (keeps_popState (by simp [mayWrite]) (by simp [mayWrite]) (by simp [mayWrite])
      (by intro r hr; rintro rfl; revert hr; decide) (by simp [mayCount, Instr.opcode])) h
  | hlt => cases h; exact ⟨s, .refl, .inr (.inr ⟨rfl, rfl⟩)⟩

end Sys2Proof.Machine
end

