-- ==== Sys2Proof/Laws/Peripherals.lean ====
section
/-! SUPPORT. Accesses that reach a peripheral: the one result each has, and what a read can do to a state. -/

namespace Sys2Proof.Machine

/-- The state after a peripheral has received an access. -/
def State.received (s : State) (d : Nat) (h : List Config.DeviceAccess) (acc : Config.DeviceAccess) : State :=
  s.withDevice d (.peripheral (acc :: h))

@[simp] theorem received_regs (s : State) (d : Nat) (h : List Config.DeviceAccess) (acc : Config.DeviceAccess) :
    (s.received d h acc).regs = s.regs := rfl
@[simp] theorem received_fsz (s : State) (d : Nat) (h : List Config.DeviceAccess) (acc : Config.DeviceAccess) :
    (s.received d h acc).fsz = s.fsz := rfl
@[simp] theorem received_status (s : State) (d : Nat) (h : List Config.DeviceAccess) (acc : Config.DeviceAccess) :
    (s.received d h acc).status = s.status := rfl
@[simp] theorem reg_received (s : State) (d : Nat) (h : List Config.DeviceAccess) (acc : Config.DeviceAccess) (q : Reg) :
    (s.received d h acc).reg q = s.reg q := rfl

variable {s : State} {a la : Word} {d : Nat} {h : List Config.DeviceAccess}

/-- Receiving an access does that and nothing else. -/
theorem reachesPeripheral_received (hd : s.device d = .peripheral h) (acc : Config.DeviceAccess) :
    ReachesPeripheral d h acc s (s.received d h acc) where
  received := device_withDevice_same _ _ (device_lt_of_peripheral hd)
  others := fun _ he => device_withDevice_other _ _ he
  machine := ⟨rfl, rfl, rfl, rfl⟩

/-- A peripheral's history is no register and no status, so a state that agrees on the rest has been reached alike. -/
theorem ReachesPeripheral.congr {acc : Config.DeviceAccess} {t u : State} (ht : ReachesPeripheral d h acc s t)
    (hd : u.devices = t.devices) (hm : SameMachine t u) : ReachesPeripheral d h acc s u where
  received := (device_congr hd d).trans ht.received
  others := fun e he => (device_congr hd e).trans (ht.others e he)
  machine := ⟨hm.1.trans ht.machine.1, hm.2.trans ht.machine.2, hm.3.trans ht.machine.3, hm.4.trans ht.machine.4⟩

/-! ### The accesses -/

theorem memRead8_peripheral (hr : resolve s.regions a = some (d, la)) (hd : s.device d = .peripheral h)
    (kind : AccessKind) :
    memRead8 kind a s = if Config.deviceFails d h (.read8 la) then
      .error (.fault (.deviceFault ⟨kind, a, .byte⟩ la)) (s.received d h (.read8 la))
      else .ok (Config.deviceByte d h la) (s.received d h (.read8 la)) := by
  simp [memRead8, hr, deviceRead8, hd, peripheralAccess, State.received]

theorem memRead16_peripheral (hr : resolve s.regions a = some (d, la)) (hd : s.device d = .peripheral h)
    (kind : AccessKind) :
    memRead16 kind a s = if Config.deviceFails d h (.read16 la) then
      .error (.fault (.deviceFault ⟨kind, a, .word⟩ la)) (s.received d h (.read16 la))
      else .ok (Config.deviceWord d h la) (s.received d h (.read16 la)) := by
  simp [memRead16, hr, deviceRead16, hd, peripheralAccess, State.received]

theorem memWrite16_peripheral (hr : resolve s.regions a = some (d, la)) (hd : s.device d = .peripheral h)
    (kind : AccessKind) (v : Word) :
    memWrite16 kind a v s = if Config.deviceFails d h (.write16 la v) then
      .error (.fault (.deviceFault ⟨kind, a, .word⟩ la)) (s.received d h (.write16 la v))
      else .ok () (s.received d h (.write16 la v)) := by
  simp [memWrite16, hr, deviceWrite16, hd, peripheralAccess, State.received]

/-! ### What a read can do -/

theorem onlyPeripheralsReached_rfl (s : State) : OnlyPeripheralsReached s s where
  regs := fun _ _ => rfl
  fsz := rfl
  status := rfl
  machine := sameMachine_rfl s
  memories := fun _ _ => Iff.rfl
  bytes := fun _ => rfl

theorem OnlyPeripheralsReached.trans {t u : State} (h1 : OnlyPeripheralsReached s t) (h2 : OnlyPeripheralsReached t u) :
    OnlyPeripheralsReached s u where
  regs := fun r hr => (h2.regs r hr).trans (h1.regs r hr)
  fsz := h2.fsz.trans h1.fsz
  status := h2.status.trans h1.status
  machine := ⟨h2.machine.1.trans h1.machine.1, h2.machine.2.trans h1.machine.2, h2.machine.3.trans h1.machine.3,
    h2.machine.4.trans h1.machine.4⟩
  memories := fun d m => (h2.memories d m).trans (h1.memories d m)
  bytes := fun a => (h2.bytes a).trans (h1.bytes a)

theorem onlyPeripheralsReached_received (hd : s.device d = .peripheral h) (acc : Config.DeviceAccess) :
    OnlyPeripheralsReached s (s.received d h acc) := by
  have hsame : (s.received d h acc).device d = .peripheral (acc :: h) :=
    device_withDevice_same _ _ (device_lt_of_peripheral hd)
  have hother : ∀ e, e ≠ d → (s.received d h acc).device e = s.device e := fun _ he => device_withDevice_other _ _ he
  refine ⟨fun _ _ => rfl, rfl, rfl, ⟨rfl, rfl, rfl, rfl⟩, fun e m => ?_, fun a => ?_⟩
  · by_cases he : e = d
    · subst he; simp [hsame, hd]
    · rw [hother e he]
  · cases hr : resolve s.regions a with
    | none => rw [peek_eq_none (s := s.received d h acc) hr, peek_eq_none hr]
    | some p =>
      obtain ⟨e, la⟩ := p
      rw [peek_eq_localByte (s := s.received d h acc) hr, peek_eq_localByte hr]
      by_cases he : e = d
      · subst he; simp [State.localByte, hsame, hd]
      · simp [State.localByte, hother e he]

/-- A read leaves everything but a peripheral's history (20_memory.md R68). -/
theorem memRead8_reaches (kind : AccessKind) (a : Word) (s : State) :
    match memRead8 kind a s with
    | .ok _ t => OnlyPeripheralsReached s t
    | .error _ t => OnlyPeripheralsReached s t := by
  cases hr : resolve s.regions a with
  | none => simpa [memRead8, hr] using onlyPeripheralsReached_rfl s
  | some p =>
    obtain ⟨d, la⟩ := p
    cases hd : s.device d with
    | memory m =>
      by_cases hb : la.toNat < m.size <;>
        simpa [memRead8, hr, deviceRead8, hd, hb] using onlyPeripheralsReached_rfl s
    | peripheral h =>
      rw [memRead8_peripheral hr hd]
      split
      next heq => split at heq <;> cases heq; exact onlyPeripheralsReached_received hd _
      next heq => split at heq <;> cases heq; exact onlyPeripheralsReached_received hd _

/-- A read leaves everything but a peripheral's history (20_memory.md R68). -/
theorem memRead16_reaches (kind : AccessKind) (a : Word) (s : State) :
    match memRead16 kind a s with
    | .ok _ t => OnlyPeripheralsReached s t
    | .error _ t => OnlyPeripheralsReached s t := by
  cases hr : resolve s.regions a with
  | none => simpa [memRead16, hr] using onlyPeripheralsReached_rfl s
  | some p =>
    obtain ⟨d, la⟩ := p
    cases hd : s.device d with
    | memory m =>
      by_cases hb : la.toNat + 1 < m.size <;>
        simpa [memRead16, hr, deviceRead16, hd, hb] using onlyPeripheralsReached_rfl s
    | peripheral h =>
      rw [memRead16_peripheral hr hd]
      split
      next heq => split at heq <;> cases heq; exact onlyPeripheralsReached_received hd _
      next heq => split at heq <;> cases heq; exact onlyPeripheralsReached_received hd _

end Sys2Proof.Machine
end

