-- ==== Sys2Proof/Laws/Fetch.lean ====
section
/-! SUPPORT. The fetch unit against the decoder: the operand fetches of a mnemonic are fetches of its format's widths, and they
read what the decoder reads from the bytes fetched; and what those fetches give on memory, past it and on a peripheral. -/

namespace Sys2Proof.Machine

theorem ofNat_add_ofNat (a b : Nat) : BitVec.ofNat 16 a + BitVec.ofNat 16 b = BitVec.ofNat 16 (a + b) :=
  (BitVec.ofNat_add a b).symm

theorem add_ofNat_succ (w : Word) (k : Nat) : w + 1 + BitVec.ofNat 16 k = w + BitVec.ofNat 16 (k + 1) := by
  rw [BitVec.add_assoc, show (1 : Word) = BitVec.ofNat 16 1 from rfl, ofNat_add_ofNat, Nat.add_comm]

@[simp] theorem withReg_withReg_same (s : State) (r : Reg) (v w : Word) :
    (s.withReg r v).withReg r w = s.withReg r w := by
  cases r <;> rfl

@[simp] theorem run_getParams (s : State) : getParams s = .ok s.params s := rfl

/-! ### The fetch unit follows the decoder -/

/-- `y` is fetches of the widths `ws` and reads from the bytes fetched what the decoder's reader `x` reads from them; where a fetch
fails, `y` ends with it. -/
def FetchesAs {α : Type} (ws : List Width) (x : ByteReader α) (y : Op α) : Prop :=
  ∀ s, match fetchAll ws s with
    | .ok bs t => ∃ a, y s = .ok a t ∧ ∀ rest, x (bs ++ rest) = .ok a rest
    | .error e t => y s = .error e t

theorem FetchesAs.ok {α : Type} {ws : List Width} {x : ByteReader α} {y : Op α} (h : FetchesAs ws x y) {s t : State}
    {bs : List Byte} (hs : fetchAll ws s = .ok bs t) : ∃ a, y s = .ok a t ∧ ∀ rest, x (bs ++ rest) = .ok a rest := by
  have := h s
  rwa [hs] at this

theorem FetchesAs.error {α : Type} {ws : List Width} {x : ByteReader α} {y : Op α} (h : FetchesAs ws x y) {s t : State}
    {e : Stop} (hs : fetchAll ws s = .error e t) : y s = .error e t := by
  have := h s
  rwa [hs] at this

theorem run_fetchAll_cons (w : Width) (ws : List Width) (s : State) :
    fetchAll (w :: ws) s = match fetchOne w s with
      | .ok bs t => match fetchAll ws t with
        | .ok more u => .ok (bs ++ more) u
        | .error e u => .error e u
      | .error e t => .error e t := by
  simp only [fetchAll, run_bind, run_pure]
  cases fetchOne w s with
  | error e t => rfl
  | ok bs t => cases h : fetchAll ws t <;> simp only [h]

theorem fetchesAs_pure {α : Type} (a : α) : FetchesAs [] (pure a) (pure a : Op α) := fun _ => ⟨a, rfl, fun _ => rfl⟩

/-- One fetch of a width. -/
def FetchesOne {α : Type} (w : Width) (x : ByteReader α) (y : Op α) : Prop :=
  ∀ s, match fetchOne w s with
    | .ok bs t => ∃ a, y s = .ok a t ∧ ∀ rest, x (bs ++ rest) = .ok a rest
    | .error e t => y s = .error e t

theorem FetchesAs.cons {α β : Type} {w : Width} {ws : List Width} {x : ByteReader α} {y : Op α} {f : α → ByteReader β}
    {g : α → Op β} (h : FetchesOne w x y) (hf : ∀ a, FetchesAs ws (f a) (g a)) :
    FetchesAs (w :: ws) (x >>= f) (y >>= g) := by
  intro s
  have h1 := h s
  rw [run_fetchAll_cons]
  cases ho : fetchOne w s with
  | error e t =>
    rw [ho] at h1
    exact bind_error h1
  | ok bs t =>
    rw [ho] at h1
    obtain ⟨a, hy, hx⟩ := h1
    have h2 := hf a t
    simp only
    cases ha : fetchAll ws t with
    | error e u =>
      rw [ha] at h2
      exact (bind_ok hy).trans h2
    | ok more u =>
      rw [ha] at h2
      obtain ⟨b, hg, hfb⟩ := h2
      refine ⟨b, (bind_ok hy).trans hg, fun rest => ?_⟩
      rw [List.append_assoc, reader_bind, hx]
      exact hfb rest

theorem fetchesOne_byte : FetchesOne .byte nextByte fetch8 := by
  intro s
  simp only [fetchOne, run_bind, run_pure]
  cases fetch8 s with
  | ok b t => exact ⟨b, rfl, fun _ => rfl⟩
  | error e t => rfl

theorem fetchesOne_word : FetchesOne .word nextWord fetch16 := by
  intro s
  simp only [fetchOne, run_bind, run_pure]
  cases fetch16 s with
  | ok w t => exact ⟨w, rfl, nextWord_wordBytes w⟩
  | error e t => rfl

/-- What is computed from a fetched value is computed alike on both sides. -/
theorem FetchesOne.map {α β : Type} {w : Width} {x : ByteReader α} {y : Op α} (h : FetchesOne w x y) (f : α → β) :
    FetchesOne w (x >>= fun a => pure (f a)) (y >>= fun a => pure (f a)) := by
  intro s
  have h1 := h s
  cases ho : fetchOne w s with
  | error e t =>
    rw [ho] at h1
    exact bind_error h1
  | ok bs t =>
    rw [ho] at h1
    obtain ⟨a, hy, hx⟩ := h1
    refine ⟨f a, bind_ok hy, fun rest => ?_⟩
    rw [reader_bind, hx]
    rfl

theorem fetchesOne_reg : FetchesOne .byte nextReg fetchReg := fetchesOne_byte.map regOfByte

/-- The width of a shift literal's fetch (42_logic_shift.md R181). -/
def shiftLitFetch : Config.ShiftLitWidth → Width
  | .bits16 => .word
  | .bits8 => .byte

theorem fetchesOne_shiftLit (w : Config.ShiftLitWidth) :
    FetchesOne (shiftLitFetch w) (nextShiftLit w) (fetchShiftLit w) := by
  cases w with
  | bits16 => exact fetchesOne_word
  | bits8 => exact fetchesOne_byte.map zext

/-- The operand fetches of a mnemonic are those of its format, and read what the decoder reads. -/
theorem fetchesAs_operands (w : Config.ShiftLitWidth) (o : Opcode) :
    FetchesAs (operandWidths (opcodeFormat w o)) (readOperands nextReg nextWord (nextShiftLit w) o)
      (readOperands fetchReg fetch16 (fetchShiftLit w) o) := by
  have hr := fetchesOne_reg
  have hw := fetchesOne_word
  have hs := fetchesOne_shiftLit w
  cases w <;> cases o <;>
    first
    | exact fetchesAs_pure _
    | exact .cons hr fun _ => fetchesAs_pure _
    | exact .cons hw fun _ => fetchesAs_pure _
    | exact .cons hr fun _ => .cons hr fun _ => fetchesAs_pure _
    | exact .cons hr fun _ => .cons hw fun _ => fetchesAs_pure _
    | exact .cons hr fun _ => .cons hs fun _ => fetchesAs_pure _
    | exact .cons hw fun _ => .cons hr fun _ => fetchesAs_pure _
    | exact .cons hw fun _ => .cons hw fun _ => fetchesAs_pure _
    | exact .cons hw fun _ => .cons hr fun _ => .cons hr fun _ => fetchesAs_pure _

/-! ### Fetches from memory -/

theorem fetchedAt_congr {s t : State} (hr : t.regions = s.regions) (hd : t.devices = s.devices) (a : Word) (w : Width) :
    t.fetchedAt a w = s.fetchedAt a w := by
  cases w with
  | byte => simp only [State.fetchedAt, peek_congr hr hd]
  | word => simp only [State.fetchedAt, wordSlot_congr hr hd, slotWord_congr hd]

theorem fetchedFrom_congr {s t : State} (hr : t.regions = s.regions) (hd : t.devices = s.devices) (a : Word)
    (ws : List Width) : t.fetchedFrom a ws = s.fetchedFrom a ws := by
  induction ws generalizing a with
  | nil => rfl
  | cons w ws ih => simp only [State.fetchedFrom, fetchedAt_congr hr hd, ih]

theorem fetchedFrom_withReg (s : State) (r : Reg) (v a : Word) (ws : List Width) :
    (s.withReg r v).fetchedFrom a ws = s.fetchedFrom a ws :=
  fetchedFrom_congr (s := s) (t := s.withReg r v) rfl rfl a ws

theorem fetchedAt_length {s : State} {a : Word} {w : Width} {bs : List Byte} (h : s.fetchedAt a w = some bs) :
    bs.length = w.bytes := by
  cases w <;> (simp only [State.fetchedAt, Option.map_eq_some_iff] at h; obtain ⟨_, _, rfl⟩ := h; rfl)

theorem fetchedFrom_cons {s : State} {a : Word} {w : Width} {ws : List Width} {bs : List Byte}
    (h : s.fetchedFrom a (w :: ws) = some bs) :
    ∃ first more, bs = first ++ more ∧ s.fetchedAt a w = some first ∧
      s.fetchedFrom (a + BitVec.ofNat 16 w.bytes) ws = some more := by
  rw [State.fetchedFrom] at h
  split at h
  next first more h1 h2 => exact ⟨first, more, (Option.some.inj h).symm, h1, h2⟩
  next => cases h

theorem fetchedFrom_length {s : State} {a : Word} {ws : List Width} {bs : List Byte}
    (h : s.fetchedFrom a ws = some bs) : bs.length = fetchBytes ws := by
  induction ws generalizing a bs with
  | nil => cases h; rfl
  | cons w ws ih =>
    obtain ⟨first, more, rfl, h1, h2⟩ := fetchedFrom_cons h
    rw [List.length_append, fetchedAt_length h1, ih h2]
    rfl

/-- A fetch from memory gives the bytes there and moves `ip` past them (30_encoding.md R104, R105). -/
theorem fetch8_peek {s : State} {b : Byte} (h : s.peek (s.reg .ip) = some b) :
    fetch8 s = .ok b (s.withReg .ip (s.reg .ip + 1)) := by
  simp only [fetch8, run_bind, run_pure, run_getReg, run_setReg, memRead8_peek h]

theorem fetchOne_fetched {s : State} {w : Width} {bs : List Byte} (h : s.fetchedAt (s.reg .ip) w = some bs) :
    fetchOne w s = .ok bs (s.withReg .ip (s.reg .ip + BitVec.ofNat 16 w.bytes)) := by
  cases w with
  | byte =>
    simp only [State.fetchedAt, Option.map_eq_some_iff] at h
    obtain ⟨b, hb, rfl⟩ := h
    simp only [fetchOne, run_bind, run_pure, fetch8_peek hb]
    rfl
  | word =>
    simp only [State.fetchedAt, Option.map_eq_some_iff] at h
    obtain ⟨slot, hs, rfl⟩ := h
    simp only [fetchOne, fetch16, run_bind, run_pure, run_getReg, run_setReg, memRead16_slot hs]
    rfl

/-- Fetches from memory, then what follows them: `ip` has moved past their bytes and nothing else has changed. -/
theorem fetchAll_append {s : State} {ws : List Width} {bs : List Byte} (h : s.fetchedFrom (s.reg .ip) ws = some bs)
    (vs : List Width) :
    fetchAll (ws ++ vs) s = match fetchAll vs (s.withReg .ip (s.reg .ip + BitVec.ofNat 16 bs.length)) with
      | .ok more t => .ok (bs ++ more) t
      | .error e t => .error e t := by
  induction ws generalizing s bs with
  | nil =>
    cases h
    have hself : s.withReg .ip (s.reg .ip + BitVec.ofNat 16 ([] : List Byte).length) = s := by
      rw [List.length_nil, BitVec.add_zero]
      rfl
    rw [hself, List.nil_append]
    cases fetchAll vs s <;> rfl
  | cons w ws ih =>
    obtain ⟨first, more, rfl, h1, h2⟩ := fetchedFrom_cons h
    rw [List.cons_append, run_fetchAll_cons, fetchOne_fetched h1]
    have h3 : (s.withReg .ip (s.reg .ip + BitVec.ofNat 16 w.bytes)).fetchedFrom
        ((s.withReg .ip (s.reg .ip + BitVec.ofNat 16 w.bytes)).reg .ip) ws = some more := by
      rw [reg_withReg_same, fetchedFrom_withReg]
      exact h2
    simp only [ih h3, withReg_withReg_same, reg_withReg_same, BitVec.add_assoc, ofNat_add_ofNat, List.length_append,
      fetchedAt_length h1, List.append_assoc]
    cases fetchAll vs (s.withReg .ip (s.reg .ip + BitVec.ofNat 16 (w.bytes + more.length))) <;> rfl

theorem fetchAll_fetched {s : State} {ws : List Width} {bs : List Byte} (h : s.fetchedFrom (s.reg .ip) ws = some bs) :
    fetchAll ws s = .ok bs (s.withReg .ip (s.reg .ip + BitVec.ofNat 16 bs.length)) := by
  have := fetchAll_append h []
  rw [List.append_nil] at this
  rw [this]
  simp [fetchAll, run_pure]

/-! ### Fetches that fail -/

theorem fetchOne_faults {s : State} {w : Width} {cause : FaultCause} (h : AccessFaults s ⟨.fetch, s.reg .ip, w⟩ cause) :
    fetchOne w s = .error (.fault cause) s := by
  cases w with
  | byte => simp only [fetchOne, fetch8, run_bind, run_getReg, memRead8_faults h]
  | word => simp only [fetchOne, fetch16, run_bind, run_getReg, memRead16_faults h]

theorem split_at {ws : List Width} {k : Nat} {w : Width} (hw : ws[k]? = some w) :
    ws = ws.take k ++ w :: ws.drop (k + 1) := by
  obtain ⟨hk, rfl⟩ := List.getElem?_eq_some_iff.mp hw
  rw [← List.drop_eq_getElem_cons hk, List.take_append_drop]

/-- Fetches from memory up to number `k`, which fails: the failure ends them. -/
theorem fetchAll_error {s t : State} {ws : List Width} {k : Nat} {w : Width} {bs : List Byte} {e : Stop}
    (h : s.fetchedFrom (s.reg .ip) (ws.take k) = some bs) (hw : ws[k]? = some w)
    (he : fetchOne w (s.withReg .ip (s.reg .ip + BitVec.ofNat 16 bs.length)) = .error e t) :
    fetchAll ws s = .error e t := by
  rw [split_at hw, fetchAll_append h, run_fetchAll_cons, he]

/-! ### Fetches from a peripheral -/

section
variable {s : State} {la : Word} {d : Nat} {h : List Config.DeviceAccess}

/-- `Fetch8` at a peripheral: it receives one `read8`; `ip` moves only where it answers (20_memory.md R56, 30_encoding.md R104). -/
theorem fetch8_peripheral (hr : resolve s.regions (s.reg .ip) = some (d, la)) (hd : s.device d = .peripheral h) :
    fetch8 s = if Config.deviceFails d h (.read8 la) then
      .error (.fault (.deviceFault ⟨.fetch, s.reg .ip, .byte⟩ la)) (s.received d h (.read8 la))
      else .ok (Config.deviceByte d h la) ((s.received d h (.read8 la)).withReg .ip (s.reg .ip + 1)) := by
  simp only [fetch8, run_bind, run_pure, run_getReg, run_setReg, memRead8_peripheral hr hd]
  by_cases hf : Config.deviceFails d h (.read8 la) = true
  · simp only [if_pos hf]
  · simp only [if_neg hf, reg_received]

theorem fetch16_peripheral (hr : resolve s.regions (s.reg .ip) = some (d, la)) (hd : s.device d = .peripheral h) :
    fetch16 s = if Config.deviceFails d h (.read16 la) then
      .error (.fault (.deviceFault ⟨.fetch, s.reg .ip, .word⟩ la)) (s.received d h (.read16 la))
      else .ok (Config.deviceWord d h la) ((s.received d h (.read16 la)).withReg .ip (s.reg .ip + 2)) := by
  simp only [fetch16, run_bind, run_pure, run_getReg, run_setReg, memRead16_peripheral hr hd]
  by_cases hf : Config.deviceFails d h (.read16 la) = true
  · simp only [if_pos hf]
  · simp only [if_neg hf, reg_received]

/-- Either of them, its answer as bytes. -/
theorem fetchOne_peripheral (hr : resolve s.regions (s.reg .ip) = some (d, la)) (hd : s.device d = .peripheral h)
    (w : Width) :
    fetchOne w s = if Config.deviceFails d h (readAccess la w) then
      .error (.fault (.deviceFault ⟨.fetch, s.reg .ip, w⟩ la)) (s.received d h (readAccess la w))
      else .ok (answerBytes d h la w)
        ((s.received d h (readAccess la w)).withReg .ip (s.reg .ip + BitVec.ofNat 16 w.bytes)) := by
  cases w with
  | byte =>
    have h1 := fetch8_peripheral hr hd
    by_cases hf : Config.deviceFails d h (readAccess la .byte) = true
    · rw [if_pos hf]
      exact bind_error (h1.trans (if_pos hf))
    · rw [if_neg hf]
      exact bind_ok (h1.trans (if_neg hf))
  | word =>
    have h1 := fetch16_peripheral hr hd
    by_cases hf : Config.deviceFails d h (readAccess la .word) = true
    · rw [if_pos hf]
      exact bind_error (h1.trans (if_pos hf))
    · rw [if_neg hf]
      exact bind_ok (h1.trans (if_neg hf))

/-- What a peripheral receives changes no byte that a fetch reads from memory. -/
theorem fetchedAt_received (hd : s.device d = .peripheral h) (acc : Config.DeviceAccess) (a : Word) (w : Width) :
    (s.received d h acc).fetchedAt a w = s.fetchedAt a w := by
  have hsame : (s.received d h acc).device d = .peripheral (acc :: h) :=
    device_withDevice_same _ _ (device_lt_of_peripheral hd)
  have hother : ∀ e, e ≠ d → (s.received d h acc).device e = s.device e := fun _ he => device_withDevice_other _ _ he
  cases w with
  | byte => simp only [State.fetchedAt, (onlyPeripheralsReached_received hd acc).bytes]
  | word =>
    cases hr : resolve s.regions a with
    | none => simp [State.fetchedAt, State.wordSlot, hr, show resolve (s.received d h acc).regions a = none from hr]
    | some p =>
      obtain ⟨e, k⟩ := p
      have hr' : resolve (s.received d h acc).regions a = some (e, k) := hr
      by_cases he : e = d
      · subst he
        simp [State.fetchedAt, State.wordSlot, hr, hr', hd, hsame]
      · cases hm : s.device e with
        | peripheral q => simp [State.fetchedAt, State.wordSlot, hr, hr', hother e he, hm]
        | memory m =>
          by_cases hlt : k.toNat + 1 < m.size <;>
            simp [State.fetchedAt, State.wordSlot, State.slotWord, hr, hr', hother e he, hm, hlt]

theorem fetchedFrom_received (hd : s.device d = .peripheral h) (acc : Config.DeviceAccess) (a : Word)
    (ws : List Width) : (s.received d h acc).fetchedFrom a ws = s.fetchedFrom a ws := by
  induction ws generalizing a with
  | nil => rfl
  | cons w ws ih => simp only [State.fetchedFrom, fetchedAt_received hd, ih]

end

/-! ### Code in one memory device -/

/-- The bytes from a global address on are `bs`, each mapped to consecutive bytes of memory device `d` from local address `la`
on. -/
structure CodeAt (s : State) (a : Word) (d : Nat) (la : Word) (m : Memory) (bs : List Byte) : Prop where
  device : s.device d = .memory m
  inside : la.toNat + bs.length ≤ m.size
  low : la.toNat + bs.length ≤ 0x10000
  mapped : ∀ k, k < bs.length → resolve s.regions (a + BitVec.ofNat 16 k) = some (d, la + BitVec.ofNat 16 k)
  bytes : ∀ k b, bs[k]? = some b → m.byteAt d (la.toNat + k) = b

/-- Where the code goes on after `n` bytes. -/
theorem CodeAt.drop {s : State} {a : Word} {d : Nat} {la : Word} {m : Memory} {bs : List Byte} (h : CodeAt s a d la m bs)
    {n : Nat} (hn : n < bs.length) :
    CodeAt s (a + BitVec.ofNat 16 n) d (la + BitVec.ofNat 16 n) m (bs.drop n) := by
  have hin := h.inside
  have hlow := h.low
  have hla : (la + BitVec.ofNat 16 n).toNat = la.toNat + n := by
    rw [BitVec.toNat_add, BitVec.toNat_ofNat]
    omega
  refine ⟨h.device, by rw [hla, List.length_drop]; omega, by rw [hla, List.length_drop]; omega, fun k hk => ?_, fun k b hb => ?_⟩
  · rw [List.length_drop] at hk
    rw [BitVec.add_assoc, BitVec.add_assoc, ofNat_add_ofNat]
    exact h.mapped (n + k) (by omega)
  · rw [List.getElem?_drop] at hb
    rw [hla, Nat.add_assoc]
    exact h.bytes _ _ hb

theorem CodeAt.fetchedAt {s : State} {a : Word} {d : Nat} {la : Word} {m : Memory} {bs : List Byte}
    (h : CodeAt s a d la m bs) {w : Width} (hw : w.bytes ≤ bs.length) : s.fetchedAt a w = some (bs.take w.bytes) := by
  have hin := h.inside
  cases w with
  | byte =>
    simp only [Width.bytes] at hw
    match bs, h, hw with
    | b :: rest, h, _ =>
      have hr : resolve s.regions a = some (d, la) := by simpa using h.mapped 0 (by simp)
      have hb : m.byteAt d la.toNat = b := by simpa using h.bytes 0 b rfl
      simp only [List.length_cons] at hin
      simp [State.fetchedAt, State.peek, hr, h.device, hb, show la.toNat < m.size by omega, Width.bytes]
  | word =>
    simp only [Width.bytes] at hw
    match bs, h, hw with
    | hi :: lo :: rest, h, _ =>
      have hr : resolve s.regions a = some (d, la) := by simpa using h.mapped 0 (by simp)
      have hb0 : m.byteAt d la.toNat = hi := by simpa using h.bytes 0 hi rfl
      have hb1 : m.byteAt d (la.toNat + 1) = lo := h.bytes 1 lo rfl
      simp only [List.length_cons] at hin
      simp [State.fetchedAt, State.wordSlot, State.slotWord, hr, h.device, Memory.wordAt, hb0, hb1,
        show la.toNat + 1 < m.size by omega, Width.bytes, wordBytes]

/-- Fetches inside such code read its bytes. -/
theorem CodeAt.fetchedFrom {s : State} {a : Word} {d : Nat} {la : Word} {m : Memory} {bs : List Byte}
    (h : CodeAt s a d la m bs) {ws : List Width} (hw : fetchBytes ws ≤ bs.length) :
    s.fetchedFrom a ws = some (bs.take (fetchBytes ws)) := by
  induction ws generalizing a la bs with
  | nil => rfl
  | cons w ws ih =>
    have hw' : w.bytes + fetchBytes ws ≤ bs.length := hw
    have h1 := h.fetchedAt (w := w) (by omega)
    have h2 : s.fetchedFrom (a + BitVec.ofNat 16 w.bytes) ws = some ((bs.drop w.bytes).take (fetchBytes ws)) := by
      rcases Nat.lt_or_ge w.bytes bs.length with hlt | hge
      · exact ih (h.drop hlt) (by rw [List.length_drop]; omega)
      · match ws with
        | [] => rfl
        | v :: vs =>
          have hv : 0 < v.bytes := by cases v <;> decide
          simp only [fetchBytes] at hw'
          omega
    simp only [State.fetchedFrom, h1, h2, fetchBytes, List.take_add]

/-- Code at `ip`, from the observation `codeBytes`. -/
theorem codeAt_of_codeBytes {s : State} {n : Nat} {bs : List Byte} (h : s.codeBytes n = some bs) :
    bs.length = n ∧ ∃ d la m, CodeAt s (s.reg .ip) d la m bs := by
  unfold State.codeBytes at h
  cases hr : resolve s.regions (s.reg .ip) with
  | none => simp [hr] at h
  | some p =>
    obtain ⟨d, la⟩ := p
    cases hd : s.device d with
    | peripheral q => simp [hr, hd] at h
    | memory m =>
      simp only [hr, hd] at h
      split at h
      next hc =>
        obtain ⟨h1, h2, h3⟩ := hc
        cases h
        refine ⟨by simp, d, la, m, hd, by simpa using h1, by simpa using h2, ?_, ?_⟩
        · intro k hk; exact h3 k (by simpa using hk)
        · intro k b hb
          simp only [List.getElem?_map, Option.map_eq_some_iff] at hb
          obtain ⟨j, hj, rfl⟩ := hb
          rw [List.getElem?_range] at hj
          · cases hj; rfl
          · by_contra hge
            rw [List.getElem?_eq_none (by simpa using hge)] at hj
            cases hj
      next => cases h

end Sys2Proof.Machine
end

