-- ==== Sys2Proof/Laws/Flat.lean ====
section
/-! SUPPORT. The default map (20_memory.md R69): every address resolves to main memory at the same local address, and every
word but the one at 0xFFFF has a slot. -/

namespace Sys2Proof.Machine

theorem FlatMap.resolve {s : State} (h : FlatMap s) (a : Word) : resolve s.regions a = some (mainDevice, a) := by
  have hhi : a ≤ (0xFFFF : Word) := by
    rw [BitVec.le_def]; have := a.isLt; have : (0xFFFF : Word).toNat = 65535 := rfl; omega
  have hlo : (0x0000 : Word) ≤ a := by rw [BitVec.le_def]; exact Nat.zero_le _
  have hin : regionHolds mainRegion a = true := by
    rw [regionHolds, Bool.and_eq_true]
    exact ⟨decide_eq_true hlo, decide_eq_true hhi⟩
  rw [h.1, Machine.resolve, if_pos hin]
  rfl

theorem FlatMap.memory {s : State} (h : FlatMap s) :
    ∃ cells, s.device mainDevice = .memory { size := Config.mainMemorySize, cells := cells } := by
  obtain ⟨_, cells, hd⟩ := h
  exact ⟨cells, by simp [State.device, hd, mainDevice]⟩

theorem FlatMap.wordSlot {s : State} (h : FlatMap s) {a : Word} (ha : a ≠ 0xFFFF) :
    s.wordSlot a = some (mainDevice, a.toNat) := by
  obtain ⟨cells, hd⟩ := h.memory
  have hne : a.toNat ≠ 65535 := fun hn => ha (BitVec.eq_of_toNat_eq hn)
  have hlt : a.toNat + 1 < 65536 := by have := a.isLt; omega
  simp [State.wordSlot, h.resolve, hd, Config.mainMemorySize, hlt]

theorem FlatMap.peek {s : State} (h : FlatMap s) (a : Word) : s.peek a = s.localByte mainDevice a.toNat :=
  peek_eq_localByte (h.resolve a)

/-- Under the default map the bytes from `ip` up to the top of memory are code bytes. -/
theorem FlatMap.codeBytes {s : State} (h : FlatMap s) {n : Nat} (hn : (s.reg .ip).toNat + n ≤ 0x10000) (hpos : 0 < n) :
    ∃ bs, s.codeBytes n = some bs ∧ bs.head? = s.peek (s.reg .ip) := by
  obtain ⟨cells, hd⟩ := h.memory
  have hlt : (s.reg .ip).toNat < Config.mainMemorySize := (s.reg .ip).isLt
  unfold State.codeBytes
  simp only [h.resolve, hd]
  rw [if_pos ⟨hn, hn, fun _ _ => trivial⟩]
  refine ⟨_, rfl, ?_⟩
  obtain ⟨m, rfl⟩ := Nat.exists_eq_succ_of_ne_zero (Nat.pos_iff_ne_zero.mp hpos)
  simp [List.range_succ_eq_map, h.peek, State.localByte, hd, hlt]

theorem FlatMap.slotIn {s : State} (h : FlatMap s) {a : Word} (ha : a ≠ 0xFFFF) :
    SlotIn s (mainDevice, a.toNat) := slotIn_of_wordSlot (h.wordSlot ha)

/-- The map depends on the regions and the devices alone. -/
theorem FlatMap.congr {s t : State} (h : FlatMap s) (hr : t.regions = s.regions) (hd : t.devices = s.devices) :
    FlatMap t := by
  obtain ⟨h1, cells, h2⟩ := h
  exact ⟨hr.trans h1, cells, hd.trans h2⟩

theorem FlatMap.withReg {s : State} (h : FlatMap s) (r : Reg) (v : Word) : FlatMap (s.withReg r v) := h.congr rfl rfl
theorem FlatMap.withFsz {s : State} (h : FlatMap s) (v : Word) : FlatMap (s.withFsz v) := h.congr rfl rfl

theorem FlatMap.storeWord {s : State} (h : FlatMap s) (k : Nat) (v : Word) :
    FlatMap (s.storeWord (mainDevice, k) v) := by
  obtain ⟨h1, cells, h2⟩ := h
  refine ⟨by simpa using h1, putCell (k + 1) (loByte v) (putCell k (hiByte v) cells), ?_⟩
  simp [State.storeWord, State.device, h2, mainDevice, State.withDevice, Memory.putWord, Memory.putByte]

theorem flatWord_congr {s t : State} (hd : t.devices = s.devices) (a : Word) : t.flatWord a = s.flatWord a :=
  slotWord_congr hd _

end Sys2Proof.Machine
end

