-- ==== Sys2Proof/Laws/Frame.lean ====
section
/-! SUPPORT. Runs of pushes and of pops, and the pseudocode of PushState and PopState in terms of them. -/

namespace Sys2Proof.Machine

/-! ### Pushing a list of words -/

/-- Push words in order. -/
def pushAll : List Word → Op Unit
  | [] => pure ()
  | v :: rest => do push v; pushAll rest

/-- Only `sp`, the counter and memory tell a state after pushes from the one before. -/
structure PushedFrom (s t : State) : Prop where
  regs : ∀ r, r ≠ .sp → t.reg r = s.reg r
  status : t.status = s.status
  machine : SameMachine s t

theorem pushedFrom_refl (s : State) : PushedFrom s s := ⟨fun _ _ => rfl, rfl, sameMachine_rfl s⟩

theorem PushedFrom.trans {s t u : State} (h : PushedFrom s t) (k : PushedFrom t u) : PushedFrom s u where
  regs := fun r hr => (k.regs r hr).trans (h.regs r hr)
  status := k.status.trans h.status
  machine := ⟨k.machine.regions.trans h.machine.regions, k.machine.nextToken.trans h.machine.nextToken,
    k.machine.started.trans h.machine.started, k.machine.params.trans h.machine.params⟩

/-- The state after a push into a slot. -/
def State.pushed (s : State) (slot : Nat × Nat) (v : Word) : State :=
  ((s.storeWord slot v).withReg .sp (s.reg .sp - 2)).withFsz (s.fsz + 2)

theorem pushedFrom_pushed (s : State) (slot : Nat × Nat) (v : Word) : PushedFrom s (s.pushed slot v) where
  regs := fun r hr => by simp [State.pushed, reg_withReg_other _ _ hr]
  status := by simp [State.pushed]
  machine := by constructor <;> simp [State.pushed]

/-- A push never changes a register but `sp`, whatever it meets. -/
theorem push_reg {s t : State} {v : Word} (h : push v s = .ok () t) {r : Reg} (hr : r ≠ .sp) : t.reg r = s.reg r :=
  (Keeps.ok (keeps_push (P := fun q => q = .sp) (F := True) v rfl trivial) h).reg_eq hr

theorem keeps_pushAll (ws : List Word) : Keeps (· = .sp) True (pushAll ws) := by
  induction ws with
  | nil => exact keeps_pure _
  | cons v ws ih => exact (keeps_push (P := (· = .sp)) v rfl trivial).bind fun _ => ih

theorem pushAll_effects {ws : List Word} {s t : State} (h : pushAll ws s = .ok () t) : Effects (· = .sp) True s t :=
  (keeps_pushAll ws).ok h

/-- The counter after a completed push (44_stack_call.md R240). -/
theorem push_fsz {s t : State} {v : Word} (h : push v s = .ok () t) : t.fsz = s.fsz + 2 := by
  simp only [push, run_bind, run_getReg] at h
  cases hw : memWrite16 .write (s.reg .sp) v s with
  | error e u => rw [hw] at h; cases h
  | ok a u =>
    have hu : u.fsz = s.fsz :=
      (Keeps.ok (keeps_memWrite16 (P := fun _ => False) (F := False) .write (s.reg .sp) v) hw).fsz_eq id
    rw [hw] at h
    simp only [run_setReg, run_getFsz, run_setFsz] at h
    cases h
    simp [hu]

/-- Pushing registers other than `sp` pushes the values they have at the start. -/
theorem pushRegs_eq (l : List Reg) (hl : .sp ∉ l) (s : State) : pushRegs l s = pushAll (l.map s.reg) s := by
  induction l generalizing s with
  | nil => rfl
  | cons r l ih =>
    have hl' : Reg.sp ∉ l := fun h => hl (List.mem_cons_of_mem _ h)
    simp only [pushRegs, List.map_cons, pushAll, run_bind, run_getReg]
    cases hp : push (s.reg r) s with
    | error e t => rfl
    | ok a t =>
      have : l.map t.reg = l.map s.reg := List.map_congr_left fun q hq =>
        push_reg hp (fun h => hl' (h ▸ hq))
      simp only [ih hl' t, this]

theorem pushAll_append (xs ys : List Word) : pushAll (xs ++ ys) = (do pushAll xs; pushAll ys) := by
  induction xs with
  | nil => funext s; simp [pushAll, run_bind, run_pure]
  | cons v xs ih =>
    funext s
    simp only [List.cons_append, pushAll, ih, run_bind]
    cases push v s <;> rfl

theorem pushAll_reg {ws : List Word} {s t : State} (h : pushAll ws s = .ok () t) {r : Reg} (hr : r ≠ .sp) :
    t.reg r = s.reg r := (pushAll_effects h).reg_eq hr

theorem pushAll_fsz {ws : List Word} {s t : State} (h : pushAll ws s = .ok () t) :
    t.fsz = s.fsz + BitVec.ofNat 16 (2 * ws.length) := by
  induction ws generalizing s with
  | nil => cases h; simp
  | cons v ws ih =>
    simp only [pushAll, run_bind] at h
    cases hp : push v s with
    | error e u => rw [hp] at h; cases h
    | ok a u =>
      rw [hp] at h
      have := ih h
      rw [push_fsz hp] at this
      rw [this, BitVec.add_assoc]
      congr 1
      apply BitVec.eq_of_toNat_eq
      simp
      omega

/-- PushState pushes the frame words, then moves `fp` and clears the counter (44_stack_call.md R242). -/
theorem run_pushState (s : State) :
    pushState s = match pushAll (frameWords s) s with
      | .ok _ t => .ok () ((t.withReg .fp (t.reg .sp)).withFsz 0)
      | .error e t => .error e t := by
  simp only [frameWords, pushAll_append, pushState, run_bind, pushRegs_eq Reg.general (by decide) s]
  cases h8 : pushAll (Reg.general.map s.reg) s with
  | error e t => rfl
  | ok a t =>
    have hip : t.reg .ip = s.reg .ip := pushAll_reg h8 (by decide)
    have hf : t.fsz = s.fsz + 16 := pushAll_fsz h8
    simp only [run_getReg, pushAll, run_bind, hip]
    cases h9 : push (s.reg .ip) t with
    | error e u => rfl
    | ok b u =>
      have hfu : u.fsz + 2 = s.fsz + 20 := by rw [push_fsz h9, hf]; bv_omega
      simp only [run_getFsz, hfu]
      cases push (s.fsz + 20) u <;> rfl

theorem frameWords_length (s : State) : (frameWords s).length = 10 := rfl

/-- A call whose pushes complete (44_stack_call.md R247, R248). -/
theorem run_callOperand_frame {src : Op Word} {s t : State} {v : Word} (hv : src s = .ok v s)
    (h : pushAll (frameWords s) s = .ok () t) :
    callOperand src s = .ok () (((t.withReg .fp (t.reg .sp)).withFsz 0).withReg .ip v) := by
  rw [run_callOperand hv]
  simp only [run_bind, run_pushState, h, run_setReg]

theorem sub_two_step (w : Word) (k : Nat) :
    w - 2 - BitVec.ofNat 16 (2 * k) = w - BitVec.ofNat 16 (2 * (k + 1)) := by
  apply BitVec.eq_of_toNat_eq
  simp [BitVec.toNat_sub]
  omega

/-- Pushes whose words lie in slots complete, and touch no byte outside those slots. -/
theorem pushAll_slots {ws : List Word} {s : State}
    (h : ∀ k, k < ws.length → (s.wordSlot (s.reg .sp - BitVec.ofNat 16 (2 * k))).isSome) :
    ∃ t, pushAll ws s = .ok () t ∧ PushedFrom s t ∧ t.reg .sp = s.reg .sp - BitVec.ofNat 16 (2 * ws.length) ∧
      OnlyPushedBytes ws.length s t ∧ HoldsPushedWords ws.length ws s t := by
  induction ws generalizing s with
  | nil =>
    exact ⟨s, rfl, pushedFrom_refl s, by simp,
      ⟨fun _ _ _ => rfl, fun _ _ _ _ _ => rfl, fun _ _ => rfl, fun _ _ => Iff.rfl⟩, fun _ _ _ h => absurd h (Nat.not_lt_zero _)⟩
  | cons v ws ih =>
    obtain ⟨slot, hslot⟩ := Option.isSome_iff_exists.mp (h 0 (by simp))
    have hslot' : s.wordSlot (s.reg .sp) = some slot := by simpa using hslot
    have hin := slotIn_of_wordSlot hslot'
    have hst := storesWord_storeWord hin v
    have hsp : (s.pushed slot v).reg .sp = s.reg .sp - 2 := by simp [State.pushed]
    have hws : ∀ a, (s.pushed slot v).wordSlot a = s.wordSlot a := fun a =>
      (wordSlot_congr (s := s.storeWord slot v) rfl rfl a).trans (wordSlot_storeWord s slot v a)
    obtain ⟨t, ht, hpt, hspt, hbt, hwt⟩ := ih (s := s.pushed slot v) (by
      intro k hk
      rw [hws, hsp, sub_two_step]
      exact h (k + 1) (by simpa using hk))
    have hbytes : ∀ d k, OutsidePushes s (v :: ws).length d k → t.localByte d k = s.localByte d k := by
      intro d k hout
      have h0 := hout 0 (by simp) slot hslot
      refine (hbt.bytes d k ?_).trans (hst.others d k h0.1 h0.2)
      intro j hj other hother
      rw [hws, hsp, sub_two_step] at hother
      exact hout (j + 1) (by simpa using hj) other hother
    have hreg : t.regions = s.regions := by rw [hpt.machine.regions]; simp [State.pushed]
    refine ⟨t, ?_, (pushedFrom_pushed s slot v).trans hpt, ?_, ⟨hbytes, ?_, ?_, ?_⟩, ?_⟩
    · simp only [pushAll, run_bind, push_slot hslot']
      exact ht
    · rw [hspt, hsp, sub_two_step]; rfl
    · intro a d la hr hout
      rw [peek_eq_localByte (s := t) (hreg ▸ hr), peek_eq_localByte hr, hbytes d la.toNat hout]
    · intro a hr
      rw [peek_eq_none hr, peek_eq_none (s := t) (hreg ▸ hr)]
    · intro d q
      exact (hbt.peripherals d q).trans (hst.peripherals d q)
    · intro j w other hj hw hother hapart
      cases j with
      | zero =>
        cases hw
        have hself : other = slot := Option.some.inj (hother.symm.trans hslot)
        subst hself
        have hslotw : (s.pushed other v).slotWord other = v :=
          (slotWord_congr (s := s.storeWord other v) rfl _).trans (slotWord_storeWord_same hin v)
        have hin' : SlotIn (s.pushed other v) other := slotIn_of_wordSlot ((hws _).trans hslot')
        have hout : ∀ k, k = other.2 ∨ k = other.2 + 1 → OutsidePushes (s.pushed other v) ws.length other.1 k := by
          intro k hk i hi later hlater
          rw [hws, hsp, sub_two_step] at hlater
          have := hapart (i + 1) (by omega) (by simpa using hi) later hlater
          simp only [ne_eq, Prod.ext_iff, not_and_or]
          simp only [SlotsApart] at this
          omega
        rw [← hslotw]
        exact slotWord_of_bytes hin' (hbt.bytes _ _ (hout _ (.inl rfl))) (hbt.bytes _ _ (hout _ (.inr rfl)))
      | succ j =>
        refine hwt j w other (by simpa using hj) (by simpa using hw) ?_ ?_
        · rw [hws, hsp, sub_two_step]
          exact hother
        · intro i hi hlt later hlater
          rw [hws, hsp, sub_two_step] at hlater
          exact hapart (i + 1) (by omega) (by simpa using hlt) later hlater

/-- Pushes that end at a failing one, number `k`: those before it stay. -/
theorem pushAll_faults {ws : List Word} {s : State} {k : Nat} (hk : k < ws.length) {cause : FaultCause}
    (h : ∀ j, j < k → (s.wordSlot (s.reg .sp - BitVec.ofNat 16 (2 * j))).isSome)
    (hf : WriteFaults s (s.reg .sp - BitVec.ofNat 16 (2 * k)) cause) :
    ∃ t, pushAll ws s = .error (.fault cause) t ∧ PushedFrom s t ∧ t.reg .sp = s.reg .sp - BitVec.ofNat 16 (2 * k) ∧
      t.fsz = s.fsz + BitVec.ofNat 16 (2 * k) ∧ OnlyPushedBytes k s t ∧ HoldsPushedWords k ws s t := by
  have hlen : (ws.take k).length = k := by rw [List.length_take]; omega
  obtain ⟨t, h1, h2, h3, h4, h5⟩ := pushAll_slots (ws := ws.take k) (s := s) (by rw [hlen]; exact h)
  have hfz := pushAll_fsz h1
  rw [hlen] at h3 h4 h5 hfz
  have hbad : ∀ v, push v t = .error (.fault cause) t := by
    refine fun v => push_faults ?_ v
    rw [h3]
    exact hf.effects (pushAll_effects h1)
  refine ⟨t, ?_, h2, h3, hfz, h4, fun j w slot hj hw => h5 j w slot hj (by rw [List.getElem?_take_of_lt hj, hw])⟩
  rw [← List.take_append_drop k ws, pushAll_append]
  simp only [run_bind, h1]
  cases hdrop : ws.drop k with
  | nil => exact absurd (List.drop_eq_nil_iff.mp hdrop) (by omega)
  | cons v rest => simp only [pushAll, run_bind, hbad]

/-! ### Pushes under the default map -/

/-- The word at `b` shares no byte with the word at `a`. -/
abbrev WordsApart (a b : Word) : Prop := b.toNat + 1 < a.toNat ∨ a.toNat + 1 < b.toNat

/-- A store leaves the words that share no byte with its own. -/
theorem flatWord_pushed_apart {s : State} (h : FlatMap s) (ha : s.reg .sp ≠ 0xFFFF) (v : Word) {b : Word}
    (hb : WordsApart (s.reg .sp) b) :
    (s.pushed (mainDevice, (s.reg .sp).toNat) v).flatWord b = s.flatWord b :=
  (flatWord_congr (s := s.storeWord (mainDevice, (s.reg .sp).toNat) v) rfl b).trans
    (slotWord_storeWord_apart (h.slotIn ha) v (.inr hb))

theorem flatWord_pushed_same {s : State} (h : FlatMap s) (ha : s.reg .sp ≠ 0xFFFF) (v : Word) :
    (s.pushed (mainDevice, (s.reg .sp).toNat) v).flatWord (s.reg .sp) = v :=
  (flatWord_congr (s := s.storeWord (mainDevice, (s.reg .sp).toNat) v) rfl _).trans
    (slotWord_storeWord_same (h.slotIn ha) v)

/-- A push leaves every byte but the two of its word. -/
theorem peek_pushed_other {s : State} (h : FlatMap s) (ha : s.reg .sp ≠ 0xFFFF) (v : Word) {b : Word}
    (h1 : b ≠ s.reg .sp) (h2 : b ≠ s.reg .sp + 1) :
    (s.pushed (mainDevice, (s.reg .sp).toNat) v).peek b = s.peek b := by
  have hb : b.toNat ≠ (s.reg .sp).toNat := fun e => h1 (BitVec.eq_of_toNat_eq e)
  have hne : (s.reg .sp).toNat ≠ 65535 := fun e => ha (BitVec.eq_of_toNat_eq e)
  have hb' : b.toNat ≠ (s.reg .sp).toNat + 1 := fun e => h2 (BitVec.eq_of_toNat_eq (by
    have := (s.reg .sp).isLt
    rw [e, BitVec.toNat_add]
    simp
    omega))
  have hpeek : (s.pushed (mainDevice, (s.reg .sp).toNat) v).peek b =
      (s.storeWord (mainDevice, (s.reg .sp).toNat) v).peek b := peek_congr rfl rfl b
  rw [hpeek, (h.storeWord _ v).peek, h.peek, localByte_storeWord (h.slotIn ha)]
  simp [hb, hb']

/-- Pushes that meet no word at 0xFFFF complete, and their words stand one below the other. -/
theorem pushAll_flat {ws : List Word} {s : State} (hf : FlatMap s) (hlen : ws.length < 0x8000)
    (h : ∀ k, k < ws.length → s.reg .sp - BitVec.ofNat 16 (2 * k) ≠ 0xFFFF) :
    ∃ t, pushAll ws s = .ok () t ∧ PushedFrom s t ∧ t.reg .sp = s.reg .sp - BitVec.ofNat 16 (2 * ws.length) ∧
      FlatMap t ∧
      (∀ (j : Nat) (w : Word), ws[j]? = some w → t.flatWord (s.reg .sp - BitVec.ofNat 16 (2 * j)) = w) ∧
      (∀ b, (∀ j, j < ws.length → WordsApart (s.reg .sp - BitVec.ofNat 16 (2 * j)) b) → t.flatWord b = s.flatWord b) ∧
      ∀ b, (∀ j, j < ws.length → b ≠ s.reg .sp - BitVec.ofNat 16 (2 * j) ∧
        b ≠ s.reg .sp - BitVec.ofNat 16 (2 * j) + 1) → t.peek b = s.peek b := by
  induction ws generalizing s with
  | nil => exact ⟨s, rfl, pushedFrom_refl s, by simp, hf, by simp, fun _ _ => rfl, fun _ _ => rfl⟩
  | cons v ws ih =>
    have h0 : s.reg .sp ≠ 0xFFFF := by simpa using h 0 (by simp)
    have hsp : (s.pushed (mainDevice, (s.reg .sp).toNat) v).reg .sp = s.reg .sp - 2 := by simp [State.pushed]
    have hf' : FlatMap (s.pushed (mainDevice, (s.reg .sp).toNat) v) := ((hf.storeWord _ v).withReg _ _).withFsz _
    rw [List.length_cons] at hlen
    obtain ⟨t, h1, h2, h3, h4, h5, h6, h7⟩ := ih hf' (by omega) (by
      intro k hk
      rw [hsp, sub_two_step]
      exact h (k + 1) (by simpa using hk))
    rw [hsp] at h5 h6 h7
    refine ⟨t, ?_, (pushedFrom_pushed _ _ _).trans h2, ?_, h4, ?_, ?_, ?_⟩
    · simp only [pushAll, run_bind, push_slot (hf.wordSlot h0)]
      exact h1
    · rw [h3, hsp, sub_two_step]; rfl
    · intro j w hw
      cases j with
      | zero =>
        cases hw
        have hself : s.reg .sp - BitVec.ofNat 16 (2 * 0) = s.reg .sp := by simp
        rw [hself, h6 _ ?_]
        · exact flatWord_pushed_same hf h0 v
        · intro j hj
          rw [sub_two_step]
          have hj' := h (j + 1) (by simpa using hj)
          have e1 : (s.reg .sp).toNat ≠ 65535 := fun e => h0 (BitVec.eq_of_toNat_eq e)
          have e2 : (s.reg .sp - BitVec.ofNat 16 (2 * (j + 1))).toNat ≠ 65535 := fun e =>
            hj' (BitVec.eq_of_toNat_eq e)
          simp only [WordsApart, BitVec.toNat_sub, BitVec.toNat_ofNat] at e2 ⊢
          omega
      | succ j =>
        rw [← sub_two_step]
        exact h5 j w (by simpa using hw)
    · intro b hb
      rw [h6 b fun j hj => by rw [sub_two_step]; exact hb (j + 1) (by simpa using hj)]
      exact flatWord_pushed_apart hf h0 v (by simpa using hb 0 (by simp))
    · intro b hb
      rw [h7 b fun j hj => by rw [sub_two_step]; exact hb (j + 1) (by simpa using hj)]
      have := hb 0 (by simp)
      exact peek_pushed_other hf h0 v (by simpa using this.1) (by simpa using this.2)

/-! ### Pops -/

/-- Only the registers of `changed` and the counter tell the two states apart. -/
structure PoppedFrom (changed : List Reg) (s t : State) : Prop where
  regs : ∀ r, r ∉ changed → t.reg r = s.reg r
  status : t.status = s.status
  devices : t.devices = s.devices
  machine : SameMachine s t

/-- A pop in a state with the map and the devices of `s`. -/
theorem pop_at {s t : State} {slot : Nat × Nat} (hr : t.regions = s.regions) (hd : t.devices = s.devices)
    (h : s.wordSlot (t.reg .sp + 2) = some slot) : pop t = .ok (s.slotWord slot) t.popped := by
  have h' : t.wordSlot (t.reg .sp + 2) = some slot := (wordSlot_congr hr hd _).trans h
  rw [pop_slot h', slotWord_congr hd]

theorem popped_sp_step (w : Word) (k : Nat) :
    w + 2 + BitVec.ofNat 16 (2 * k) = w + BitVec.ofNat 16 (2 * (k + 1)) := by
  apply BitVec.eq_of_toNat_eq
  simp
  omega

theorem popped_sp_last (w : Word) (k : Nat) :
    w + BitVec.ofNat 16 (2 * k) + 2 = w + BitVec.ofNat 16 (2 * (k + 1)) := by
  apply BitVec.eq_of_toNat_eq
  simp
  omega

/-- Pops into registers whose words lie in slots complete: each register gets the word of its slot. -/
theorem popRegs_slots {s : State} {l : List Reg} (hl : l.Nodup) (hsp : .sp ∉ l) (slot : Nat → Nat × Nat) {t : State}
    (hr : t.regions = s.regions) (hd : t.devices = s.devices)
    (h : ∀ j, j < l.length → s.wordSlot (t.reg .sp + BitVec.ofNat 16 (2 * (j + 1))) = some (slot j)) :
    ∃ u, popRegs l t = .ok () u ∧ u.reg .sp = t.reg .sp + BitVec.ofNat 16 (2 * l.length) ∧
      u.fsz = t.fsz - BitVec.ofNat 16 (2 * l.length) ∧
      (∀ (j : Nat) (r : Reg), l[j]? = some r → u.reg r = s.slotWord (slot j)) ∧ PoppedFrom (.sp :: l) t u := by
  induction l generalizing slot t with
  | nil => exact ⟨t, rfl, by simp, by simp, by simp, ⟨fun _ _ => rfl, rfl, rfl, sameMachine_rfl t⟩⟩
  | cons r l ih =>
    have hne : Reg.sp ≠ r := fun e => hsp (e ▸ List.mem_cons_self ..)
    have hsp' : Reg.sp ∉ l := fun e => hsp (List.mem_cons_of_mem _ e)
    rw [List.nodup_cons] at hl
    have hp := pop_at hr hd (slot := slot 0) (by simpa using h 0 (by simp))
    obtain ⟨u, hu, h1, h2, h3, h4⟩ := ih hl.2 hsp' (fun j => slot (j + 1))
      (t := t.popped.withReg r (s.slotWord (slot 0))) hr hd (by
        intro j hj
        rw [reg_withReg_other _ _ hne]
        show s.wordSlot (t.popped.reg .sp + _) = _
        simp only [State.popped, reg_withFsz, reg_withReg_same]
        rw [popped_sp_step]
        exact h (j + 1) (by simpa using hj))
    refine ⟨u, ?_, ?_, ?_, ?_, ?_⟩
    · simp only [popRegs, run_bind, hp, run_setReg]
      exact hu
    · rw [h1, reg_withReg_other _ _ hne]
      simp only [State.popped, reg_withFsz, reg_withReg_same, List.length_cons]
      exact popped_sp_step _ _
    · rw [h2]
      exact sub_two_step _ _
    · intro j q hq
      cases j with
      | zero =>
        cases hq
        rw [h4.regs r (by simp only [List.mem_cons, not_or]; exact ⟨hne.symm, hl.1⟩)]
        simp
      | succ j => exact h3 j q (by simpa using hq)
    · refine ⟨fun q hq => ?_, h4.status, h4.devices, ⟨h4.machine.1, h4.machine.2, h4.machine.3, h4.machine.4⟩⟩
      simp only [List.mem_cons, not_or] at hq
      rw [h4.regs q (by simp [hq.1, hq.2.2]), reg_withReg_other _ _ hq.2.1]
      simp [State.popped, reg_withReg_other _ _ hq.1]

/-- Pops that are dropped (44_stack_call.md R243, D24). -/
theorem popDiscard_slots {s : State} (n : Nat) {t : State} (hr : t.regions = s.regions) (hd : t.devices = s.devices)
    (h : ∀ j, j < n → (s.wordSlot (t.reg .sp + BitVec.ofNat 16 (2 * (j + 1)))).isSome) :
    ∃ u, popDiscard n t = .ok () u ∧ u.reg .sp = t.reg .sp + BitVec.ofNat 16 (2 * n) ∧
      u.fsz = t.fsz - BitVec.ofNat 16 (2 * n) ∧ PoppedFrom [.sp] t u := by
  induction n generalizing t with
  | zero => exact ⟨t, rfl, by simp, by simp, ⟨fun _ _ => rfl, rfl, rfl, sameMachine_rfl t⟩⟩
  | succ n ih =>
    obtain ⟨slot, hslot⟩ := Option.isSome_iff_exists.mp (h 0 (by simp))
    have hp := pop_at hr hd (slot := slot) (by simpa using hslot)
    obtain ⟨u, hu, h1, h2, h4⟩ := ih (t := t.popped) hr hd (by
      intro j hj
      simp only [State.popped, reg_withFsz, reg_withReg_same]
      rw [popped_sp_step]
      exact h (j + 1) (by simpa using hj))
    refine ⟨u, ?_, ?_, ?_, ?_⟩
    · simp only [popDiscard, run_bind, hp]
      exact hu
    · rw [h1]
      simp only [State.popped, reg_withFsz, reg_withReg_same]
      exact popped_sp_step _ _
    · rw [h2]
      exact sub_two_step _ _
    · refine ⟨fun q hq => ?_, h4.status, h4.devices, ⟨h4.machine.1, h4.machine.2, h4.machine.3, h4.machine.4⟩⟩
      rw [h4.regs q hq]
      simp only [List.mem_singleton] at hq
      simp [State.popped, reg_withReg_other _ _ hq]

/-! ### Runs of pops that fail -/

/-- A failing pop in a state with the map and the devices of `s`. -/
theorem pop_faults_at {s t : State} {cause : FaultCause} (hr : t.regions = s.regions) (hd : t.devices = s.devices)
    (h : ReadFaults s (t.reg .sp + 2) cause) : pop t = .error (.fault cause) t.popped :=
  pop_faults (h.congr hr hd)

theorem popRegs_append (xs ys : List Reg) : popRegs (xs ++ ys) = (do popRegs xs; popRegs ys) := by
  induction xs with
  | nil => funext s; simp [popRegs, run_bind, run_pure]
  | cons r xs ih =>
    funext s
    simp only [List.cons_append, popRegs, ih, run_bind, run_setReg]
    cases pop s <;> rfl

/-- Pops into registers that end at a failing one, number `k` of the list: those before it have been written. -/
theorem popRegs_faults {s : State} {l : List Reg} (hl : l.Nodup) (hsp : .sp ∉ l) (slot : Nat → Nat × Nat) {t : State}
    (hr : t.regions = s.regions) (hd : t.devices = s.devices) {k : Nat} (hk : k < l.length) {cause : FaultCause}
    (h : ∀ j, j < k → s.wordSlot (t.reg .sp + BitVec.ofNat 16 (2 * (j + 1))) = some (slot j))
    (hf : ReadFaults s (t.reg .sp + BitVec.ofNat 16 (2 * (k + 1))) cause) :
    ∃ u, popRegs l t = .error (.fault cause) u ∧ u.reg .sp = t.reg .sp + BitVec.ofNat 16 (2 * (k + 1)) ∧
      u.fsz = t.fsz - BitVec.ofNat 16 (2 * (k + 1)) ∧
      (∀ (j : Nat) (r : Reg), l[j]? = some r → u.reg r = if j < k then s.slotWord (slot j) else t.reg r) ∧
      PoppedFrom (.sp :: l) t u := by
  have hlen : (l.take k).length = k := by rw [List.length_take]; omega
  have hsub : List.Sublist (l.take k) l := List.take_sublist k l
  obtain ⟨u, h1, h2, h3, h4, h5⟩ := popRegs_slots (hl.sublist hsub) (fun e => hsp (hsub.subset e)) slot hr hd
    (by rw [hlen]; exact h)
  rw [hlen] at h2 h3
  have hbad : pop u = .error (.fault cause) u.popped :=
    pop_faults_at (h5.machine.1.trans hr) (h5.devices.trans hd) (by rw [h2, popped_sp_last]; exact hf)
  have hreg : ∀ r, r ≠ .sp → u.popped.reg r = u.reg r := fun r hr => by simp [State.popped, reg_withReg_other _ _ hr]
  refine ⟨u.popped, ?_, ?_, ?_, ?_, ?_⟩
  · rw [← List.take_append_drop k l, popRegs_append]
    simp only [run_bind, h1]
    cases hdrop : l.drop k with
    | nil => exact absurd (List.drop_eq_nil_iff.mp hdrop) (by omega)
    | cons r rest => simp only [popRegs, run_bind, hbad]
  · simp only [State.popped, reg_withFsz, reg_withReg_same, h2]
    exact popped_sp_last _ _
  · simp only [State.popped, withFsz_fsz, h3]
    rw [← sub_two_step]
    apply BitVec.eq_of_toNat_eq
    simp [BitVec.toNat_sub]
    omega
  · intro j r hj
    have hne : r ≠ .sp := fun e => hsp (e ▸ List.mem_of_getElem? hj)
    rw [hreg r hne]
    split
    next hlt => exact h4 j r (by rw [List.getElem?_take_of_lt hlt, hj])
    next hge =>
      refine h5.regs r ?_
      simp only [List.mem_cons, hne, false_or]
      intro hm
      obtain ⟨i, hi, hri⟩ := List.mem_iff_getElem.mp hm
      have hik : i < k := by rw [hlen] at hi; exact hi
      have hir : l[i]? = some r := by
        rw [← List.getElem?_take_of_lt hik, List.getElem?_eq_getElem hi, hri]
      have := (List.getElem?_inj (by omega) hl).mp (hir.trans hj.symm)
      omega
  · refine ⟨fun q hq => ?_, h5.status, h5.devices, ⟨h5.machine.1, h5.machine.2, h5.machine.3, h5.machine.4⟩⟩
    simp only [List.mem_cons, not_or] at hq
    rw [hreg q hq.1, h5.regs q ?_]
    simp only [List.mem_cons, not_or]
    exact ⟨hq.1, fun hm => hq.2 (hsub.subset hm)⟩

/-- Dropped pops that end at a failing one, number `k`. -/
theorem popDiscard_faults {s : State} {n k : Nat} (hk : k < n) {t : State} (hr : t.regions = s.regions)
    (hd : t.devices = s.devices) {cause : FaultCause}
    (h : ∀ j, j < k → (s.wordSlot (t.reg .sp + BitVec.ofNat 16 (2 * (j + 1)))).isSome)
    (hf : ReadFaults s (t.reg .sp + BitVec.ofNat 16 (2 * (k + 1))) cause) :
    ∃ u, popDiscard n t = .error (.fault cause) u ∧ u.reg .sp = t.reg .sp + BitVec.ofNat 16 (2 * (k + 1)) ∧
      u.fsz = t.fsz - BitVec.ofNat 16 (2 * (k + 1)) ∧ PoppedFrom [.sp] t u := by
  induction k generalizing n t with
  | zero =>
    obtain ⟨m, rfl⟩ := Nat.exists_eq_succ_of_ne_zero (Nat.pos_iff_ne_zero.mp hk)
    have hbad : pop t = .error (.fault cause) t.popped := pop_faults_at hr hd (by simpa using hf)
    refine ⟨t.popped, ?_, ?_, rfl, fun q hq => ?_, rfl, rfl, ⟨rfl, rfl, rfl, rfl⟩⟩
    · simp only [popDiscard, run_bind, hbad]
    · simp [State.popped]
    · simp [State.popped, reg_withReg_other _ _ (List.mem_singleton.not.mp hq)]
  | succ k ih =>
    obtain ⟨m, rfl⟩ := Nat.exists_eq_succ_of_ne_zero (Nat.pos_iff_ne_zero.mp (Nat.zero_lt_of_lt hk))
    obtain ⟨slot, hslot⟩ := Option.isSome_iff_exists.mp (h 0 (by omega))
    have hp := pop_at hr hd (slot := slot) (by simpa using hslot)
    have hsp : t.popped.reg .sp = t.reg .sp + 2 := by simp [State.popped]
    obtain ⟨u, hu, h1, h2, h4⟩ := ih (n := m) (by omega) (t := t.popped) hr hd
      (by intro j hj; rw [hsp, popped_sp_step]; exact h (j + 1) (by omega))
      (by rw [hsp, popped_sp_step]; exact hf)
    refine ⟨u, ?_, ?_, ?_, ⟨fun q hq => ?_, h4.status, h4.devices, ⟨h4.machine.1, h4.machine.2, h4.machine.3, h4.machine.4⟩⟩⟩
    · simp only [popDiscard, run_bind, hp]
      exact hu
    · rw [h1, hsp, popped_sp_step]
    · rw [h2]
      exact sub_two_step _ _
    · rw [h4.regs q hq]
      simp [State.popped, reg_withReg_other _ _ (List.mem_singleton.not.mp hq)]

end Sys2Proof.Machine
end

