-- ==== Sys2Proof/Laws/Mapper.lean ====
section
/-! SUPPORT. The mapper: what a region holds, and what registering regions leaves alone. -/

namespace Sys2Proof.Machine

/-- A region holds the addresses of its inclusive interval (20_memory.md R57). -/
theorem regionHolds_iff (g : Region) (a : Word) :
    regionHolds g a = true ↔ g.start.toNat ≤ a.toNat ∧ a.toNat ≤ g.last.toNat := by
  simp [regionHolds, BitVec.le_def]

theorem resolve_hit {g : Region} {a : Word} (h : regionHolds g a = true) (rest : List Region) :
    resolve (g :: rest) a = some (g.device, regionLocal g a) := by rw [resolve, if_pos h]

theorem resolve_miss {g : Region} {a : Word} (h : ¬ regionHolds g a = true) (rest : List Region) :
    resolve (g :: rest) a = resolve rest a := by rw [resolve, if_neg h]

/-- Registering regions puts them in front of the list in turn and touches nothing but the list and the tokens. -/
structure Registered (l : List RegionSpec) (s t : State) : Prop where
  regs : t.regs = s.regs
  fsz : t.fsz = s.fsz
  status : t.status = s.status
  devices : t.devices = s.devices
  started : t.started = s.started
  params : t.params = s.params
  regions : t.regions.map (fun g => RegionSpec.mk g.device g.start g.last g.remap) =
    l.reverse ++ s.regions.map (fun g => RegionSpec.mk g.device g.start g.last g.remap)

theorem registered_registerRegions (l : List RegionSpec) (s : State) : Registered l s (registerRegions s l) := by
  induction l generalizing s with
  | nil => exact ⟨rfl, rfl, rfl, rfl, rfl, rfl, rfl⟩
  | cons g l ih =>
    have h := ih (s.withRegion g.device g.start g.last g.remap)
    refine ⟨h.regs, h.fsz, h.status, h.devices, h.started, h.params, ?_⟩
    rw [registerRegions, h.regions]
    simp

end Sys2Proof.Machine
end

