-- ==== Sys2Proof/Laws/PerInstr.lean ====
section
/-! SUPPORT. The family EncodedLength: for every instruction, one lemma per constructor. -/

/-- The encoder writes as many bytes as the format table gives the mnemonic, at most `longestInstr` (30_encoding.md R90,
R95, R96). -/
def Sys2Proof.Laws.EncodedLength.Statement (i : Sys2Proof.Instr) : Prop :=
  ∀ p : Sys2Proof.Config.Params,
    (Sys2Proof.encode p i).length = Sys2Proof.formatLength (Sys2Proof.opcodeFormat p.shiftLit i.opcode) ∧
    (Sys2Proof.encode p i).length ≤ Sys2Proof.longestInstr

namespace Sys2Proof.Laws

/-- What decides the family for a constructor: the length under either shift-literal width. -/
theorem encodedLength_of {i : Instr}
    (h : ∀ w, (operandBytes w i).length + 1 = formatLength (opcodeFormat w i.opcode) ∧
      (operandBytes w i).length + 1 ≤ longestInstr) : EncodedLength.Statement i := fun p => h p.shiftLit

theorem EncodedLength.movLitReg (lit : Word) (rd : Reg) : EncodedLength.Statement (.movLitReg lit rd) :=
  encodedLength_of fun _ => ⟨rfl, Nat.le_of_ble_eq_true rfl⟩
theorem EncodedLength.movRegReg (rs : Reg) (rd : Reg) : EncodedLength.Statement (.movRegReg rs rd) :=
  encodedLength_of fun _ => ⟨rfl, Nat.le_of_ble_eq_true rfl⟩
theorem EncodedLength.movRegMem (rs : Reg) (addr : Word) : EncodedLength.Statement (.movRegMem rs addr) :=
  encodedLength_of fun _ => ⟨rfl, Nat.le_of_ble_eq_true rfl⟩
theorem EncodedLength.movMemReg (addr : Word) (rd : Reg) : EncodedLength.Statement (.movMemReg addr rd) :=
  encodedLength_of fun _ => ⟨rfl, Nat.le_of_ble_eq_true rfl⟩
theorem EncodedLength.movLitMem (lit : Word) (addr : Word) : EncodedLength.Statement (.movLitMem lit addr) :=
  encodedLength_of fun _ => ⟨rfl, Nat.le_of_ble_eq_true rfl⟩
theorem EncodedLength.movRegPtrReg (rp : Reg) (rd : Reg) : EncodedLength.Statement (.movRegPtrReg rp rd) :=
  encodedLength_of fun _ => ⟨rfl, Nat.le_of_ble_eq_true rfl⟩
theorem EncodedLength.movLitOffReg (base : Word) (ro : Reg) (rd : Reg) : EncodedLength.Statement (.movLitOffReg base ro rd) :=
  encodedLength_of fun _ => ⟨rfl, Nat.le_of_ble_eq_true rfl⟩
theorem EncodedLength.addRegReg (ra : Reg) (rb : Reg) : EncodedLength.Statement (.addRegReg ra rb) :=
  encodedLength_of fun _ => ⟨rfl, Nat.le_of_ble_eq_true rfl⟩
theorem EncodedLength.addLitReg (lit : Word) (r : Reg) : EncodedLength.Statement (.addLitReg lit r) :=
  encodedLength_of fun _ => ⟨rfl, Nat.le_of_ble_eq_true rfl⟩
theorem EncodedLength.subLitReg (lit : Word) (r : Reg) : EncodedLength.Statement (.subLitReg lit r) :=
  encodedLength_of fun _ => ⟨rfl, Nat.le_of_ble_eq_true rfl⟩
theorem EncodedLength.subRegLit (r : Reg) (lit : Word) : EncodedLength.Statement (.subRegLit r lit) :=
  encodedLength_of fun _ => ⟨rfl, Nat.le_of_ble_eq_true rfl⟩
theorem EncodedLength.subRegReg (ra : Reg) (rb : Reg) : EncodedLength.Statement (.subRegReg ra rb) :=
  encodedLength_of fun _ => ⟨rfl, Nat.le_of_ble_eq_true rfl⟩
theorem EncodedLength.mulLitReg (lit : Word) (r : Reg) : EncodedLength.Statement (.mulLitReg lit r) :=
  encodedLength_of fun _ => ⟨rfl, Nat.le_of_ble_eq_true rfl⟩
theorem EncodedLength.mulRegReg (ra : Reg) (rb : Reg) : EncodedLength.Statement (.mulRegReg ra rb) :=
  encodedLength_of fun _ => ⟨rfl, Nat.le_of_ble_eq_true rfl⟩
theorem EncodedLength.incReg (r : Reg) : EncodedLength.Statement (.incReg r) :=
  encodedLength_of fun _ => ⟨rfl, Nat.le_of_ble_eq_true rfl⟩
theorem EncodedLength.decReg (r : Reg) : EncodedLength.Statement (.decReg r) :=
  encodedLength_of fun _ => ⟨rfl, Nat.le_of_ble_eq_true rfl⟩
theorem EncodedLength.lsfRegLit (r : Reg) (n : Word) : EncodedLength.Statement (.lsfRegLit r n) :=
  encodedLength_of fun w => by cases w <;> exact ⟨rfl, Nat.le_of_ble_eq_true rfl⟩
theorem EncodedLength.lsfRegReg (r : Reg) (rn : Reg) : EncodedLength.Statement (.lsfRegReg r rn) :=
  encodedLength_of fun _ => ⟨rfl, Nat.le_of_ble_eq_true rfl⟩
theorem EncodedLength.rsfRegLit (r : Reg) (n : Word) : EncodedLength.Statement (.rsfRegLit r n) :=
  encodedLength_of fun w => by cases w <;> exact ⟨rfl, Nat.le_of_ble_eq_true rfl⟩
theorem EncodedLength.rsfRegReg (r : Reg) (rn : Reg) : EncodedLength.Statement (.rsfRegReg r rn) :=
  encodedLength_of fun _ => ⟨rfl, Nat.le_of_ble_eq_true rfl⟩
theorem EncodedLength.andRegLit (r : Reg) (lit : Word) : EncodedLength.Statement (.andRegLit r lit) :=
  encodedLength_of fun _ => ⟨rfl, Nat.le_of_ble_eq_true rfl⟩
theorem EncodedLength.andRegReg (ra : Reg) (rb : Reg) : EncodedLength.Statement (.andRegReg ra rb) :=
  encodedLength_of fun _ => ⟨rfl, Nat.le_of_ble_eq_true rfl⟩
theorem EncodedLength.orRegLit (r : Reg) (lit : Word) : EncodedLength.Statement (.orRegLit r lit) :=
  encodedLength_of fun _ => ⟨rfl, Nat.le_of_ble_eq_true rfl⟩
theorem EncodedLength.orRegReg (ra : Reg) (rb : Reg) : EncodedLength.Statement (.orRegReg ra rb) :=
  encodedLength_of fun _ => ⟨rfl, Nat.le_of_ble_eq_true rfl⟩
theorem EncodedLength.xorRegLit (r : Reg) (lit : Word) : EncodedLength.Statement (.xorRegLit r lit) :=
  encodedLength_of fun _ => ⟨rfl, Nat.le_of_ble_eq_true rfl⟩
theorem EncodedLength.xorRegReg (ra : Reg) (rb : Reg) : EncodedLength.Statement (.xorRegReg ra rb) :=
  encodedLength_of fun _ => ⟨rfl, Nat.le_of_ble_eq_true rfl⟩
theorem EncodedLength.notReg (r : Reg) : EncodedLength.Statement (.notReg r) :=
  encodedLength_of fun _ => ⟨rfl, Nat.le_of_ble_eq_true rfl⟩
theorem EncodedLength.jmpNotEq (lit : Word) (addr : Word) : EncodedLength.Statement (.jmpNotEq lit addr) :=
  encodedLength_of fun _ => ⟨rfl, Nat.le_of_ble_eq_true rfl⟩
theorem EncodedLength.jneReg (r : Reg) (addr : Word) : EncodedLength.Statement (.jneReg r addr) :=
  encodedLength_of fun _ => ⟨rfl, Nat.le_of_ble_eq_true rfl⟩
theorem EncodedLength.jeqLit (lit : Word) (addr : Word) : EncodedLength.Statement (.jeqLit lit addr) :=
  encodedLength_of fun _ => ⟨rfl, Nat.le_of_ble_eq_true rfl⟩
theorem EncodedLength.jeqReg (r : Reg) (addr : Word) : EncodedLength.Statement (.jeqReg r addr) :=
  encodedLength_of fun _ => ⟨rfl, Nat.le_of_ble_eq_true rfl⟩
theorem EncodedLength.jltLit (lit : Word) (addr : Word) : EncodedLength.Statement (.jltLit lit addr) :=
  encodedLength_of fun _ => ⟨rfl, Nat.le_of_ble_eq_true rfl⟩
theorem EncodedLength.jltReg (r : Reg) (addr : Word) : EncodedLength.Statement (.jltReg r addr) :=
  encodedLength_of fun _ => ⟨rfl, Nat.le_of_ble_eq_true rfl⟩
theorem EncodedLength.jgtLit (lit : Word) (addr : Word) : EncodedLength.Statement (.jgtLit lit addr) :=
  encodedLength_of fun _ => ⟨rfl, Nat.le_of_ble_eq_true rfl⟩
theorem EncodedLength.jgtReg (r : Reg) (addr : Word) : EncodedLength.Statement (.jgtReg r addr) :=
  encodedLength_of fun _ => ⟨rfl, Nat.le_of_ble_eq_true rfl⟩
theorem EncodedLength.jleLit (lit : Word) (addr : Word) : EncodedLength.Statement (.jleLit lit addr) :=
  encodedLength_of fun _ => ⟨rfl, Nat.le_of_ble_eq_true rfl⟩
theorem EncodedLength.jleReg (r : Reg) (addr : Word) : EncodedLength.Statement (.jleReg r addr) :=
  encodedLength_of fun _ => ⟨rfl, Nat.le_of_ble_eq_true rfl⟩
theorem EncodedLength.jgeLit (lit : Word) (addr : Word) : EncodedLength.Statement (.jgeLit lit addr) :=
  encodedLength_of fun _ => ⟨rfl, Nat.le_of_ble_eq_true rfl⟩
theorem EncodedLength.jgeReg (r : Reg) (addr : Word) : EncodedLength.Statement (.jgeReg r addr) :=
  encodedLength_of fun _ => ⟨rfl, Nat.le_of_ble_eq_true rfl⟩
theorem EncodedLength.pshLit (lit : Word) : EncodedLength.Statement (.pshLit lit) :=
  encodedLength_of fun _ => ⟨rfl, Nat.le_of_ble_eq_true rfl⟩
theorem EncodedLength.pshReg (r : Reg) : EncodedLength.Statement (.pshReg r) :=
  encodedLength_of fun _ => ⟨rfl, Nat.le_of_ble_eq_true rfl⟩
theorem EncodedLength.pop (rd : Reg) : EncodedLength.Statement (.pop rd) :=
  encodedLength_of fun _ => ⟨rfl, Nat.le_of_ble_eq_true rfl⟩
theorem EncodedLength.callLit (addr : Word) : EncodedLength.Statement (.callLit addr) :=
  encodedLength_of fun _ => ⟨rfl, Nat.le_of_ble_eq_true rfl⟩
theorem EncodedLength.callReg (r : Reg) : EncodedLength.Statement (.callReg r) :=
  encodedLength_of fun _ => ⟨rfl, Nat.le_of_ble_eq_true rfl⟩
theorem EncodedLength.ret : EncodedLength.Statement (.ret) :=
  encodedLength_of fun _ => ⟨rfl, Nat.le_of_ble_eq_true rfl⟩
theorem EncodedLength.hlt : EncodedLength.Statement (.hlt) :=
  encodedLength_of fun _ => ⟨rfl, Nat.le_of_ble_eq_true rfl⟩

end Sys2Proof.Laws
end

