-- ==== Sys2Proof/Laws/Step.lean ====
section
/-! SUPPORT. What a step can do, said once: fetch, then the instruction's operation; every effect of it is elementary. -/

namespace Sys2Proof.Machine

/-- A whole fetch, wherever its bytes come from: the instruction read is what the decoder reads from the bytes fetched. -/
theorem fetchInstr_ok {s s1 t : State} {b : Byte} {o : Opcode} {bs : List Byte} (h8 : fetch8 s = .ok b s1)
    (ho : opcodeOfByte s.params.opcodes b = some o)
    (h : fetchAll (operandWidths (opcodeFormat s.params.shiftLit o)) s1 = .ok bs t) :
    ∃ i, fetchInstr s = .ok i t ∧ ∀ rest, decode s.params (b :: bs ++ rest) = .ok (i, rest) := by
  obtain ⟨i, hy, hx⟩ := (fetchesAs_operands s.params.shiftLit o).ok h
  refine ⟨i, ?_, fun rest => ?_⟩
  · unfold fetchInstr
    rw [bind_ok (run_getParams s), bind_ok h8]
    simp only [ho, hy]
  · simp only [decode, readInstr, List.cons_append, reader_bind, nextByte, ho, hx]

/-- A failing operand fetch ends the fetching there. -/
theorem fetchInstr_error {s s1 t : State} {b : Byte} {o : Opcode} {e : Stop} (h8 : fetch8 s = .ok b s1)
    (ho : opcodeOfByte s.params.opcodes b = some o)
    (h : fetchAll (operandWidths (opcodeFormat s.params.shiftLit o)) s1 = .error e t) : fetchInstr s = .error e t := by
  unfold fetchInstr
  rw [bind_ok (run_getParams s), bind_ok h8]
  simp only [ho, (fetchesAs_operands s.params.shiftLit o).error h]

/-- A failing opcode fetch ends the fetching there. -/
theorem fetchInstr_opcode_error {s t : State} {e : Stop} (h8 : fetch8 s = .error e t) : fetchInstr s = .error e t := by
  unfold fetchInstr
  rw [bind_ok (run_getParams s), bind_error h8]

/-- An unrecognized opcode byte halts, with `ip` past it (45_control.md R271). -/
theorem fetchInstr_unrecognized {s s1 : State} {b : Byte} (h8 : fetch8 s = .ok b s1)
    (ho : opcodeOfByte s.params.opcodes b = none) : fetchInstr s = .error (.halt (.illegalOpcode b)) s1 := by
  unfold fetchInstr
  rw [bind_ok (run_getParams s), bind_ok h8]
  simp only [ho, run_stop]

/-- An opcode byte and operand fetches from memory: the decoded instruction is read and `ip` is past it. -/
theorem fetchInstr_fetched {s : State} {b : Byte} {o : Opcode} {bs : List Byte} {i : Instr}
    (hb : s.peek (s.reg .ip) = some b) (ho : opcodeOfByte s.params.opcodes b = some o)
    (h : s.fetchedFrom (s.reg .ip + 1) (operandWidths (opcodeFormat s.params.shiftLit o)) = some bs)
    (hd : decode s.params (b :: bs) = .ok (i, [])) :
    fetchInstr s = .ok i (s.withReg .ip (s.reg .ip + BitVec.ofNat 16 (bs.length + 1))) := by
  have hall := fetchAll_fetched (s := s.withReg .ip (s.reg .ip + 1)) (by
    rw [reg_withReg_same, fetchedFrom_withReg]
    exact h)
  simp only [reg_withReg_same, withReg_withReg_same, add_ofNat_succ] at hall
  obtain ⟨j, hj, hdec⟩ := fetchInstr_ok (fetch8_peek hb) ho hall
  have := hdec []
  rw [List.append_nil, hd] at this
  cases this
  exact hj

/-- Operand fetch number `k` fails, and those before it read memory: the fetching ends there. -/
theorem fetchInstr_operand_fails {s t : State} {b : Byte} {o : Opcode} {k : Nat} {w : Width} {e : Stop}
    (hb : s.peek (s.reg .ip) = some b) (ho : opcodeOfByte s.params.opcodes b = some o)
    (hw : (operandWidths (opcodeFormat s.params.shiftLit o))[k]? = some w)
    (h : (s.fetchedFrom (s.reg .ip + 1) ((operandWidths (opcodeFormat s.params.shiftLit o)).take k)).isSome)
    (he : fetchOne w (s.withReg .ip
      (s.reg .ip + BitVec.ofNat 16 (operandOffset (opcodeFormat s.params.shiftLit o) k))) = .error e t) :
    fetchInstr s = .error e t := by
  obtain ⟨bs, hbs⟩ := Option.isSome_iff_exists.mp h
  refine fetchInstr_error (fetch8_peek hb) ho (fetchAll_error (k := k) (bs := bs) ?_ hw ?_)
  · rw [reg_withReg_same, fetchedFrom_withReg]
    exact hbs
  · rw [reg_withReg_same, withReg_withReg_same, add_ofNat_succ, fetchedFrom_length hbs]
    exact he

/-- Fetching on code in one memory device reads the decoded instruction and moves `ip` past its bytes. -/
theorem fetchInstr_of_codeBytes {s : State} {n : Nat} {bs : List Byte} {i : Instr} (h : s.codeBytes n = some bs)
    (hd : decode s.params bs = .ok (i, [])) :
    fetchInstr s = .ok i (s.withReg .ip (s.reg .ip + BitVec.ofNat 16 n)) := by
  obtain ⟨hlen, d, la, m, hc⟩ := codeAt_of_codeBytes h
  cases bs with
  | nil => cases hd
  | cons b bs =>
    have hb : s.peek (s.reg .ip) = some b := by
      have := hc.fetchedAt (w := .byte) (by simp [Width.bytes])
      simpa [State.fetchedAt, Width.bytes] using this
    have hd' := hd
    simp only [decode, readInstr, reader_bind, nextByte] at hd'
    cases ho : opcodeOfByte s.params.opcodes b with
    | none =>
      rw [ho] at hd'
      have : (.error (.unrecognizedOpcode b) : Except DecodeError (Instr × List Byte)) = .ok (i, []) := hd'
      cases this
    | some o =>
      simp only [ho] at hd'
      have hcount : bs.length = fetchBytes (operandWidths (opcodeFormat s.params.shiftLit o)) := by
        cases hr : readOperands nextReg nextWord (nextShiftLit s.params.shiftLit) o bs with
        | error e t => rw [hr] at hd'; cases hd'
        | ok j rest =>
          rw [hr] at hd'
          cases hd'
          obtain ⟨_, taken, heq, htaken, _⟩ := (exactly_operands s.params.shiftLit o).takes _ _ _ hr
          rw [heq, List.append_nil, htaken]
          cases opcodeFormat s.params.shiftLit o <;> rfl
      have hops : s.fetchedFrom (s.reg .ip + 1) (operandWidths (opcodeFormat s.params.shiftLit o)) = some bs := by
        cases bs with
        | nil =>
          have : operandWidths (opcodeFormat s.params.shiftLit o) = [] := by
            revert hcount
            cases opcodeFormat s.params.shiftLit o <;> simp [operandWidths, fetchBytes, Width.bytes]
          rw [this]
          rfl
        | cons c cs =>
          have := (hc.drop (n := 1) (by simp)).fetchedFrom
            (ws := operandWidths (opcodeFormat s.params.shiftLit o)) (by rw [← hcount]; simp)
          rw [← hcount] at this
          simpa using this
      rw [fetchInstr_fetched hb ho hops hd, ← hlen, List.length_cons]

variable {P : Reg → Prop} {F : Prop}

theorem keeps_fetch8 (h : P .ip) : Keeps P F fetch8 :=
  (keeps_getReg _).bind fun _ => (keeps_memRead8 _ _).bind fun _ => (keeps_getReg _).bind fun _ =>
    (keeps_setReg _ h).bind fun _ => keeps_pure _

theorem keeps_fetch16 (h : P .ip) : Keeps P F fetch16 :=
  (keeps_getReg _).bind fun _ => (keeps_memRead16 _ _).bind fun _ => (keeps_getReg _).bind fun _ =>
    (keeps_setReg _ h).bind fun _ => keeps_pure _

theorem keeps_fetchReg (h : P .ip) : Keeps P F fetchReg := (keeps_fetch8 h).bind fun _ => keeps_pure _

theorem keeps_fetchShiftLit (w : Config.ShiftLitWidth) (h : P .ip) : Keeps P F (fetchShiftLit w) := by
  cases w with
  | bits16 => exact keeps_fetch16 h
  | bits8 => exact (keeps_fetch8 h).bind fun _ => keeps_pure _

theorem keeps_fetchOperands (w : Config.ShiftLitWidth) (o : Opcode) (h : P .ip) :
    Keeps P F (readOperands fetchReg fetch16 (fetchShiftLit w) o) := by
  have hr : Keeps P F fetchReg := keeps_fetchReg h
  have hw : Keeps P F fetch16 := keeps_fetch16 h
  have hs : Keeps P F (fetchShiftLit w) := keeps_fetchShiftLit w h
  cases o <;>
    first
    | exact keeps_pure _
    | exact hr.bind fun _ => keeps_pure _
    | exact hw.bind fun _ => keeps_pure _
    | exact hr.bind fun _ => hr.bind fun _ => keeps_pure _
    | exact hr.bind fun _ => hw.bind fun _ => keeps_pure _
    | exact hr.bind fun _ => hs.bind fun _ => keeps_pure _
    | exact hw.bind fun _ => hr.bind fun _ => keeps_pure _
    | exact hw.bind fun _ => hw.bind fun _ => keeps_pure _
    | exact hw.bind fun _ => hr.bind fun _ => hr.bind fun _ => keeps_pure _

/-- What fetching can do: move `ip`, reach peripherals, and end in an instruction, a fault or the illegal-opcode halt. -/
theorem fetchInstr_effects (s : State) :
    match fetchInstr s with
    | .ok _ t => Effects (· = .ip) False s t
    | .error e t => Effects (· = .ip) False s t ∧ ((∃ c, e = .fault c) ∨ ∃ b, e = .halt (.illegalOpcode b)) := by
  unfold fetchInstr
  rw [bind_ok (run_getParams s)]
  have h8 : Keeps (· = .ip) False fetch8 := keeps_fetch8 rfl
  cases hf : fetch8 s with
  | error e t =>
    rw [bind_error hf]
    obtain ⟨heff, hc⟩ := h8.error hf
    exact ⟨heff, .inl hc⟩
  | ok b t =>
    rw [bind_ok hf]
    have heff := h8.ok hf
    cases opcodeOfByte s.params.opcodes b with
    | none => exact ⟨heff, .inr ⟨b, rfl⟩⟩
    | some o =>
      have hk : Keeps (· = .ip) False (readOperands fetchReg fetch16 (fetchShiftLit s.params.shiftLit) o) :=
        keeps_fetchOperands _ o rfl
      cases ho : readOperands fetchReg fetch16 (fetchShiftLit s.params.shiftLit) o t with
      | ok i u => simpa only [ho] using heff.trans (hk.ok ho)
      | error e u =>
        obtain ⟨h1, h2⟩ := hk.error ho
        simpa only [ho] using And.intro (heff.trans h1) (Or.inl h2)

/-- A wider footprint admits the same effects. -/
theorem Effects.widen {Q : Reg → Prop} {G : Prop} (hP : ∀ r, P r → Q r) (hF : F → G) {s t : State}
    (h : Effects P F s t) : Effects Q G s t := by
  induction h with
  | refl => exact .refl
  | tail _ hm ih =>
    refine ih.tail ?_
    cases hm with
    | reg r v hr => exact .reg _ r v (hP r hr)
    | fsz v hf => exact .fsz _ v (hF hf)
    | byte d m k b hd ha => exact .byte _ d m k b hd ha
    | word d m k v hd ha => exact .word _ d m k v hd ha
    | access d q acc hd => exact .access _ d q acc hd

/-- The whole of what a step can do: it is taken from Running only; elementary effects; then possibly a stop. -/
theorem step_effects {s t : State} (h : step s = .next t) :
    s.status = .running ∧ ∃ u, Effects (fun _ => True) True s.begun u ∧ (t = u ∨ ∃ why, t = u.stopped why) := by
  unfold step at h
  cases hs : s.status with
  | halted w => rw [hs] at h; cases h
  | faulted c => rw [hs] at h; cases h
  | running =>
    rw [hs] at h
    refine ⟨rfl, ?_⟩
    have heff := fetchInstr_effects s.begun
    cases hf : fetchInstr s.begun with
    | error e v =>
      simp only [hf] at h heff
      cases h
      exact ⟨v, heff.1.widen (fun _ _ => trivial) False.elim, .inr ⟨e, rfl⟩⟩
    | ok i v =>
      simp only [hf] at h heff
      obtain ⟨u, hu, hcases⟩ := exec_effects h
      refine ⟨u, (heff.widen (fun _ _ => trivial) False.elim).trans
        (hu.widen (fun _ _ => trivial) fun _ => trivial), ?_⟩
      rcases hcases with rfl | ⟨c, rfl⟩ | ⟨_, rfl⟩
      · exact .inl rfl
      · exact .inr ⟨_, rfl⟩
      · exact .inr ⟨_, rfl⟩

end Sys2Proof.Machine
end

