-- ==== Sys2Proof/Tests/Slice0.lean ====
section
/-! SUPPORT. Tests: words of the spec decode, single steps agree with the vectors of 95_test_vectors.md, ill-formed terms are
refused, and every statement with hypotheses has a state that meets them. Expected values are the vectors' and the rules'. -/

namespace Sys2Proof.Tests

open Sys2Proof.Machine

/-- The default machine with bytes at 0, registers and further bytes set. -/
def boot (code : List Byte) (regs : List (Reg × Word)) (at_ : Nat := 0) (bytes : List Byte := []) : State :=
  let m := (Memory.putBytes { size := 0x10000, cells := [] } at_ bytes).putBytes 0 code
  regs.foldl (fun s c => s.withReg c.1 c.2) { State.reset with devices := [.memory m] }

/-- The words of a frame at 0xFFEA with `r1` to `r8` and the argument count 0 (44_stack_call.md R251). -/
def withFrame (size ret : Word) (s : State) : State :=
  s.placeBytes 0xFFEA (wordBytes size ++ wordBytes ret ++ List.replicate 20 0x00)

/-- The state an outcome goes on with. -/
def after : Host.Outcome State Fault Refusal → State
  | .next t => t
  | _ => State.reset

/-- Every meaning goes on, so what it goes on with is its outcome. -/
theorem next_after (i : Instr) (s : State) : exec i s = .next (after (exec i s)) := by
  obtain ⟨t, h⟩ := exec_next i s
  rw [h]
  rfl

/-- What a list of bytes decodes to under the default table, with nothing left. -/
abbrev reads (bs : List Byte) (i : Instr) : Prop := (decode Config.defaultParams bs).toOption = some (i, [])

/-! ### Every constructor from a word written out (the examples of the rules R120 to R270) -/

theorem test_decode_movLitReg : reads [0x10, 0x12, 0x34, 0x02] (.movLitReg 0x1234 .r1) := by decide
theorem test_decode_movRegReg : reads [0x11, 0x0E, 0x03] (.movRegReg .r1 .r2) := by decide
theorem test_decode_movRegMem : reads [0x12, 0x02, 0x02, 0x00] (.movRegMem .r1 0x0200) := by decide
theorem test_decode_movMemReg : reads [0x13, 0x02, 0x00, 0x04] (.movMemReg 0x0200 .r3) := by decide
theorem test_decode_movLitMem : reads [0x1B, 0xCA, 0xFE, 0x03, 0x00] (.movLitMem 0xCAFE 0x0300) := by decide
theorem test_decode_movRegPtrReg : reads [0x1C, 0x02, 0x03] (.movRegPtrReg .r1 .r2) := by decide
theorem test_decode_movLitOffReg : reads [0x1D, 0x02, 0x00, 0x02, 0x03] (.movLitOffReg 0x0200 .r1 .r2) := by decide
theorem test_decode_addRegReg : reads [0x14, 0x02, 0x03] (.addRegReg .r1 .r2) := by decide
theorem test_decode_addLitReg : reads [0x3F, 0x00, 0x05, 0x02] (.addLitReg 0x0005 .r1) := by decide
theorem test_decode_subLitReg : reads [0x16, 0x00, 0x03, 0x02] (.subLitReg 0x0003 .r1) := by decide
theorem test_decode_subRegLit : reads [0x1E, 0x02, 0x00, 0x03] (.subRegLit .r1 0x0003) := by decide
theorem test_decode_subRegReg : reads [0x1F, 0x02, 0x03] (.subRegReg .r1 .r2) := by decide
theorem test_decode_mulLitReg : reads [0x20, 0x00, 0x03, 0x02] (.mulLitReg 0x0003 .r1) := by decide
theorem test_decode_mulRegReg : reads [0x21, 0x02, 0x03] (.mulRegReg .r1 .r2) := by decide
theorem test_decode_incReg : reads [0x35, 0x02] (.incReg .r1) := by decide
theorem test_decode_decReg : reads [0x36, 0x02] (.decReg .r1) := by decide
/-- The literal is one byte under P_SHIFT_LIT_WIDTH = 8 (vector B5). -/
theorem test_decode_lsfRegLit : reads [0x26, 0x02, 0x00, 0x04] (.lsfRegLit .r1 0x0004) ∧
    (decode (Config.Params.mk Config.defaultOpcodes .bits8 .literal) [0x26, 0x02, 0x04]).toOption = some (.lsfRegLit .r1 0x0004, []) := by decide
theorem test_decode_lsfRegReg : reads [0x27, 0x02, 0x03] (.lsfRegReg .r1 .r2) := by decide
theorem test_decode_rsfRegLit : reads [0x2A, 0x02, 0x00, 0x04] (.rsfRegLit .r1 0x0004) := by decide
theorem test_decode_rsfRegReg : reads [0x2B, 0x02, 0x03] (.rsfRegReg .r1 .r2) := by decide
theorem test_decode_andRegLit : reads [0x2E, 0x02, 0x0F, 0x0F] (.andRegLit .r1 0x0F0F) := by decide
theorem test_decode_andRegReg : reads [0x2F, 0x02, 0x03] (.andRegReg .r1 .r2) := by decide
theorem test_decode_orRegLit : reads [0x30, 0x02, 0x00, 0xFF] (.orRegLit .r1 0x00FF) := by decide
theorem test_decode_orRegReg : reads [0x31, 0x02, 0x03] (.orRegReg .r1 .r2) := by decide
theorem test_decode_xorRegLit : reads [0x32, 0x02, 0xFF, 0xFF] (.xorRegLit .r1 0xFFFF) := by decide
theorem test_decode_xorRegReg : reads [0x33, 0x02, 0x02] (.xorRegReg .r1 .r1) := by decide
theorem test_decode_notReg : reads [0x34, 0x02] (.notReg .r1) := by decide
theorem test_decode_jmpNotEq : reads [0x15, 0x00, 0x03, 0x01, 0x00] (.jmpNotEq 0x0003 0x0100) := by decide
theorem test_decode_jneReg : reads [0x40, 0x02, 0x01, 0x00] (.jneReg .r1 0x0100) := by decide
theorem test_decode_jeqLit : reads [0x41, 0x00, 0x05, 0x01, 0x00] (.jeqLit 0x0005 0x0100) := by decide
theorem test_decode_jeqReg : reads [0x3E, 0x02, 0x01, 0x00] (.jeqReg .r1 0x0100) := by decide
theorem test_decode_jltLit : reads [0x43, 0x00, 0x01, 0x01, 0x00] (.jltLit 0x0001 0x0100) := by decide
theorem test_decode_jltReg : reads [0x42, 0x02, 0x01, 0x00] (.jltReg .r1 0x0100) := by decide
theorem test_decode_jgtLit : reads [0x45, 0xFF, 0xFF, 0x01, 0x00] (.jgtLit 0xFFFF 0x0100) := by decide
theorem test_decode_jgtReg : reads [0x44, 0x02, 0x01, 0x00] (.jgtReg .r1 0x0100) := by decide
theorem test_decode_jleLit : reads [0x47, 0x00, 0x02, 0x01, 0x00] (.jleLit 0x0002 0x0100) := by decide
theorem test_decode_jleReg : reads [0x46, 0x02, 0x01, 0x00] (.jleReg .r1 0x0100) := by decide
theorem test_decode_jgeLit : reads [0x49, 0x00, 0x02, 0x01, 0x00] (.jgeLit 0x0002 0x0100) := by decide
theorem test_decode_jgeReg : reads [0x48, 0x02, 0x01, 0x00] (.jgeReg .r1 0x0100) := by decide
theorem test_decode_pshLit : reads [0x17, 0x51, 0x51] (.pshLit 0x5151) := by decide
theorem test_decode_pshReg : reads [0x18, 0x0A] (.pshReg .sp) := by decide
theorem test_decode_pop : reads [0x1A, 0x02] (.pop .r1) := by decide
theorem test_decode_callLit : reads [0x5E, 0x01, 0x00] (.callLit 0x0100) := by decide
theorem test_decode_callReg : reads [0x5F, 0x02] (.callReg .r1) := by decide
theorem test_decode_ret : reads [0x60] (.ret) := by decide
theorem test_decode_hlt : reads [0xFF] (.hlt) := by decide

/-- JNE_LIT is a second name of JMP_NOT_EQ (R103). -/
theorem test_jne_lit_is_jmp_not_eq : opcodeOfName "JNE_LIT" = some .jmpNotEq := by decide

/-- The encoder on the spec's example of R126. -/
theorem test_encode_movLitOffReg :
    encode Config.defaultParams (.movLitOffReg 0x0200 .r1 .r2) = [0x1D, 0x02, 0x00, 0x02, 0x03] := by decide

/-! ### Ill-formed terms are refused -/

theorem test_wf_refuses_wide_lsf : Instr.wellFormed .bits8 (.lsfRegLit .r1 0x0100) = false := by decide
theorem test_wf_refuses_wide_rsf : Instr.wellFormed .bits8 (.rsfRegLit .r1 0xFFFF) = false := by decide
theorem test_wf_admits_255 : Instr.wellFormed .bits8 (.lsfRegLit .r1 0x00FF) = true := by decide
theorem test_wf_refuses_byte_twice : ¬ OpcodesInjective ((0xFF, .movLitReg) :: Config.defaultOpcodes.drop 1) := by decide
theorem test_wf_refuses_mnemonic_twice : ¬ OpcodesInjective ((0x01, .hlt) :: Config.defaultOpcodes) := by decide
theorem test_wf_refuses_missing_mnemonic : ¬ OpcodesInjective (Config.defaultOpcodes.drop 1) := by decide
theorem test_wf_refuses_unsorted_memory : Memory.wf { size := 4, cells := [(2, 0x00), (1, 0x00)] } = false := by decide
theorem test_wf_refuses_outside_memory : Memory.wf { size := 4, cells := [(4, 0x00)] } = false := by decide

/-! ### One step of every instruction (the vectors of 95_test_vectors.md section 2) -/

/-- Vector V2. -/
theorem test_step_movLitReg :
    let t := after (step (boot [0x10, 0xBE, 0xEF, 0x00] []))
    t.reg .ip = 0xBEEF ∧ t.reg .r1 = 0x0000 := by decide
/-- Vector V4. -/
theorem test_step_movRegReg :
    let t := after (step (boot [0x11, 0x00, 0x02] []))
    t.reg .r1 = 0x0003 ∧ t.reg .ip = 0x0003 := by decide
/-- Vector V5. -/
theorem test_step_movRegMem :
    let t := after (step (boot [0x12, 0x02, 0x02, 0x00] [(.r1, 0xA1B2)]))
    t.localByte 0 0x0200 = some 0xA1 ∧ t.localByte 0 (0x0200 + 1) = some 0xB2 ∧ t.reg .ip = 0x0004 := by decide
/-- Vector M1. -/
theorem test_step_movMemReg :
    let t := after (step (boot [0x13, 0x02, 0x01, 0x02] [] 0x0201 [0xAB, 0xCD]))
    t.reg .r1 = 0xABCD ∧ t.reg .ip = 0x0004 := by decide
/-- Vector V8. -/
theorem test_step_movLitMem :
    let t := after (step (boot [0x1B, 0xCA, 0xFE, 0x03, 0x00] []))
    t.localByte 0 0x0300 = some 0xCA ∧ t.localByte 0 (0x0300 + 1) = some 0xFE ∧ t.reg .ip = 0x0005 := by decide
/-- Vector V10. -/
theorem test_step_movRegPtrReg :
    let t := after (step (boot [0x1C, 0x02, 0x02] [(.r1, 0x0200)] 0x0200 [0x55, 0x66]))
    t.reg .r1 = 0x5566 ∧ t.reg .ip = 0x0003 := by decide
/-- Vector V12. -/
theorem test_step_movLitOffReg :
    let t := after (step (boot [0x1D, 0xFF, 0xF0, 0x02, 0x03] [(.r1, 0x0014)] 0x0005 [0x00]))
    t.reg .r2 = 0x0300 ∧ t.reg .ip = 0x0005 := by decide
/-- Vector A3. -/
theorem test_step_addRegReg :
    let t := after (step (boot [0x14, 0x01, 0x01] [(.acc, 0x8000)]))
    t.reg .acc = 0x0000 ∧ t.reg .ip = 0x0003 := by decide
/-- Vector A4. -/
theorem test_step_addLitReg :
    let t := after (step (boot [0x3F, 0x00, 0x05, 0x02] [(.r1, 0x0010)]))
    t.reg .acc = 0x0015 ∧ t.reg .r1 = 0x0010 := by decide
/-- Vector A5. -/
theorem test_step_subLitReg :
    let t := after (step (boot [0x16, 0x00, 0x03, 0x02] [(.r1, 0x0010)]))
    t.reg .acc = 0x000D ∧ t.reg .r1 = 0x0010 := by decide
/-- Vector A6. -/
theorem test_step_subRegLit :
    let t := after (step (boot [0x1E, 0x02, 0x00, 0x03] [(.r1, 0x0010)]))
    t.reg .acc = 0xFFF3 ∧ t.reg .r1 = 0x0010 := by decide
/-- Vector A7. -/
theorem test_step_subRegReg :
    let t := after (step (boot [0x1F, 0x02, 0x03] [(.r1, 0x0005), (.r2, 0x0007)]))
    t.reg .acc = 0xFFFE ∧ t.reg .r1 = 0x0005 := by decide
/-- Vector A9. -/
theorem test_step_mulLitReg :
    let t := after (step (boot [0x20, 0x00, 0x03, 0x02] [(.r1, 0x5556)]))
    t.reg .acc = 0x0002 ∧ t.reg .r1 = 0x5556 := by decide
/-- Vector A10. -/
theorem test_step_mulRegReg :
    let t := after (step (boot [0x21, 0x02, 0x03] [(.r1, 0xFFFF), (.r2, 0xFFFF)]))
    t.reg .acc = 0x0001 ∧ t.reg .r1 = 0xFFFF := by decide
/-- Vector A14. -/
theorem test_step_incReg :
    let t := after (step (boot [0x35, 0x00] []))
    t.reg .ip = 0x0003 := by decide
/-- Vector A13. -/
theorem test_step_decReg :
    let t := after (step (boot [0x36, 0x02] [(.r1, 0x0000)]))
    t.reg .r1 = 0xFFFF ∧ t.reg .acc = 0x0000 := by decide
/-- Vector B3. -/
theorem test_step_lsfRegLit :
    let t := after (step (boot [0x26, 0x02, 0x00, 0x0F] [(.r1, 0x0001)]))
    t.reg .r1 = 0x8000 ∧ t.reg .acc = 0x0000 := by decide
/-- Vector B6. -/
theorem test_step_lsfRegReg :
    let t := after (step (boot [0x27, 0x02, 0x03] [(.r1, 0x00F0), (.r2, 0x0008)]))
    t.reg .r1 = 0xF000 ∧ t.reg .r2 = 0x0008 := by decide
/-- Vector B7. -/
theorem test_step_rsfRegLit :
    let t := after (step (boot [0x2A, 0x02, 0x00, 0x04] [(.r1, 0x8000)]))
    t.reg .r1 = 0x0800 ∧ t.reg .acc = 0x0000 := by decide
/-- Vector B8. -/
theorem test_step_rsfRegReg :
    let t := after (step (boot [0x2B, 0x02, 0x02] [(.r1, 0x0008)]))
    t.reg .r1 = 0x0000 ∧ t.reg .acc = 0x0000 := by decide
/-- Vector B10. -/
theorem test_step_andRegLit :
    let t := after (step (boot [0x2E, 0x02, 0x0F, 0x0F] [(.r1, 0x1234)]))
    t.reg .acc = 0x0204 ∧ t.reg .r1 = 0x1234 := by decide
/-- Vector B11. -/
theorem test_step_andRegReg :
    let t := after (step (boot [0x2F, 0x02, 0x03] [(.r1, 0xFF00), (.r2, 0x0FF0)]))
    t.reg .acc = 0x0F00 ∧ t.reg .r1 = 0xFF00 := by decide
/-- Vector B12. -/
theorem test_step_orRegLit :
    let t := after (step (boot [0x30, 0x02, 0x00, 0xFF] [(.r1, 0x1200)]))
    t.reg .acc = 0x12FF ∧ t.reg .r1 = 0x1200 := by decide
/-- Vector B13. -/
theorem test_step_orRegReg :
    let t := after (step (boot [0x31, 0x02, 0x03] [(.r1, 0xF000), (.r2, 0x000F)]))
    t.reg .acc = 0xF00F ∧ t.reg .r2 = 0x000F := by decide
/-- Vector B14. -/
theorem test_step_xorRegLit :
    let t := after (step (boot [0x32, 0x02, 0xFF, 0xFF] [(.r1, 0x1234)]))
    t.reg .acc = 0xEDCB ∧ t.reg .r1 = 0x1234 := by decide
/-- Vector B15. -/
theorem test_step_xorRegReg :
    let t := after (step (boot [0x33, 0x02, 0x02] [(.r1, 0x1234), (.acc, 0x5555)]))
    t.reg .acc = 0x0000 ∧ t.reg .r1 = 0x1234 := by decide
/-- Vector B16. -/
theorem test_step_notReg :
    let t := after (step (boot [0x34, 0x02] [(.r1, 0x0000), (.acc, 0x1111)]))
    t.reg .r1 = 0xFFFF ∧ t.reg .acc = 0x1111 := by decide
/-- Vector J2. -/
theorem test_step_jmpNotEq :
    let t := after (step (boot [0x15, 0x00, 0x03, 0x01, 0x00] [(.acc, 0x0003)]))
    t.reg .ip = 0x0005 := by decide
/-- Vector J4. -/
theorem test_step_jneReg :
    let t := after (step (boot [0x40, 0x02, 0x01, 0x00] [(.acc, 0x0003), (.r1, 0x0004)]))
    t.reg .ip = 0x0100 := by decide
/-- Vector J6. -/
theorem test_step_jeqLit :
    let t := after (step (boot [0x41, 0x00, 0x05, 0x01, 0x00] [(.acc, 0x0005)]))
    t.reg .ip = 0x0100 := by decide
/-- Vector J9. -/
theorem test_step_jeqReg :
    let t := after (step (boot [0x3E, 0x00, 0x01, 0x00] [(.acc, 0x0004)]))
    t.reg .ip = 0x0100 := by decide
/-- Vector J12. -/
theorem test_step_jltLit :
    let t := after (step (boot [0x43, 0xFF, 0xFF, 0x01, 0x00] [(.acc, 0x0001)]))
    t.reg .ip = 0x0005 := by decide
/-- Vector J13. -/
theorem test_step_jltReg :
    let t := after (step (boot [0x42, 0x02, 0x01, 0x00] [(.acc, 0x0002), (.r1, 0x0001)]))
    t.reg .ip = 0x0100 := by decide
/-- Vector J14. -/
theorem test_step_jgtLit :
    let t := after (step (boot [0x45, 0xFF, 0xFF, 0x01, 0x00] [(.acc, 0x0001)]))
    t.reg .ip = 0x0100 := by decide
/-- Vector J15. -/
theorem test_step_jgtReg :
    let t := after (step (boot [0x44, 0x02, 0x01, 0x00] [(.acc, 0x0002), (.r1, 0x0002)]))
    t.reg .ip = 0x0004 := by decide
/-- Vector J16. -/
theorem test_step_jleLit :
    let t := after (step (boot [0x47, 0x00, 0x02, 0x01, 0x00] [(.acc, 0x0002)]))
    t.reg .ip = 0x0100 := by decide
/-- Vector J17. -/
theorem test_step_jleReg :
    let t := after (step (boot [0x46, 0x02, 0x01, 0x00] [(.acc, 0x0002), (.r1, 0x0003)]))
    t.reg .ip = 0x0004 := by decide
/-- Vector J18. -/
theorem test_step_jgeLit :
    let t := after (step (boot [0x49, 0x00, 0x02, 0x01, 0x00] [(.acc, 0x0002)]))
    t.reg .ip = 0x0100 := by decide
/-- Vector J19. -/
theorem test_step_jgeReg :
    let t := after (step (boot [0x48, 0x02, 0x01, 0x00] [(.acc, 0x0003), (.r1, 0x0002)]))
    t.reg .ip = 0x0004 := by decide
/-- Vector K1. -/
theorem test_step_pshLit :
    let t := after (step (boot [0x17, 0x51, 0x51] []))
    t.localByte 0 0xFFFE = some 0x51 ∧ t.localByte 0 (0xFFFE + 1) = some 0x51 ∧ t.reg .sp = 0xFFFC ∧ t.fsz = 0x0002 := by decide
/-- Vector K2. -/
theorem test_step_pshReg :
    let t := after (step (boot [0x18, 0x0A] []))
    t.localByte 0 0xFFFE = some 0xFF ∧ t.localByte 0 (0xFFFE + 1) = some 0xFE ∧ t.reg .sp = 0xFFFC ∧ t.fsz = 0x0002 := by decide
/-- Vector K6. -/
theorem test_step_pop :
    let t := after (step (boot [0x1A, 0x0A] [(.sp, 0xFFFC)] 0xFFFC [0x12, 0x34, 0xAB, 0xCD]))
    t.reg .sp = 0xABCD ∧ t.fsz = 0xFFFE := by decide
/-- Vector K8. -/
theorem test_step_callLit :
    let t := after (step (boot [0x5E, 0x01, 0x00] [(.r1, 0x1111)]))
    t.reg .ip = 0x0100 ∧ t.reg .sp = 0xFFEA ∧ t.reg .fp = 0xFFEA ∧ t.fsz = 0x0000 ∧ t.localByte 0 0xFFEC = some 0x00 ∧ t.localByte 0 (0xFFEC + 1) = some 0x14 ∧ t.localByte 0 0xFFEE = some 0x00 ∧ t.localByte 0 (0xFFEE + 1) = some 0x03 ∧ t.localByte 0 0xFFFE = some 0x11 ∧ t.localByte 0 (0xFFFE + 1) = some 0x11 := by decide +kernel
/-- Vector K10. -/
theorem test_step_callReg :
    let t := after (step (boot [0x5F, 0x0A] []))
    t.reg .ip = 0xFFFE ∧ t.reg .sp = 0xFFEA ∧ t.localByte 0 0xFFEE = some 0x00 ∧ t.localByte 0 (0xFFEE + 1) = some 0x02 := by decide +kernel
/-- Vector M9. -/
theorem test_step_hlt :
    let t := after (step (boot [0xFF] []))
    t.status = .halted .normal ∧ t.reg .ip = 0x0001 := by decide

/-- RET of vector K11: the frame of a call with no argument, under `literal` and under `balanced`. -/
theorem test_step_ret :
    let s := boot [] [(.ip, 0x0100), (.sp, 0xFFE8), (.fp, 0xFFE8)] 0x0100 [0x60] |> withFrame 0x0016 0x0006
    let t := after (step s)
    t.reg .ip = 0x0006 ∧ t.reg .sp = 0xFFFE ∧ t.reg .fp = 0xFFFE ∧ t.fsz = 0x0002 ∧
    (after (step { s with params := { s.params with frameRestore := .balanced } })).fsz = 0x0000 := by decide +kernel

/-! ### Faults and halts (vectors M2 to M10, K4) -/

/-- Vector M2: the operand fetch at 0xFFFF runs past main memory. -/
theorem test_fetch_fault_at_top :
    (after (step (boot [] [(.ip, 0xFFFE)] 0xFFFE [0x10]))).status =
      .faulted (.boundsViolation ⟨.fetch, 0xFFFF, .word⟩ 0xFFFF) := by decide

/-- Vector M3: `ip` wraps. -/
theorem test_ip_wraps : (after (step (boot [] [(.ip, 0xFFFF)] 0xFFFF [0xFF]))).reg .ip = 0x0000 := by decide

/-- An instruction that runs from 0xFFFF on to 0x0000 (10_state.md R29). -/
theorem test_instruction_wraps :
    let t := after (step (boot [0x02] [(.ip, 0xFFFF), (.r1, 0x0007)] 0xFFFF [0x35]))
    t.reg .r1 = 0x0008 ∧ t.reg .ip = 0x0001 := by decide

/-- Vector M8: an unassigned byte halts, with `ip` one past it. -/
theorem test_illegal_opcode :
    let t := after (step (boot [0x00] []))
    t.status = .halted (.illegalOpcode 0x00) ∧ t.reg .ip = 0x0001 := by decide

/-- Vector M10. -/
theorem test_store_fault_at_top :
    let t := after (step (boot [0x12, 0x02, 0xFF, 0xFF] [(.r1, 0xA1B2)]))
    t.status = .faulted (.boundsViolation ⟨.write, 0xFFFF, .word⟩ 0xFFFF) ∧ t.reg .ip = 0x0004 := by decide

/-- Vector K4: a push that faults moves nothing. -/
theorem test_push_fault :
    let t := after (step (boot [0x18, 0x02] [(.r1, 0x7777), (.sp, 0xFFFF)]))
    t.status = .faulted (.boundsViolation ⟨.write, 0xFFFF, .word⟩ 0xFFFF) ∧ t.reg .sp = 0xFFFF ∧ t.fsz = 0 := by decide

/-- Main memory over [0x0000, 0x7FFF], a remapped memory of 0x100 bytes at 0x3000 with a word at its end, a peripheral at
0x4000, and nothing above 0x7FFF. -/
def bus : State :=
  { boot [0xFF] [(.sp, 0x30FC)] with
    regions := [⟨2, 0x4000, 0x40FF, true, 2⟩, ⟨1, 0x3000, 0x30FF, true, 1⟩, ⟨0, 0x0000, 0x7FFF, false, 0⟩]
    devices := [.memory { size := 0x10000, cells := [(0, 0xFF)] },
      .memory { size := 0x100, cells := [(0xFE, 0x12), (0xFF, 0x34)] }, .peripheral []]
    nextToken := 3 }

/-- Vector M4: the newest region gets the store at its translated address. -/
theorem test_store_is_translated :
    let t := after (exec (.movLitMem 0x4142 0x3010) bus)
    t.localByte 1 0x10 = some 0x41 ∧ t.localByte 1 0x11 = some 0x42 ∧ t.device 0 = bus.device 0 := by decide

/-- Vector M5: a word that runs past the remapped device. -/
theorem test_load_past_device :
    (after (exec (.movMemReg 0x30FF .r1) bus)).status =
      .faulted (.boundsViolation ⟨.read, 0x30FF, .word⟩ 0x00FF) := by decide

/-- Vector M6. -/
theorem test_load_unmapped :
    (after (exec (.movMemReg 0x8000 .r1) bus)).status = .faulted (.unmappedAddress ⟨.read, 0x8000, .word⟩) := by decide

/-- The codes of 60_exceptions.md R286. -/
theorem test_cause_codes :
    causeCode (.halted .normal) = 0 ∧ causeCode (.faulted (.unmappedAddress ⟨.read, 0, .word⟩)) = 1 ∧
    causeCode (.faulted (.boundsViolation ⟨.read, 0, .word⟩ 0)) = 2 ∧
    causeCode (.faulted (.deviceFault ⟨.read, 0, .word⟩ 0)) = 3 ∧
    causeCode (.halted (.illegalOpcode 0)) = 4 := by decide

/-- A program is placed where the next step fetches it. -/
theorem test_withFetchWord :
    let t := after (step (State.reset.withFetchWord 32 0x02341210))
    t.reg .r1 = 0x1234 ∧ t.reg .ip = 0x0004 := by decide

/-- `bus` with `ip` and code at an address below the hole of the map. -/
def edge (a : Word) (bytes : List Byte) : State := (bus.withReg .ip a).placeBytes a bytes

/-! ### Witnesses: a state that meets the hypotheses of each statement, at the bounds of its clauses -/

theorem test_witness_DecodeInvertsEncode :
    ParamsWellFormed Config.defaultParams ∧ Instr.wellFormed .bits16 (.lsfRegLit .fp 0xFFFF) = true ∧
    Instr.wellFormed .bits8 (.lsfRegLit .fp 0x00FF) = true := by decide

theorem test_witness_FirstByteFixesTheLength :
    decode Config.defaultParams [0x10, 0x12, 0x34, 0x02, 0xFF] = .ok (.movLitReg 0x1234 .r1, [0xFF]) := rfl

theorem test_witness_DecoderRefusesByNameOnly :
    decode Config.defaultParams [0x00] = .error (.unrecognizedOpcode 0x00) ∧
    decode Config.defaultParams [] = .error .truncated ∧
    decode Config.defaultParams [0x10, 0x12, 0x34] = .error .truncated := ⟨rfl, rfl, rfl⟩

/-- Code in one device; INC_REG at 0xFFFF, whose operand is fetched at 0x0000; and fetch by fetch, one whole fetch and one that
fails. -/
theorem test_witness_StepRunsTheDecodedInstruction :
    (boot [0x10, 0x12, 0x34, 0x02] []).status = .running ∧
    (boot [0x10, 0x12, 0x34, 0x02] []).codeBytes 4 = some [0x10, 0x12, 0x34, 0x02] ∧
    reads [0x10, 0x12, 0x34, 0x02] (.movLitReg 0x1234 .r1) ∧
    (let s := boot [0x02] [(.ip, 0xFFFF)] 0xFFFF [0x35]
     s.status = .running ∧ s.peek (s.reg .ip) = some 0x35 ∧ opcodeOfByte s.params.opcodes 0x35 = some .incReg ∧
     s.fetchedFrom (s.reg .ip + 1) (operandWidths (opcodeFormat s.params.shiftLit .incReg)) = some [0x02]) ∧
    (∃ t, fetch8 (edge 0x7FFF [0x10]).begun = .ok 0x10 t ∧ ∃ e u, fetchAll [.word, .byte] t = .error e u) ∧
    ∃ t, fetch8 (boot [0x10, 0x12, 0x34, 0x02] []).begun = .ok 0x10 t ∧
      ∃ u, fetchAll [.word, .byte] t = .ok [0x12, 0x34, 0x02] u :=
  ⟨rfl, by decide, by decide, by decide, ⟨_, rfl, _, _, rfl⟩, ⟨_, rfl, _, rfl⟩⟩

theorem test_witness_NoStepAfterTheEnd : (after (step (boot [0xFF] []))).status ≠ .running := by decide

/-- At the last address too. -/
theorem test_witness_UnrecognizedOpcodeHalts :
    (boot [0x00] []).status = .running ∧ (boot [0x00] []).codeBytes 1 = some [0x00] ∧
    (boot [] [(.ip, 0xFFFF)] 0xFFFF [0x00]).codeBytes 1 = some [0x00] ∧
    opcodeOfByte (boot [0x00] []).params.opcodes 0x00 = none := by decide

/-- The opcode fetch in a hole of the map; the first operand's in it, of an instruction whose opcode byte is the last mapped one;
and the second operand's, after a word operand. -/
theorem test_witness_UnmappedFetchFaults :
    (bus.withReg .ip 0x8000).status = .running ∧
    resolve (bus.withReg .ip 0x8000).regions ((bus.withReg .ip 0x8000).reg .ip) = none ∧
    (∀ c ∈ [((0x7FFF : Word), [(0x10 : Byte)], 0, Width.word), (0x7FFD, [0x10, 0x12, 0x34], 1, .byte)],
      let s := edge c.1 c.2.1
      s.status = .running ∧ s.peek (s.reg .ip) = some 0x10 ∧ opcodeOfByte s.params.opcodes 0x10 = some .movLitReg ∧
      (operandWidths (opcodeFormat s.params.shiftLit .movLitReg))[c.2.2.1]? = some c.2.2.2 ∧
      (s.fetchedFrom (s.reg .ip + 1) ((operandWidths (opcodeFormat s.params.shiftLit .movLitReg)).take c.2.2.1)).isSome ∧
      resolve s.regions (s.reg .ip + BitVec.ofNat 16 (operandOffset (opcodeFormat s.params.shiftLit .movLitReg) c.2.2.1)) =
        none) := by decide

/-- `edge` with one byte less in the remapped device, so that its region has one address too many. -/
def short (a : Word) (bytes : List Byte) : State :=
  (edge a bytes).withDevice 1 (.memory { size := 0xFF, cells := [(0xFE, 0x10)] })

/-- An opcode byte just past a device, a register byte just past it, a word that runs past it; and under the default map a first
operand at the top, and the second operands of formats RL and LA. -/
theorem test_witness_FetchPastTheDeviceFaults :
    (let s := short 0x30FF []
     s.status = .running ∧ resolve s.regions (s.reg .ip) = some (1, 0x00FF) ∧
     s.device 1 = .memory { size := 0xFF, cells := [(0xFE, 0x10)] } ∧ 0xFF ≤ (0x00FF : Word).toNat) ∧
    (∀ c ∈ [((0x11 : Byte), Opcode.movRegReg, Width.byte), (0x10, .movLitReg, .word)],
      let s := ((short 0x30FE []).withDevice 1 (.memory { size := 0xFF, cells := [(0xFE, c.1)] }))
      s.status = .running ∧ s.peek (s.reg .ip) = some c.1 ∧ opcodeOfByte s.params.opcodes c.1 = some c.2.1 ∧
      (operandWidths (opcodeFormat s.params.shiftLit c.2.1))[0]? = some c.2.2 ∧
      (s.fetchedFrom (s.reg .ip + 1) ((operandWidths (opcodeFormat s.params.shiftLit c.2.1)).take 0)).isSome ∧
      resolve s.regions (s.reg .ip + BitVec.ofNat 16 (operandOffset (opcodeFormat s.params.shiftLit c.2.1) 0)) =
        some (1, 0x00FF) ∧ s.device 1 = .memory { size := 0xFF, cells := [(0xFE, c.1)] } ∧
      0xFF < (0x00FF : Word).toNat + c.2.2.bytes) ∧
    let s := boot [] [(.ip, 0xFFFE)] 0xFFFE [0x10]
    let t := boot [] [(.ip, 0xFFFD)] 0xFFFD [0x1E]
    let u := boot [] [(.ip, 0xFFFC)] 0xFFFC [0x15]
    FlatMap s ∧ FlatMap t ∧ FlatMap u ∧ s.status = .running ∧ s.peek (s.reg .ip) = some 0x10 ∧
    t.peek (t.reg .ip) = some 0x1E ∧ u.peek (u.reg .ip) = some 0x15 ∧
    opcodeOfByte s.params.opcodes 0x10 = some .movLitReg ∧ opcodeOfByte t.params.opcodes 0x1E = some .subRegLit ∧
    opcodeOfByte u.params.opcodes 0x15 = some .jmpNotEq ∧
    (operandWidths (opcodeFormat s.params.shiftLit .movLitReg))[0]? = some .word ∧
    (operandWidths (opcodeFormat t.params.shiftLit .subRegLit))[1]? = some .word ∧
    (operandWidths (opcodeFormat u.params.shiftLit .jmpNotEq))[1]? = some .word ∧
    s.reg .ip + BitVec.ofNat 16 (operandOffset (opcodeFormat s.params.shiftLit .movLitReg) 0) = 0xFFFF ∧
    t.reg .ip + BitVec.ofNat 16 (operandOffset (opcodeFormat t.params.shiftLit .subRegLit) 1) = 0xFFFF ∧
    u.reg .ip + BitVec.ofNat 16 (operandOffset (opcodeFormat u.params.shiftLit .jmpNotEq) 1) = 0xFFFF :=
  ⟨by decide, by decide, ⟨rfl, _, rfl⟩, ⟨rfl, _, rfl⟩, ⟨rfl, _, rfl⟩, by decide⟩

theorem test_witness_NamedRegistersFailSoftly :
    (regOfName "r8").isSome ∧ "ip" ≠ "r8" ∧ regOfName "r9" = none := by decide

theorem test_witness_ResetRegisters : Reg.ip ≠ .sp ∧ Reg.ip ≠ .fp := by decide

theorem test_witness_ResetMachine : ([0xFF] : List Byte).length ≤ 0x10000 := by decide

/-- A launch whose image just fills main memory, with a region on the last device that exists. -/
def tightLaunch : Launch :=
  { defaultLaunch [0xFF] with mainSize := 1, others := [.peripheral], regions := [⟨1, 0x4000, 0x40FF, true⟩] }

/-- An image that just fits and a region on the last device; an image one byte too long; a map with a byte twice; a region on the
first device that does not exist. -/
theorem test_witness_LaunchLoadsTheImage :
    tightLaunch.image.length ≤ tightLaunch.mainSize ∧ ParamsWellFormed tightLaunch.params ∧
    (∀ g ∈ tightLaunch.regions, g.device ≤ tightLaunch.others.length) ∧
    { tightLaunch with image := [0xFF, 0xFF] }.mainSize < { tightLaunch with image := [0xFF, 0xFF] }.image.length ∧
    ¬ ParamsWellFormed { tightLaunch.params with opcodes := [(0x10, .hlt), (0x10, .ret)] } ∧
    ∃ g ∈ [(⟨2, 0x4000, 0x40FF, true⟩ : RegionSpec)], tightLaunch.others.length < g.device := by decide

/-- The last word of main memory, and its last byte. -/
theorem test_witness_MemoryRoundTrip :
    State.reset.device 0 = .memory { size := 0x10000, cells := [] } ∧ (0xFFFE : Word).toNat + 1 < 0x10000 ∧
    (0xFFFF : Word).toNat + 1 = 0x10000 := by decide

theorem test_witness_MemoryKeepsItsCanonicalForm :
    Memory.wf { size := 4, cells := [(1, 0x00), (3, 0xAA)] } = true ∧ 3 < 4 ∧ 2 + 1 < 4 ∧
    3 + [(0x11 : Byte)].length ≤ 4 := by decide

/-- Both sides of the bound. -/
theorem test_witness_BoundsViolationExactlyAtTheTop :
    FlatMap State.reset ∧ (0xFFFE : Word) ≠ 0xFFFF ∧ (0xFFFF : Word) = 0xFFFF := ⟨⟨rfl, _, rfl⟩, by decide⟩

/-- A region of one address behind an empty one, and an address just outside. -/
theorem test_witness_FirstRegionWins :
    (∀ e ∈ [(⟨0, 0x0010, 0x000F, false, 0⟩ : Region)],
      ¬ (e.start.toNat ≤ (0x0010 : Word).toNat ∧ (0x0010 : Word).toNat ≤ e.last.toNat)) ∧
    (⟨1, 0x0010, 0x0010, true, 1⟩ : Region).start.toNat ≤ (0x0010 : Word).toNat ∧
    (0x0010 : Word).toNat ≤ (⟨1, 0x0010, 0x0010, true, 1⟩ : Region).last.toNat ∧
    ∀ e ∈ [(⟨1, 0x0010, 0x0010, true, 1⟩ : Region)],
      ¬ (e.start.toNat ≤ (0x0011 : Word).toNat ∧ (0x0011 : Word).toNat ≤ e.last.toNat) := by decide

theorem test_witness_FirstRegionWins_unmapped : resolve bus.regions 0x8000 = none := by decide

/-- The state of the witnesses satisfies the invariant. -/
theorem bus_inv : bus.Inv where
  memories := by
    intro d m h
    rcases d with _ | _ | _ | d
    · cases h; decide
    · cases h; decide
    · cases h
    · cases h; decide
  regions := by decide
  tokens := by decide
  params := by decide
  begun := by decide

/-- The last device that exists, the first that does not, and a machine that has begun. -/
theorem test_witness_MappingShadowsUntilUnmapped :
    bus.Inv ∧ bus.started = false ∧ 2 < bus.devices.length ∧ bus.devices.length ≤ 3 ∧ bus.begun.started = true ∧
    (0x8000 : Word).toNat ≤ (0x8000 : Word).toNat ∧ ¬ (0x8001 : Word).toNat ≤ (0x8000 : Word).toNat :=
  ⟨bus_inv, rfl, by decide, by decide, rfl, by decide, by decide⟩

/-- The last word of main memory, and the last of a remapped device. -/
theorem test_witness_WordAccessRoutedByItsFirstByte :
    State.reset.wordSlot 0xFFFE = some (0, 0xFFFE) ∧ bus.wordSlot 0x30FE = some (1, 0xFE) := by decide

theorem test_witness_RawViewSharesMainMemory :
    FlatMap State.reset ∧ State.reset.started = false ∧ FlatMap State.reset.begun ∧ State.reset.begun.started = true :=
  ⟨⟨rfl, _, rfl⟩, rfl, ⟨rfl, _, rfl⟩, rfl⟩

/-- The last word of a device, its last byte, an address in no region, a word that runs past the device, a byte past a device of 0xFF
bytes, and a peripheral. -/
theorem test_witness_HostReadsLeaveTheRunAlone :
    bus.wordSlot 0x30FE = some (1, 0xFE) ∧ bus.peek 0x30FF = some 0x34 ∧ resolve bus.regions 0x8000 = none ∧
    resolve bus.regions 0x30FF = some (1, 0x00FF) ∧
    bus.device 1 = .memory { size := 0x100, cells := [(0xFE, 0x12), (0xFF, 0x34)] } ∧
    0x100 ≤ (0x00FF : Word).toNat + 1 ∧
    (bus.withDevice 1 (.memory { size := 0xFF, cells := [] })).device 1 = .memory { size := 0xFF, cells := [] } ∧
    0xFF ≤ (0x00FF : Word).toNat ∧
    resolve bus.regions 0x40FF = some (2, 0x00FF) ∧ bus.device 2 = .peripheral [] := by decide

theorem test_witness_StoresReachPeripheralsOnce :
    resolve bus.regions 0x4000 = some (2, 0x0000) ∧ bus.device 2 = .peripheral [] ∧
    resolve (bus.withReg .sp 0x4000).regions 0x4000 = some (2, 0x0000) ∧
    (bus.withReg .sp 0x4000).device 2 = .peripheral [] ∧ (bus.withReg .sp 0x4000).reg .sp = 0x4000 := by decide

/-- The loads and a pop at the peripheral's last address; its last address as the opcode's, with the operands after it in memory;
and its first as a second operand's, with the fetches before it in memory. -/
theorem test_witness_ReadsReachPeripheralsOnce :
    (let s := ((bus.withReg .r1 0x40FF).withReg .r2 0x00FF).withReg .sp 0x40FD
     resolve s.regions 0x40FF = some (2, 0x00FF) ∧ s.device 2 = .peripheral [] ∧ s.reg .r1 = 0x40FF ∧
     0x4000 + s.reg .r2 = 0x40FF ∧ s.reg .sp + 2 = 0x40FF) ∧
    (let s := bus.withReg .ip 0x40FF
     resolve s.regions 0x40FF = some (2, 0x00FF) ∧ s.device 2 = .peripheral [] ∧ s.status = .running ∧
     s.reg .ip = 0x40FF ∧ s.fetchedFrom (0x40FF + 1) (operandWidths .N) = some [] ∧
     s.wordSlot (0x40FF + 1) = some (0, 0x4100)) ∧
    (let s := edge 0x3FFD [0x10, 0x12, 0x34]
     resolve s.regions 0x4000 = some (2, 0x0000) ∧ s.device 2 = .peripheral [] ∧ s.status = .running ∧
     s.peek (s.reg .ip) = some 0x10 ∧ opcodeOfByte s.params.opcodes 0x10 = some .movLitReg ∧
     (operandWidths (opcodeFormat s.params.shiftLit .movLitReg))[1]? = some .byte ∧
     s.fetchedFrom (s.reg .ip + 1) ((operandWidths (opcodeFormat s.params.shiftLit .movLitReg)).take 1) =
       some [0x12, 0x34] ∧
     s.reg .ip + BitVec.ofNat 16 (operandOffset (opcodeFormat s.params.shiftLit .movLitReg) 1) = 0x4000 ∧
     s.fetchedFrom (0x4000 + BitVec.ofNat 16 Width.byte.bytes)
       ((operandWidths (opcodeFormat s.params.shiftLit .movLitReg)).drop (1 + 1)) = some []) := by decide

theorem test_witness_PeripheralHistoryOnlyGrows :
    (∃ t, step bus = .next t) ∧ bus.device 2 = .peripheral [] := ⟨⟨_, rfl⟩, rfl⟩

/-- The three ways of addressing the last word of a device. -/
theorem test_witness_LoadsReadTheWord :
    let s := (bus.withReg .r1 0x30FE).withReg .r2 0x000F
    s.localByte 1 0xFE = some 0x12 ∧ s.localByte 1 0xFF = some 0x34 ∧ s.wordSlot 0x30FE = some (1, 0xFE) ∧
    s.wordSlot (s.reg .r1) = some (1, 0xFE) ∧
    s.wordSlot (BitVec.ofNat 16 ((0x30EF : Word).toNat + (s.reg .r2).toNat)) = some (1, 0xFE) := by decide

theorem test_witness_StoresWriteTheWord : State.reset.wordSlot 0xFFFE = some (0, 0xFFFE) := by decide

theorem test_witness_UnmappedDataAccessFaults :
    let s := bus.withReg .r1 0x8000
    resolve s.regions 0x8000 = none ∧ s.reg .r1 = 0x8000 ∧ 0x0000 + s.reg .r1 = 0x8000 := by decide

theorem test_witness_DataAccessPastTheDeviceFaults :
    let s := bus.withReg .r1 0x30FF
    resolve s.regions 0x30FF = some (1, 0x00FF) ∧
    s.device 1 = .memory { size := 0x100, cells := [(0xFE, 0x12), (0xFF, 0x34)] } ∧ 0x100 ≤ (0x00FF : Word).toNat + 1 ∧
    s.reg .r1 = 0x30FF ∧ 0x0000 + s.reg .r1 = 0x30FF := by decide

theorem test_witness_StoredBytesAreFetchedNext :
    FlatMap (State.reset.withReg .ip 0xFFFE) ∧ ((State.reset.withReg .ip 0xFFFE).reg .ip).toNat < 0xFFFF :=
  ⟨⟨rfl, _, rfl⟩, by decide⟩

theorem test_witness_ShiftsBelowSixteen :
    (0x000F : Word).toNat ≤ 15 ∧ ((State.reset.withReg .r2 0x000F).reg .r2).toNat ≤ 15 := by decide

theorem test_witness_ShiftsFromSixteenOn :
    16 ≤ (0x0010 : Word).toNat ∧ 16 ≤ ((State.reset.withReg .r2 0x0010).reg .r2).toNat := by decide

theorem test_witness_PushStoresAtSp : State.reset.wordSlot (State.reset.reg .sp) = some (0, 0xFFFE) := by decide

/-- `sp` in a hole of the map, and `sp` at the last byte of a device. -/
theorem test_witness_FailedPushKeepsSp :
    resolve bus.regions ((bus.withReg .sp 0x8000).reg .sp) = none ∧
    resolve bus.regions ((bus.withReg .sp 0x30FF).reg .sp) = some (1, 0x00FF) ∧
    bus.device 1 = .memory { size := 0x100, cells := [(0xFE, 0x12), (0xFF, 0x34)] } ∧
    0x100 ≤ (0x00FF : Word).toNat + 1 := by decide

theorem test_witness_PopReadsAboveSp :
    bus.wordSlot (bus.reg .sp + 2) = some (1, 0xFE) ∧ bus.localByte 1 0xFE = some 0x12 ∧
    bus.localByte 1 (0xFE + 1) = some 0x34 := by decide

/-- `bus` with a frame of zeros whose argument count, 1, is the last mapped word. -/
def lastFrame : State := (bus.withReg .fp 0x7FE8).placeBytes 0x7FEA (List.replicate 21 0x00 ++ [0x01])

/-- A pop in a hole of the map, and one at the last byte of a device; a return whose first pop fails, and one whose first dropped
pop fails, with the count 1 in the last word of a device. -/
theorem test_witness_FailedPopHasMovedSp :
    ReadFaults (bus.withReg .sp 0x7FFE) 0x8000 (.unmappedAddress ⟨.read, 0x8000, .word⟩) ∧
    ReadFaults (bus.withReg .sp 0x30FD) 0x30FF (.boundsViolation ⟨.read, 0x30FF, .word⟩ 0x00FF) ∧
    (bus.withReg .sp 0x7FFE).reg .sp + 2 = 0x8000 ∧ (bus.withReg .sp 0x30FD).reg .sp + 2 = 0x30FF ∧
    (bus.withReg .fp 0x7FFE).reg .fp + BitVec.ofNat 16 (2 * (0 + 1)) = 0x8000 ∧
    (∀ j < 11, lastFrame.wordSlot (lastFrame.reg .fp + BitVec.ofNat 16 (2 * (j + 1))) = some (0, 0x7FEA + 2 * j)) ∧
    11 < 11 + (lastFrame.slotWord (0, 0x7FEA + 2 * 10)).toNat ∧
    lastFrame.reg .fp + BitVec.ofNat 16 (2 * (11 + 1)) = 0x8000 ∧
    ReadFaults lastFrame 0x8000 (.unmappedAddress ⟨.read, 0x8000, .word⟩) :=
  ⟨.inl (by decide), .inr ⟨1, 0x00FF, _, by decide, rfl, by decide, rfl⟩, by decide, by decide, by decide, by decide,
    by decide, by decide, .inl (by decide)⟩

/-- One word at the end of a device with the state right after its push, and two words one below the other. -/
theorem test_witness_PushThenPopReturnsTheWord :
    let s := bus.withReg .sp 0x30FE
    let t := after (exec (.pshLit 0x5151) s)
    s.wordSlot (s.reg .sp) = some (1, 0xFE) ∧ t.wordSlot (s.reg .sp) = some (1, 0xFE) ∧ t.slotWord (1, 0xFE) = 0x5151 ∧
    s.wordSlot (s.reg .sp - 2) = some (1, 0xFC) ∧ 0xFC + 1 < 0xFE := by decide

theorem test_witness_CallsEnterTheNewFrame :
    ∀ k < 10, (State.reset.wordSlot (State.reset.reg .sp - BitVec.ofNat 16 (2 * k))).isSome := by decide

theorem test_witness_CallLeavesTheFrame :
    FlatMap State.reset ∧ (∀ k < 10, State.reset.reg .sp - BitVec.ofNat 16 (2 * k) ≠ 0xFFFF) ∧
    (∃ t, exec (.callLit 0x0100) State.reset = .next t) ∧ ∃ t, exec (.callReg .r1) State.reset = .next t :=
  ⟨⟨rfl, _, rfl⟩, by decide, exec_next _ _, exec_next _ _⟩

/-- The first push of a call, and the last, with the return address pushed before it: at the top of main memory, in a hole of the
map, and at the end of a remapped device. -/
theorem test_witness_CallStopsAtItsFirstFailingPush :
    (∃ addr, Instr.callLit 0x0100 = .callLit addr) ∧ (∃ r, Instr.callReg .r1 = .callReg r) ∧
    (∀ c ∈ [(bus.withReg .sp 0x8000, 0), (bus.withReg .sp 0x0010, 9), (bus.withReg .sp 0x3111, 9),
        (State.reset.withReg .sp 0x0011, 9)],
      ∀ j < c.2, (c.1.wordSlot (c.1.reg .sp - BitVec.ofNat 16 (2 * j))).isSome) ∧
    WriteFaults (bus.withReg .sp 0x8000) 0x8000 (.unmappedAddress ⟨.write, 0x8000, .word⟩) ∧
    WriteFaults (bus.withReg .sp 0x0010) 0xFFFE (.unmappedAddress ⟨.write, 0xFFFE, .word⟩) ∧
    WriteFaults (bus.withReg .sp 0x3111) 0x30FF (.boundsViolation ⟨.write, 0x30FF, .word⟩ 0x00FF) ∧
    WriteFaults (State.reset.withReg .sp 0x0011) 0xFFFF (.boundsViolation ⟨.write, 0xFFFF, .word⟩ 0xFFFF) ∧
    (0x0010 : Word) - BitVec.ofNat 16 (2 * 9) = 0xFFFE ∧ (0x3111 : Word) - BitVec.ofNat 16 (2 * 9) = 0x30FF ∧
    (0x0011 : Word) - BitVec.ofNat 16 (2 * 9) = 0xFFFF :=
  ⟨⟨_, rfl⟩, ⟨_, rfl⟩, by decide, .inl (by decide), .inl (by decide), .inr ⟨1, 0x00FF, _, by decide, rfl, by decide, rfl⟩,
    .inr ⟨0, 0xFFFF, _, by decide, rfl, by decide, rfl⟩, by decide, by decide, by decide⟩

/-- A frame under the default map, with `n` in its word 10. -/
def inCallee : State := boot [0x00, 0x01] [(.sp, 0xFFEA), (.fp, 0xFFEA)]

/-- The slots of that frame: word `j` lies at `fp + 2 * (j + 1)`. -/
def calleeSlot (j : Nat) : Nat × Nat := (0, (0xFFEA + 2 * (j + 1)) % 0x10000)

/-- A return with one argument word to discard. -/
theorem test_witness_ReturnRestoresTheFrame :
    1 = (inCallee.slotWord (calleeSlot 10)).toNat ∧
    ∀ j < 11 + 1, inCallee.wordSlot (inCallee.reg .fp + BitVec.ofNat 16 (2 * (j + 1))) = some (calleeSlot j) := by decide

/-- A state after `callee` code that kept the frame of a call from `boot [0x00, 0x01] []` and changed `acc`, `r1` and `sp`. -/
def keptFrame : State :=
  boot [0x00, 0x01] [(.fp, 0xFFEA), (.acc, 0x0007), (.r1, 0x9999)] 0xFFEC ([0x00, 0x14] ++ List.replicate 18 0x00)

/-- A call whose callee keeps the frame, with the argument count 1 above the caller's `sp`. -/
theorem test_witness_CallThenReturnRestoresTheCaller :
    FlatMap (boot [0x00, 0x01] []) ∧
    (∀ k < 10, (boot [0x00, 0x01] []).reg .sp - BitVec.ofNat 16 (2 * k) ≠ 0xFFFF) ∧
    exec (.callLit 0x0100) (boot [0x00, 0x01] []) = .next (after (exec (.callLit 0x0100) (boot [0x00, 0x01] []))) ∧
    exec (.callReg .r1) (boot [0x00, 0x01] []) = .next (after (exec (.callReg .r1) (boot [0x00, 0x01] []))) ∧
    FlatMap keptFrame ∧ keptFrame.params = (boot [0x00, 0x01] []).params ∧
    (∀ i ∈ [Instr.callLit 0x0100, .callReg .r1],
     let t := after (exec i (boot [0x00, 0x01] []))
     keptFrame.reg .fp = t.reg .fp ∧
     ∀ k < 11, 1 ≤ k → keptFrame.flatWord (t.reg .fp + BitVec.ofNat 16 (2 * k)) =
       t.flatWord (t.reg .fp + BitVec.ofNat 16 (2 * k))) ∧
    1 = (keptFrame.flatWord ((boot [0x00, 0x01] []).reg .sp + 2)).toNat ∧
    ∀ k ≤ 1, (boot [0x00, 0x01] []).reg .sp + BitVec.ofNat 16 (2 * (k + 1)) ≠ 0xFFFF :=
  ⟨⟨rfl, _, rfl⟩, by decide, next_after _ _, next_after _ _, ⟨rfl, _, rfl⟩, rfl, by decide +kernel, by decide, by decide⟩

theorem test_witness_CallsAndReturnsKeepAcc :
    (∃ t, exec (.callLit 0x0100) State.reset = .next t) ∧ ∃ t, exec .ret State.reset = .next t :=
  ⟨exec_next _ _, exec_next _ _⟩

theorem test_witness_OnlyHltHalts :
    State.reset.status = .running ∧ exec .hlt State.reset = .next (after (exec .hlt State.reset)) ∧
    (after (exec .hlt State.reset)).status = .halted .normal := ⟨rfl, rfl, rfl⟩

theorem test_witness_HaltStopsTheRun :
    (boot [0xFF] []).status = .running ∧ (boot [0xFF] []).codeBytes 1 = some [0xFF] ∧
    opcodeOfByte (boot [0xFF] []).params.opcodes 0xFF = some .hlt := by decide

theorem test_witness_OnlyStackInstructionsCount :
    (∃ t, exec (.movLitReg 0x1234 .r1) State.reset = .next t) ∧
    (Instr.movLitReg 0x1234 .r1).opcode ∉ [Opcode.pshLit, .pshReg, .pop, .callLit, .callReg, .ret] :=
  ⟨⟨_, rfl⟩, by decide⟩

/-- A running machine, a run that has not ended, and one that has. -/
theorem test_witness_RunStopsAtTheEnd :
    bus.status = .running ∧ ¬ (run 0 bus).ended ∧ (run 1 bus).ended ∧ (after (step bus)).ended := by decide

theorem test_witness_StepKeepsTheMakeUp : ∃ t, step bus = .next t := ⟨_, rfl⟩

theorem test_witness_StepKeepsTheInvariant : bus.Inv ∧ ∃ t, step bus = .next t := ⟨bus_inv, _, rfl⟩

end Sys2Proof.Tests
end

section
/-! The obligations of 10_state.md: the registers by name and their reset values. -/

namespace Sys2Proof.Machine

/-! ### The fixed set of names -/

/-- Looking a listed name up finds its own row: no name is listed twice. -/
theorem regOfName_of_mem : ∀ row ∈ regNames, regOfName row.1 = some row.2 := by decide

/-- The register with a name is the one its row of the table of names gives. -/
theorem regOfName_eq_some_iff {n : String} {r : Reg} : regOfName n = some r ↔ (n, r) ∈ regNames := by
  constructor
  · intro h
    obtain ⟨row, hfind, rfl⟩ := Option.map_eq_some_iff.mp h
    have hname : row.1 = n := by simpa using List.find?_some hfind
    exact hname ▸ List.mem_of_find?_eq_some hfind
  · exact regOfName_of_mem (n, r)

/-- A name has a register exactly when it is listed. -/
theorem regOfName_isSome_iff {n : String} : (regOfName n).isSome ↔ n ∈ regNames.map Prod.fst := by
  simp [Option.isSome_iff_exists, regOfName_eq_some_iff]

/-- Two names of one register are the same name. -/
theorem regOfName_injective {m n : String} {r : Reg} (hm : regOfName m = some r) (hn : regOfName n = some r) :
    m = n := by
  have hnodup : (regNames.map Prod.snd).Nodup := by decide
  have hrow := List.inj_on_of_nodup_map hnodup (regOfName_eq_some_iff.mp hm) (regOfName_eq_some_iff.mp hn) rfl
  exact congrArg Prod.fst hrow

/-! ### Access by name -/

theorem getByName_of_some {n : String} {r : Reg} (h : regOfName n = some r) (s : State) :
    getByName s n = some (s.reg r) := by simp [getByName, h]

theorem getByName_of_none {n : String} (h : regOfName n = none) (s : State) : getByName s n = none := by
  simp [getByName, h]

theorem setByName_of_some {n : String} {r : Reg} (h : regOfName n = some r) (s : State) (v : Word) :
    setByName s n v = s.withReg r v := by simp [setByName, h]

theorem setByName_of_none {n : String} (h : regOfName n = none) (s : State) (v : Word) : setByName s n v = s := by
  simp [setByName, h]

/-- A read by name after a write to a register that is not the name's own is the read before it. -/
theorem getByName_withReg_other {m : String} {r : Reg} (h : regOfName m ≠ some r) (s : State) (v : Word) :
    getByName (s.withReg r v) m = getByName s m := by
  cases hm : regOfName m with
  | none => simp only [getByName_of_none hm]
  | some q =>
    have hq : q ≠ r := fun hqr => h (hqr ▸ hm)
    simp only [getByName_of_some hm, reg_withReg_other s v hq]

/-- Settles O13: the table of names lists no name and no register twice, so a write by name is a write to a register that
no other name reads. -/
theorem namedRegistersFailSoftly : Obligations.NamedRegistersFailSoftly := by
  refine ⟨fun n => regOfName_isSome_iff, fun row hrow s v => ?_, fun s n v hn => ?_, fun s n v hn => ?_⟩
  · have hreg : regOfName row.1 = some row.2 := regOfName_of_mem row hrow
    rw [setByName_of_some hreg]
    exact ⟨getByName_of_some hreg s, reg_withReg_same s row.2 v, onlyRegs_withReg s row.2 v⟩
  · obtain ⟨r, hr⟩ := Option.isSome_iff_exists.mp hn
    rw [setByName_of_some hr]
    refine ⟨by simp [getByName_of_some hr], fun m hmn => getByName_withReg_other (fun hm => ?_) s v⟩
    exact hmn (regOfName_injective hm hr)
  · exact ⟨setByName_of_none hn s v, getByName_of_none hn s⟩

/-! ### Reset values -/

/-- The reset value of each register (10_state.md R21). -/
theorem reg_reset (r : Reg) : State.reset.reg r = if r = .sp ∨ r = .fp then 0xFFFE else 0x0000 := by
  cases r <;> rfl

/-- Settles O15, from the reset value of each register. -/
theorem resetRegisters : Obligations.ResetRegisters := by
  refine ⟨by simp [reg_reset], by simp [reg_reset], fun r hsp hfp => ?_⟩
  simp [reg_reset, hsp, hfp]

end Sys2Proof.Machine
end

section
/-! The obligations of 20_memory.md: the round trip through a memory device. -/

namespace Sys2Proof.Machine

/-! ### One access of a memory device by its local address -/

/-- A word read in a slot gives the slot's word and changes nothing (20_memory.md R53). -/
theorem deviceRead16_slot {s : State} {d : Nat} {la : Word} (h : SlotIn s (d, la.toNat)) (info : AccessInfo) :
    deviceRead16 d la info s = .ok (s.slotWord (d, la.toNat)) s := by
  obtain ⟨m, hd, hlt⟩ := h
  simp only at hd hlt
  simp [deviceRead16, State.slotWord, hd, hlt]

/-- A word written in a slot is stored there (20_memory.md R53). -/
theorem deviceWrite16_slot {s : State} {d : Nat} {la : Word} (h : SlotIn s (d, la.toNat)) (v : Word)
    (info : AccessInfo) : deviceWrite16 d la v info s = .ok () (s.storeWord (d, la.toNat) v) := by
  obtain ⟨m, hd, hlt⟩ := h
  simp only at hd hlt
  simp [deviceWrite16, State.storeWord, hd, hlt]

/-- A byte read gives the byte that a memory device holds there and changes nothing (20_memory.md R52). -/
theorem deviceRead8_localByte {s : State} {d : Nat} {la : Word} {b : Byte} (h : s.localByte d la.toNat = some b)
    (info : AccessInfo) : deviceRead8 d la info s = .ok b s := by
  cases hd : s.device d with
  | peripheral q => simp [State.localByte, hd] at h
  | memory m =>
    simp only [State.localByte, hd] at h
    split at h
    next hlt => simp [deviceRead8, hd, hlt, Option.some.inj h]
    next => cases h

/-- A word read whose second byte lies beyond the device fails (20_memory.md R53). -/
theorem deviceRead16_outside {s : State} {d : Nat} {la : Word} {m : Memory} (hd : s.device d = .memory m)
    (hb : m.size ≤ la.toNat + 1) (info : AccessInfo) :
    deviceRead16 d la info s = .error (.fault (.boundsViolation info la)) s := by
  simp [deviceRead16, hd, Nat.not_lt.mpr hb]

/-- A word write whose second byte lies beyond the device fails and stores neither byte (20_memory.md R53). -/
theorem deviceWrite16_outside {s : State} {d : Nat} {la : Word} {m : Memory} (hd : s.device d = .memory m)
    (hb : m.size ≤ la.toNat + 1) (v : Word) (info : AccessInfo) :
    deviceWrite16 d la v info s = .error (.fault (.boundsViolation info la)) s := by
  simp [deviceWrite16, hd, Nat.not_lt.mpr hb]

/-- A store leaves its slot inside the device. -/
theorem SlotIn.storeWord {s : State} {slot : Nat × Nat} (h : SlotIn s slot) (v : Word) :
    SlotIn (s.storeWord slot v) slot := by
  obtain ⟨m, hd, hlt⟩ := h
  exact ⟨m.putWord slot.2 v, device_storeWord_same hd hlt v, hlt⟩

/-! ### The round trip -/

/-- A word read after a word write at the same local address (20_memory.md R54). -/
theorem deviceRead16_storeWord {s : State} {d : Nat} {la : Word} (h : SlotIn s (d, la.toNat)) (v : Word)
    (info : AccessInfo) :
    deviceRead16 d la info (s.storeWord (d, la.toNat) v) = .ok v (s.storeWord (d, la.toNat) v) := by
  rw [deviceRead16_slot (h.storeWord v), slotWord_storeWord_same h]

/-- Settles O18: inside the device the state after the write is the store into the slot at `la`, whose word and whose two
bytes are those of `v`; at the last byte neither access has its second byte. -/
theorem memoryRoundTrip : Obligations.MemoryRoundTrip := by
  intro s d m la v info hd
  constructor
  · intro hin
    have hslot : SlotIn s (d, la.toNat) := ⟨m, hd, hin⟩
    have hstored := storesWord_storeWord hslot v
    refine ⟨s.storeWord (d, la.toNat) v, deviceWrite16_slot hslot v info, deviceRead16_storeWord hslot v info,
      deviceRead8_localByte hstored.high info, fun hnowrap => deviceRead8_localByte ?_ info⟩
    have hnext : (la + 1).toNat = la.toNat + 1 := BitVec.toNat_add_of_lt hnowrap
    rw [hnext]
    exact hstored.low
  · intro hlast
    exact ⟨deviceWrite16_outside hd hlast.ge v info, deviceRead16_outside hd hlast.ge info⟩

end Sys2Proof.Machine
end

section
/-! The obligations of 30_encoding.md: the register a register byte names. -/

namespace Sys2Proof

/-- The register with a number below twelve has that number (10_state.md R20). -/
theorem regIndex_regOfIndex : ∀ n < 12, regIndex (regOfIndex n) = n := by decide

/-- A register byte names the register numbered by its remainder modulo 12 (30_encoding.md R92). -/
theorem regIndex_regOfByte (b : Byte) : regIndex (regOfByte b) = b.toNat % 12 :=
  regIndex_regOfIndex (b.toNat % 12) (Nat.mod_lt _ (by decide))

/-- A register operand is the register that the next byte names, whatever the byte: none is refused (30_encoding.md R92,
R101). -/
theorem nextReg_cons (b : Byte) (rest : List Byte) : nextReg (b :: rest) = .ok (regOfByte b) rest := rfl

/-- Settles O4: the remainder modulo 12 is always the number of a register, so no byte is left without one. -/
theorem registerByteModTwelve : Obligations.RegisterByteModTwelve :=
  ⟨regIndex_regOfByte, nextReg_cons, rfl, rfl, rfl⟩

end Sys2Proof
end

section
/-! The obligations of 44_stack_call.md: the stack law. -/

namespace Sys2Proof.Machine

/-! ### The state after a push into a slot -/

@[simp] theorem reg_sp_pushed (s : State) (slot : Nat × Nat) (v : Word) :
    (s.pushed slot v).reg .sp = s.reg .sp - 2 := by simp [State.pushed]

@[simp] theorem fsz_pushed (s : State) (slot : Nat × Nat) (v : Word) : (s.pushed slot v).fsz = s.fsz + 2 := by
  simp [State.pushed]

/-- Slots do not move under a push. -/
@[simp] theorem wordSlot_pushed (s : State) (slot : Nat × Nat) (v a : Word) :
    (s.pushed slot v).wordSlot a = s.wordSlot a :=
  (wordSlot_congr (s := s.storeWord slot v) rfl rfl a).trans (wordSlot_storeWord s slot v a)

/-- The slot pushed into holds the word (44_stack_call.md R240). -/
theorem slotWord_pushed_same {s : State} {slot : Nat × Nat} (h : SlotIn s slot) (v : Word) :
    (s.pushed slot v).slotWord slot = v :=
  (slotWord_congr (s := s.storeWord slot v) rfl slot).trans (slotWord_storeWord_same h v)

/-- A slot that shares no byte with the one pushed into keeps its word. -/
theorem slotWord_pushed_apart {s : State} {slot other : Nat × Nat} (h : SlotIn s slot) (v : Word)
    (hapart : SlotsApart other slot) : (s.pushed slot v).slotWord other = s.slotWord other :=
  (slotWord_congr (s := s.storeWord slot v) rfl other).trans (slotWord_storeWord_apart h v hapart)

/-- PSH_LIT onto a slot (44_stack_call.md R244). -/
theorem exec_pshLit_slot {s : State} {slot : Nat × Nat} (h : s.wordSlot (s.reg .sp) = some slot) (v : Word) :
    exec (.pshLit v) s = .next (s.pushed slot v) := by
  rw [exec_eq_perform]
  exact perform_ok ((run_pushOperand (run_litOperand v s)).trans (push_slot h v))

/-! ### The state after a POP from a slot -/

/-- The state after a POP that gave `v`: the register is written after `sp` has moved (44_stack_call.md R246). -/
def State.poppedInto (s : State) (rd : Reg) (v : Word) : State := s.popped.withReg rd v

@[simp] theorem reg_poppedInto_same (s : State) (rd : Reg) (v : Word) : (s.poppedInto rd v).reg rd = v := by
  simp [State.poppedInto]

theorem reg_sp_poppedInto (s : State) {rd : Reg} (v : Word) (h : rd ≠ .sp) :
    (s.poppedInto rd v).reg .sp = s.reg .sp + 2 := by
  simp [State.poppedInto, State.popped, reg_withReg_other _ _ h.symm]

theorem sameRegsBut_poppedInto (s : State) (rd : Reg) (v : Word) :
    SameRegsBut [rd, .sp] s (s.poppedInto rd v) := by
  intro r hr
  obtain ⟨hrd, hsp⟩ : r ≠ rd ∧ r ≠ .sp := by simpa using hr
  simp [State.poppedInto, State.popped, reg_withReg_other _ _ hrd, reg_withReg_other _ _ hsp]

@[simp] theorem fsz_poppedInto (s : State) (rd : Reg) (v : Word) : (s.poppedInto rd v).fsz = s.fsz - 2 := rfl

@[simp] theorem wordSlot_poppedInto (s : State) (rd : Reg) (v a : Word) :
    (s.poppedInto rd v).wordSlot a = s.wordSlot a := wordSlot_congr rfl rfl a

@[simp] theorem slotWord_poppedInto (s : State) (rd : Reg) (v : Word) (slot : Nat × Nat) :
    (s.poppedInto rd v).slotWord slot = s.slotWord slot := slotWord_congr rfl slot

/-- POP with `sp` 2 below an address `a` whose slot holds `v`, as a push of `v` at `a` leaves it (44_stack_call.md R246). -/
theorem exec_pop_slot {u : State} {a v : Word} {slot : Nat × Nat} (hsp : u.reg .sp = a - 2)
    (h : u.wordSlot a = some slot) (hv : u.slotWord slot = v) (rd : Reg) :
    exec (.pop rd) u = .next (u.poppedInto rd v) := by
  have hback : u.reg .sp + 2 = a := by rw [hsp, BitVec.sub_add_cancel]
  have hpop : pop u = .ok v u.popped := hv ▸ pop_slot (hback.symm ▸ h)
  rw [exec_eq_perform]
  refine perform_ok ?_
  simp [instrOp, intoReg, run_bind, hpop, State.poppedInto]

/-! ### The stack law -/

/-- A POP from any state with the `sp` and the counter of the push, in which the slot still holds the word, undoes the
push (44_stack_call.md R254). -/
theorem pop_undoes_pshLit {s u : State} {slot : Nat × Nat} {v : Word} (h : u.wordSlot (s.reg .sp) = some slot)
    (hv : u.slotWord slot = v) (hsp : u.reg .sp = s.reg .sp - 2) (hfsz : u.fsz = s.fsz + 2) (rd : Reg) :
    ∃ w, exec (.pop rd) u = .next w ∧ w.reg rd = v ∧ (rd ≠ .sp → w.reg .sp = s.reg .sp) ∧
      SameRegsBut [rd, .sp] u w ∧ w.fsz = s.fsz := by
  refine ⟨u.poppedInto rd v, exec_pop_slot hsp h hv rd, reg_poppedInto_same u rd v, fun hrd => ?_,
    sameRegsBut_poppedInto u rd v, ?_⟩
  · rw [reg_sp_poppedInto u v hrd, hsp, BitVec.sub_add_cancel]
  · rw [fsz_poppedInto, hfsz, BitVec.add_sub_cancel]

/-- Two words pushed onto slots that share no byte come back last in, first out (44_stack_call.md R254): the second push
leaves the first word where it is, and the first pop leaves memory as it is. -/
theorem pop_pop_undoes_pshLit_pshLit {s : State} {slot slot2 : Nat × Nat} (h : s.wordSlot (s.reg .sp) = some slot)
    (h2 : s.wordSlot (s.reg .sp - 2) = some slot2) (hapart : SlotsApart slot slot2) (v second : Word) {ra rb : Reg}
    (hab : ra ≠ rb) (ha : ra ≠ .sp) (hb : rb ≠ .sp) :
    ∃ t1 t2 t3 t4, exec (.pshLit v) s = .next t1 ∧ exec (.pshLit second) t1 = .next t2 ∧
      exec (.pop ra) t2 = .next t3 ∧ exec (.pop rb) t3 = .next t4 ∧
      t4.reg ra = second ∧ t4.reg rb = v ∧ t4.reg .sp = s.reg .sp ∧ t4.fsz = s.fsz ∧ SameRegsBut [ra, rb] s t4 := by
  let t1 := s.pushed slot v
  let t2 := t1.pushed slot2 second
  let t3 := t2.poppedInto ra second
  have hslot1 : t1.wordSlot (t1.reg .sp) = some slot2 := by simpa [t1] using h2
  have hin2 : SlotIn t1 slot2 := slotIn_of_wordSlot hslot1
  have hfirst : t3.slotWord slot = v := by
    rw [slotWord_poppedInto, slotWord_pushed_apart hin2 second hapart,
      slotWord_pushed_same (slotIn_of_wordSlot h)]
  have hsp3 : t3.reg .sp = s.reg .sp - 2 := by simp [t3, t2, t1, reg_sp_poppedInto _ _ ha]
  obtain ⟨t4, hpop4, hrb4, hsp4, hregs4, hfsz4⟩ :=
    pop_undoes_pshLit (u := t3) (by simpa [t3, t2, t1] using h) hfirst hsp3 (by simp [t3, t2, t1]) rb
  have hpop3 : exec (.pop ra) t2 = .next t3 :=
    exec_pop_slot (reg_sp_pushed t1 slot2 second) (by simpa [t2] using hslot1) (slotWord_pushed_same hin2 second) ra
  refine ⟨t1, t2, t3, t4, exec_pshLit_slot h v, exec_pshLit_slot hslot1 second, hpop3, hpop4, ?_, hrb4, hsp4 hb,
    hfsz4, fun r hr => ?_⟩
  · rw [hregs4 ra (by simp [hab, ha]), reg_poppedInto_same]
  · obtain ⟨hra, hrb⟩ : r ≠ ra ∧ r ≠ rb := by simpa using hr
    by_cases hsp : r = .sp
    · rw [hsp, hsp4 hb]
    · have hpushed : PushedFrom s t2 := (pushedFrom_pushed s slot v).trans (pushedFrom_pushed t1 slot2 second)
      rw [hregs4 r (by simp [hrb, hsp]), sameRegsBut_poppedInto t2 ra second r (by simp [hra, hsp]),
        hpushed.regs r hsp]

/-- Settles O47: the push leaves the word in its slot, the pop that follows undoes it, and of two pushes each pop undoes
the latest one left. -/
theorem pushThenPopReturnsTheWord : Obligations.PushThenPopReturnsTheWord := by
  intro s v slot h
  refine ⟨⟨s.pushed slot v, exec_pshLit_slot h v, (wordSlot_pushed s slot v _).trans h,
    slotWord_pushed_same (slotIn_of_wordSlot h) v, fun u rd hu hv hsp hfsz => ?_⟩,
    fun second slot2 ra rb h2 hapart hab ha hb => ?_⟩
  · exact pop_undoes_pshLit hu hv (hsp.trans (reg_sp_pushed s slot v)) (hfsz.trans (fsz_pushed s slot v)) rd
  · exact pop_pop_undoes_pshLit_pshLit h h2 hapart v second hab ha hb

end Sys2Proof.Machine
end

section
/-! The obligations of 45_control.md: HLT ends the run. -/

namespace Sys2Proof

/-- A byte that the opcode map gives to HLT is a whole instruction: HLT has no operand (45_control.md R270). -/
theorem decode_hlt {p : Config.Params} {b : Byte} (h : opcodeOfByte p.opcodes b = some .hlt) :
    decode p [b] = .ok (.hlt, []) := by
  simp only [decode, readInstr, reader_bind, nextByte, h]
  rfl

end Sys2Proof

namespace Sys2Proof.Machine

/-! ### The frame of a stop -/

theorem sameRegsBut_stopped (s : State) (why : Stop) : SameRegsBut [] s (s.stopped why) :=
  fun r _ => reg_stopped s why r

theorem sameStore_stopped (s : State) (why : Stop) : SameStore s (s.stopped why) :=
  sameStore_of_eq (stopped_regions s why) (stopped_devices s why)

theorem sameMachine_stopped (s : State) (why : Stop) : SameMachine s (s.stopped why) where
  regions := stopped_regions s why
  nextToken := stopped_nextToken s why
  started := stopped_started s why
  params := stopped_params s why

/-! ### A step, from the fetching of its instruction -/

/-- Stepping has no part in what the code bytes are: they are read through `ip`, the mapper and the devices. -/
@[simp] theorem codeBytes_begun (s : State) (n : Nat) : s.begun.codeBytes n = s.codeBytes n := rfl

/-- A step whose fetching completes is the meaning of the instruction fetched (30_encoding.md R107). -/
theorem step_fetched {s t : State} {i : Instr} (hrun : s.status = .running) (h : fetchInstr s.begun = .ok i t) :
    step s = exec i t := by
  simp only [step, hrun, h]

/-- A step on code in one memory device is the meaning of the decoded instruction, with `ip` past its bytes
(30_encoding.md R107). -/
theorem step_of_codeBytes {s : State} {n : Nat} {bs : List Byte} {i : Instr} (hrun : s.status = .running)
    (h : s.codeBytes n = some bs) (hd : decode s.params bs = .ok (i, [])) :
    step s = exec i (s.begun.withReg .ip (s.reg .ip + BitVec.ofNat 16 n)) :=
  step_fetched hrun (fetchInstr_of_codeBytes ((codeBytes_begun s n).trans h) hd)

/-! ### HLT -/

/-- HLT takes the normal halt, and that is the whole of its meaning (45_control.md R270). -/
theorem exec_hlt (s : State) : exec .hlt s = .next (s.stopped (.halt .normal)) := by
  rw [exec_eq_perform]
  exact perform_error (run_stop _ s)

/-- A step on an HLT byte: `ip` moves past the byte, then the run ends (45_control.md R270). -/
theorem step_hlt {s : State} {b : Byte} (hrun : s.status = .running) (hcode : s.codeBytes 1 = some [b])
    (hop : opcodeOfByte s.params.opcodes b = some .hlt) :
    step s = .next ((s.begun.withReg .ip (s.reg .ip + 1)).stopped (.halt .normal)) :=
  (step_of_codeBytes hrun hcode (decode_hlt hop)).trans (exec_hlt _)

/-- The host's step reports whether the state after it has left Running (60_exceptions.md R299). -/
theorem hostStep_of_step {s t : State} (h : step s = .next t) : hostStep s = some (t.status != .running, t) := by
  simp only [hostStep, h]

/-- Settles O54: HLT's meaning is the normal halt, whose frame is that of every stop; as a step it halts the state in which
fetching has moved `ip` past the byte. -/
theorem haltStopsTheRun : Obligations.HaltStopsTheRun := by
  refine ⟨fun s => ⟨s.stopped (.halt .normal), exec_hlt s, stopped_status s _, sameRegsBut_stopped s _,
    stopped_fsz s _, sameStore_stopped s _, sameMachine_stopped s _⟩, fun s b hrun hcode hop => ?_⟩
  let fetched := s.begun.withReg .ip (s.reg .ip + 1)
  refine ⟨fetched.stopped (.halt .normal), hostStep_of_step (step_hlt hrun hcode hop), stopped_status fetched _,
    reg_withReg_same s.begun .ip _, fun r hr => ?_, rfl, sameStore_of_eq rfl rfl⟩
  calc (fetched.stopped (.halt .normal)).reg r
    _ = fetched.reg r := reg_stopped fetched _ r
    _ = s.begun.reg r := sameRegsBut_withReg s.begun .ip _ r hr
    _ = s.reg r := reg_begun s r

end Sys2Proof.Machine
end

section
/-! The obligations of 30_encoding.md: decode inverts encode, the first byte fixes the length, and the decoder refuses by the
first byte or for want of bytes only. -/

namespace Sys2Proof

/-! ### The decoder by its first byte -/

theorem readInstr_unrecognized {p : Config.Params} {b : Byte} (h : opcodeOfByte p.opcodes b = none) (bs : List Byte) :
    readInstr p (b :: bs) = .error (.unrecognizedOpcode b) bs := by
  simp only [readInstr, reader_bind, nextByte, h]
  rfl

theorem readInstr_recognized {p : Config.Params} {b : Byte} {o : Opcode} (h : opcodeOfByte p.opcodes b = some o)
    (bs : List Byte) : readInstr p (b :: bs) = readOperands nextReg nextWord (nextShiftLit p.shiftLit) o bs := by
  simp only [readInstr, reader_bind, nextByte, h]

theorem decode_eq_ok_iff {p : Config.Params} {bs rest : List Byte} {i : Instr} :
    decode p bs = .ok (i, rest) ↔ readInstr p bs = .ok i rest := by
  cases h : readInstr p bs <;> simp [decode, h]

theorem decode_eq_error_iff {p : Config.Params} {bs : List Byte} {e : DecodeError} :
    decode p bs = .error e ↔ ∃ rest, readInstr p bs = .error e rest := by
  cases h : readInstr p bs <;> simp [decode, h]

/-! ### Reading back what the encoder writes -/

/-- The reader gives `a` on the bytes `bs` and leaves what follows them. -/
def Reads {α : Type} (bs : List Byte) (a : α) (x : ByteReader α) : Prop := ∀ rest, x (bs ++ rest) = .ok a rest

theorem reads_reg (r : Reg) : Reads [regByte r] r nextReg := nextReg_regByte r

theorem reads_word (v : Word) : Reads (wordBytes v) v nextWord := nextWord_wordBytes v

theorem reads_shiftLit {w : Config.ShiftLitWidth} {n : Word} (h : shiftLitFits w n = true) :
    Reads (shiftLitBytes w n) n (nextShiftLit w) := nextShiftLit_shiftLitBytes h

theorem reads_pure {α : Type} (a : α) : Reads [] a (pure a) := fun _ => rfl

theorem Reads.bind {α β : Type} {bs cs : List Byte} {a : α} {b : β} {x : ByteReader α} {f : α → ByteReader β}
    (hx : Reads bs a x) (hf : Reads cs b (f a)) : Reads (bs ++ cs) b (x >>= f) := by
  intro rest
  rw [reader_bind, List.append_assoc, hx]
  exact hf rest

/-- The last operand of an instruction. -/
theorem Reads.last {α β : Type} {bs : List Byte} {a : α} {x : ByteReader α} (hx : Reads bs a x) (f : α → β) :
    Reads bs (f a) (x >>= fun a => pure (f a)) := by
  simpa using hx.bind (f := fun a => pure (f a)) (reads_pure (f a))

/-- The operands of an instruction read back from the bytes they are written as, format by format (30_encoding.md R94 to R96;
the order is decision D2). -/
theorem reads_operandBytes {w : Config.ShiftLitWidth} (i : Instr) (h : i.wellFormed w = true) :
    Reads (operandBytes w i) i (readOperands nextReg nextWord (nextShiftLit w) i.opcode) := by
  cases i with
  | ret | hlt => exact reads_pure _
  | incReg r | decReg r | notReg r | pshReg r | pop r | callReg r => exact (reads_reg r).last _
  | pshLit v | callLit v => exact (reads_word v).last _
  | movRegReg r q | movRegPtrReg r q | addRegReg r q | subRegReg r q | mulRegReg r q | lsfRegReg r q | rsfRegReg r q
  | andRegReg r q | orRegReg r q | xorRegReg r q => exact (reads_reg r).bind ((reads_reg q).last _)
  | lsfRegLit r n | rsfRegLit r n => exact (reads_reg r).bind ((reads_shiftLit h).last _)
  | movLitReg v r | movMemReg v r | addLitReg v r | subLitReg v r | mulLitReg v r =>
    exact (reads_word v).bind ((reads_reg r).last _)
  | movRegMem r v | subRegLit r v | andRegLit r v | orRegLit r v | xorRegLit r v | jneReg r v | jeqReg r v | jltReg r v
  | jgtReg r v | jleReg r v | jgeReg r v => exact (reads_reg r).bind ((reads_word v).last _)
  | movLitMem v a | jmpNotEq v a | jeqLit v a | jltLit v a | jgtLit v a | jleLit v a | jgeLit v a =>
    exact (reads_word v).bind ((reads_word a).last _)
  | movLitOffReg v r q => exact (reads_word v).bind ((reads_reg r).bind ((reads_reg q).last _))

/-- Settles O1: the opcode byte of an admitted map stands for its mnemonic, and the operands read back. -/
theorem decodeInvertsEncode : Obligations.DecodeInvertsEncode := by
  intro p i rest hp hwf
  have hop : opcodeOfByte p.opcodes (byteOfOpcode p.opcodes i.opcode) = some i.opcode := opcodeOfByte_byteOfOpcode hp i.opcode
  rw [decode_eq_ok_iff]
  calc readInstr p (encode p i ++ rest)
    _ = readOperands nextReg nextWord (nextShiftLit p.shiftLit) i.opcode (operandBytes p.shiftLit i ++ rest) :=
      readInstr_recognized hop _
    _ = .ok i rest := reads_operandBytes i hwf rest

/-! ### What the first byte fixes -/

theorem formatLength_pos (f : Format) : 1 ≤ formatLength f := by cases f <;> decide

/-- Settles O2: the first byte names the mnemonic, whose operands take what its format says, whatever follows them. -/
theorem firstByteFixesTheLength : Obligations.FirstByteFixesTheLength := by
  intro p bs rest i h
  rw [decode_eq_ok_iff] at h
  cases bs with
  | nil => cases h
  | cons b bs =>
    cases ho : opcodeOfByte p.opcodes b with
    | none => rw [readInstr_unrecognized ho] at h; cases h
    | some o =>
      rw [readInstr_recognized ho] at h
      obtain ⟨⟨hi, hwf⟩, operands, rfl, hlen, hother⟩ := (exactly_operands p.shiftLit o).takes bs i rest h
      subst hi
      refine ⟨hwf, b, operands, rfl, ho, ?_, fun other => ?_⟩
      · rw [hlen, Nat.sub_add_cancel (formatLength_pos _)]
      · rw [decode_eq_ok_iff, List.cons_append, readInstr_recognized ho]
        exact hother other

/-- Settles O3: past a first byte that names a mnemonic, only the operands' bytes can be missing. -/
theorem decoderRefusesByNameOnly : Obligations.DecoderRefusesByNameOnly := by
  intro p bs e h
  obtain ⟨rest, h⟩ := decode_eq_error_iff.mp h
  cases bs with
  | nil => cases h; exact .inr ⟨rfl, .inl rfl⟩
  | cons b bs =>
    cases ho : opcodeOfByte p.opcodes b with
    | none =>
      rw [readInstr_unrecognized ho] at h
      cases h
      exact .inl ⟨b, rfl, ho, rfl⟩
    | some o =>
      rw [readInstr_recognized ho] at h
      obtain ⟨he, hshort⟩ := (exactly_operands p.shiftLit o).fails bs e rest h
      refine .inr ⟨he, .inr ⟨b, o, rfl, ho, ?_⟩⟩
      rw [List.length_cons]
      omega

/-! ### The default table and the examples -/

/-- Settles O5: the 46 rows of the table, counted out (30_encoding.md R98). -/
theorem defaultTableLeaves210Bytes : Obligations.DefaultTableLeaves210Bytes :=
  ⟨by decide, by decide +kernel, by decide⟩

/-- Settles O6: each word read through the table and its format. -/
theorem exampleWordsDecode : Obligations.ExampleWordsDecode :=
  ⟨rfl, rfl, rfl, rfl, rfl, rfl, rfl, rfl, rfl, rfl, rfl, rfl⟩

end Sys2Proof
end

section
/-! The obligations of the whole machine: what every step keeps (10_state.md section 4, 20_memory.md sections 7 and 9), what an
instruction may do to the run state, the counter and `acc`, and how a run ends (45_control.md). -/

namespace Sys2Proof.Machine

variable {P : Reg → Prop} {F : Prop}

/-! ### What elementary effects keep of the devices -/

/-- A memory device in canonical form stays in it: an effect writes in range. -/
theorem Effects.memories_wf {s t : State} (h : Effects P F s t) (hwf : ∀ d m, s.device d = .memory m → m.wf = true) (d : Nat)
    (m : Memory) (hd : t.device d = .memory m) : m.wf = true :=
  h.device_rel (R := fun x y => (∀ m, x = .memory m → m.wf = true) → ∀ m, y = .memory m → m.wf = true)
    (fun _ hx => hx) (fun _ _ _ hxy hyz hx => hyz (hxy hx))
    (fun m a b ha hm n hn => by cases hn; exact wf_putByte b (hm m rfl) ha)
    (fun m a v ha hm n hn => by cases hn; exact wf_putWord v (hm m rfl) ha)
    (fun _ _ _ n hn => by cases hn) d (hwf d) m hd

/-- A memory device stays a memory device of its size. -/
theorem Effects.memory_size {s t : State} (h : Effects P F s t) (d : Nat) (m : Memory) (hd : s.device d = .memory m) :
    ∃ m', t.device d = .memory m' ∧ m'.size = m.size :=
  h.device_rel (R := fun x y => ∀ m, x = .memory m → ∃ m', y = .memory m' ∧ m'.size = m.size)
    (fun _ m hx => ⟨m, hx, rfl⟩)
    (fun _ _ _ hxy hyz m hx => by
      obtain ⟨m1, h1, e1⟩ := hxy m hx
      obtain ⟨m2, h2, e2⟩ := hyz m1 h1
      exact ⟨m2, h2, e2.trans e1⟩)
    (fun m a b _ n hn => by cases hn; exact ⟨_, rfl, putByte_size m a b⟩)
    (fun m a v _ n hn => by cases hn; exact ⟨_, rfl, putWord_size m a v⟩)
    (fun _ _ n hn => by cases hn) d m hd

/-- A peripheral stays a peripheral, and what it has received only grows at the front. -/
theorem Effects.history_grows {s t : State} (h : Effects P F s t) (d : Nat) (q : List Config.DeviceAccess)
    (hd : s.device d = .peripheral q) : ∃ new, t.device d = .peripheral (new ++ q) :=
  h.device_rel (R := fun x y => ∀ q, x = .peripheral q → ∃ new, y = .peripheral (new ++ q))
    (fun _ q hx => ⟨[], hx⟩)
    (fun _ _ _ hxy hyz q hx => by
      obtain ⟨n1, h1⟩ := hxy q hx
      obtain ⟨n2, h2⟩ := hyz (n1 ++ q) h1
      exact ⟨n2 ++ n1, by rw [h2, List.append_assoc]⟩)
    (fun _ _ _ _ q hq => by cases hq)
    (fun _ _ _ _ q hq => by cases hq)
    (fun _ acc q hq => by cases hq; exact ⟨[acc], rfl⟩) d q hd

/-! ### What a step keeps -/

/-- The invariant is kept by elementary effects. -/
theorem Effects.inv {s t : State} (h : Effects P F s t) (hs : s.Inv) : t.Inv := by
  obtain ⟨hstatus, hregions, htoken, hstarted, hparams, hcount⟩ := h.same
  exact
    { memories := h.memories_wf hs.memories
      regions := by rw [hregions, hcount]; exact hs.regions
      tokens := by rw [hregions, htoken]; exact hs.tokens
      params := by rw [hparams]; exact hs.params
      begun := by rw [hstarted, hstatus]; exact hs.begun }

theorem State.Inv.begun_inv {s : State} (h : s.Inv) (hrun : s.status = .running) : s.begun.Inv :=
  ⟨h.memories, h.regions, h.tokens, h.params, fun _ => hrun⟩

/-- A stop keeps the invariant of a machine that has begun. -/
theorem State.Inv.stopped {s : State} (h : s.Inv) (hstarted : s.started = true) (why : Stop) : (s.stopped why).Inv :=
  ⟨h.memories, h.regions, h.tokens, h.params, fun hno => absurd (hstarted.symm.trans hno) (by decide)⟩

/-- Settles O59: a step begins a running machine, has elementary effects and may stop, and each of these keeps the invariant. -/
theorem stepKeepsTheInvariant : Obligations.StepKeepsTheInvariant := by
  intro s t hs hstep
  obtain ⟨hrun, u, heff, hend⟩ := step_effects hstep
  have hu : u.Inv := heff.inv (hs.begun_inv hrun)
  obtain ⟨_, _, _, hstarted, _⟩ := heff.same
  rcases hend with rfl | ⟨why, rfl⟩
  · exact hu
  · exact hu.stopped hstarted why

/-- Settles O60: the reset machine has one memory device, which lists nothing, and one region. -/
theorem resetSatisfiesTheInvariant : Obligations.ResetSatisfiesTheInvariant where
  memories := by
    intro d m hd
    cases d with
    | zero => cases hd; rfl
    | succ d => cases hd; rfl
  regions := by decide
  tokens := by decide
  params := by decide
  begun := fun _ => rfl

/-- The state a step leaves, up to the stop that may end it: elementary effects on the devices, the rest as it was. -/
theorem step_devices {s t : State} (h : step s = .next t) :
    ∃ u, Effects (fun _ => True) True s.begun u ∧ t.devices = u.devices ∧ SameMachine u t := by
  obtain ⟨_, u, heff, hend⟩ := step_effects h
  rcases hend with rfl | ⟨why, rfl⟩
  · exact ⟨t, heff, rfl, sameMachine_rfl t⟩
  · exact ⟨u, heff, rfl, sameMachine_stopped u why⟩

/-- Settles O58: elementary effects touch no region and no parameter, and leave every device its kind and its size. -/
theorem stepKeepsTheMakeUp : Obligations.StepKeepsTheMakeUp := by
  intro s t hstep
  obtain ⟨u, heff, hdev, hmach⟩ := step_devices hstep
  obtain ⟨_, hregions, htoken, _, hparams, hcount⟩ := heff.same
  exact
    { regions := hmach.regions.trans hregions
      nextToken := hmach.nextToken.trans htoken
      params := hmach.params.trans hparams
      count := (congrArg List.length hdev).trans hcount
      sizes := fun d m hd => by rw [device_congr hdev]; exact heff.memory_size d m hd
      peripherals := fun d q hd => by
        obtain ⟨new, hu⟩ := heff.history_grows d q hd
        exact ⟨new ++ q, (device_congr hdev d).trans hu⟩ }

/-- Settles O28: each effect on a peripheral puts one access in front of those before it. -/
theorem peripheralHistoryOnlyGrows : Obligations.PeripheralHistoryOnlyGrows := by
  intro s t d q hstep hd
  obtain ⟨u, heff, hdev, _⟩ := step_devices hstep
  rw [device_congr hdev]
  exact heff.history_grows d q hd

/-! ### What an instruction may do to the run state, the counter and `acc` -/

/-- The run state after an instruction: as before, faulted, or HLT's halt. -/
theorem exec_status {i : Instr} {s t : State} (h : exec i s = .next t) :
    t.status = s.status ∨ (∃ c, t.status = .faulted c) ∨ (i = .hlt ∧ t.status = .halted .normal) := by
  obtain ⟨u, heff, hend⟩ := exec_effects h
  rcases hend with rfl | ⟨c, rfl⟩ | ⟨hi, rfl⟩
  · exact .inl heff.same.1
  · exact .inr (.inl ⟨c, rfl⟩)
  · exact .inr (.inr ⟨hi, rfl⟩)

/-- Settles O12, from the three ways an instruction may leave the run state. -/
theorem everyInstructionIsLegal : Obligations.EveryInstructionIsLegal := by
  intro i s
  obtain ⟨t, ht⟩ := exec_next i s
  refine ⟨t, ht, ?_⟩
  rcases exec_status ht with hsame | hfault | ⟨_, hhalt⟩
  · exact .inl hsame
  · exact .inr (.inr hfault)
  · exact .inr (.inl hhalt)

/-- Settles O55: of the three ways an instruction may leave the run state, one is a halt. -/
theorem onlyHltHalts : Obligations.OnlyHltHalts := by
  intro s t i why hrun ht hwhy
  rcases exec_status ht with hsame | ⟨c, hfault⟩ | ⟨hi, hhalt⟩
  · rw [hsame, hrun] at hwhy; cases hwhy
  · rw [hfault] at hwhy; cases hwhy
  · rw [hhalt] at hwhy; cases hwhy; exact ⟨hi, rfl⟩

/-- An instruction leaves the registers outside its footprint, faulting or not. -/
theorem exec_reg_eq {i : Instr} {s t : State} (h : exec i s = .next t) {r : Reg} (hr : ¬ mayWrite i r) :
    t.reg r = s.reg r := by
  obtain ⟨u, heff, hend⟩ := exec_effects h
  rcases hend with rfl | ⟨c, rfl⟩ | ⟨_, rfl⟩ <;> exact heff.reg_eq hr

/-- Settles O53: `acc` lies in no call's and no return's footprint. -/
theorem callsAndReturnsKeepAcc : Obligations.CallsAndReturnsKeepAcc := by
  intro s t i hi h
  refine exec_reg_eq h ?_
  rcases hi with ⟨addr, rfl⟩ | ⟨r, rfl⟩ | rfl <;> simp [mayWrite]

/-- Settles O56: the instructions that may count are those of the statement. -/
theorem onlyStackInstructionsCount : Obligations.OnlyStackInstructionsCount := by
  intro s t i h hi
  obtain ⟨u, heff, hend⟩ := exec_effects h
  have hfsz : u.fsz = s.fsz := heff.fsz_eq hi
  rcases hend with rfl | ⟨c, rfl⟩ | ⟨_, rfl⟩ <;> exact hfsz

/-! ### Runs -/

/-- Settles O8: a step is taken from Running alone. -/
theorem noStepAfterTheEnd : Obligations.NoStepAfterTheEnd := by
  intro s hs
  cases hst : s.status with
  | running => exact absurd hst hs
  | halted why => simp only [step, hst]
  | faulted c => simp only [step, hst]

theorem step_stopped {s t : State} {e : Stop} (hrun : s.status = .running) (h : fetchInstr s.begun = .error e t) :
    step s = .next (t.stopped e) := by
  simp only [step, hrun, h]

/-- A running machine takes its step (45_control.md R273). -/
theorem step_next {s : State} (hrun : s.status = .running) : ∃ t, step s = .next t := by
  cases hf : fetchInstr s.begun with
  | ok i u => rw [step_fetched hrun hf]; exact exec_next i u
  | error e u => exact ⟨_, step_stopped hrun hf⟩

theorem run_succ {s t : State} (h : step s = .next t) (fuel : Nat) : run (fuel + 1) s = run fuel t := by
  simp only [run, h]

theorem run_ended {s : State} (h : s.ended) (fuel : Nat) : run fuel s = s := by
  cases fuel with
  | zero => rfl
  | succ fuel => simp only [run, noStepAfterTheEnd s h]

/-- Fuel adds up: a run goes on from where it was left. -/
theorem run_add (fuel more : Nat) (s : State) : run (fuel + more) s = run more (run fuel s) := by
  induction fuel generalizing s with
  | zero => rw [Nat.zero_add]; rfl
  | succ fuel ih =>
    by_cases hrun : s.status = .running
    · obtain ⟨t, ht⟩ := step_next hrun
      rw [Nat.succ_add, run_succ ht, run_succ ht, ih]
    · simp only [run_ended hrun]

theorem run_add_of_ended {s : State} {fuel : Nat} (h : (run fuel s).ended) (more : Nat) :
    run (fuel + more) s = run fuel s := by rw [run_add, run_ended h]

/-- Two runs of one state that have ended, have ended alike. -/
theorem run_eq_of_ended {s : State} {fuel more : Nat} (h : (run fuel s).ended) (k : (run more s).ended) :
    run fuel s = run more s :=
  calc run fuel s
    _ = run (fuel + more) s := (run_add_of_ended h more).symm
    _ = run (more + fuel) s := by rw [Nat.add_comm]
    _ = run more s := run_add_of_ended k fuel

/-- Settles O57: a running machine has a step, and a run is its steps one after the other. -/
theorem runStopsAtTheEnd : Obligations.RunStopsAtTheEnd := by
  refine ⟨fun s hrun => ?_, fun s => rfl, fun s fuel h => run_ended h fuel, fun s fuel hrun => ?_,
    fun s fuel more h => run_add_of_ended h more, fun s => ?_⟩
  · obtain ⟨t, ht⟩ := step_next hrun
    exact ⟨t, ht, run_succ ht⟩
  · obtain ⟨t, ht⟩ := step_next (not_not.mp hrun)
    rw [run_add, run_succ ht]
    exact ht
  · rintro ⟨⟨fuel, hnormal⟩, more, hended, hne⟩
    have hfuel : (run fuel s).ended := by rw [State.ended, hnormal]; decide
    exact hne (run_eq_of_ended hfuel hended ▸ hnormal)

end Sys2Proof.Machine
end

section
/-! The instructions that access memory, by what they access: loads, stores, pushes and calls, each form of a kind reduced to the
one operation it performs. And what the two bytes of a load make of a word. -/

namespace Sys2Proof.Machine

variable {s t : State} {i : Instr} {v addr : Word} {rd : Reg} {e : Stop}

/-! ### Loads -/

/-- The instruction loads the word at `addr` into `rd`: absolute, through a pointer, or at a base plus an offset
(40_data_movement.md R123, R125, R126). -/
def LoadsFrom (s : State) (addr : Word) (rd : Reg) (i : Instr) : Prop :=
  i = .movMemReg addr rd ∨ (∃ rp, i = .movRegPtrReg rp rd ∧ s.reg rp = addr) ∨
    ∃ base ro, i = .movLitOffReg base ro rd ∧ base + s.reg ro = addr

/-- Every load reads one word and writes it to its register. -/
theorem LoadsFrom.operation (h : LoadsFrom s addr rd i) :
    ∃ src, instrOp i = intoReg rd src ∧ src s = memRead16 .read addr s := by
  rcases h with rfl | ⟨rp, rfl, rfl⟩ | ⟨base, ro, rfl, rfl⟩
  · exact ⟨absoluteOperand addr, rfl, rfl⟩
  · exact ⟨pointerOperand rp, rfl, rfl⟩
  · exact ⟨offsetOperand base ro, rfl, rfl⟩

theorem intoReg_ok {src : Op Word} (h : src s = .ok v t) (rd : Reg) : intoReg rd src s = .ok () (t.withReg rd v) := by
  simp [intoReg, run_bind, h]

theorem LoadsFrom.exec_ok (h : LoadsFrom s addr rd i) (hread : memRead16 .read addr s = .ok v t) :
    exec i s = .next (t.withReg rd v) := by
  obtain ⟨src, hop, hsrc⟩ := h.operation
  rw [exec_eq_perform, hop]
  exact perform_ok (intoReg_ok (hsrc.trans hread) rd)

theorem LoadsFrom.exec_error (h : LoadsFrom s addr rd i) (hread : memRead16 .read addr s = .error e t) :
    exec i s = .next (t.stopped e) := by
  obtain ⟨src, hop, hsrc⟩ := h.operation
  rw [exec_eq_perform, hop]
  exact perform_error (run_intoReg_error (hsrc.trans hread) rd)

/-! ### Stores -/

/-- The instruction stores the word `v` at `addr` (40_data_movement.md R122, R124). -/
def StoresAt (s : State) (addr v : Word) (i : Instr) : Prop :=
  i = .movLitMem v addr ∨ ∃ rs, i = .movRegMem rs addr ∧ v = s.reg rs

theorem StoresAt.exec_eq (h : StoresAt s addr v i) : exec i s = perform (memWrite16 .write addr v) s := by
  rcases h with rfl | ⟨rs, rfl, rfl⟩
  · simp only [exec_eq_perform, instrOp, perform, run_intoMemory (run_litOperand v s)]
  · simp only [exec_eq_perform, instrOp, perform, run_intoMemory (run_regOperand rs s)]

theorem StoresAt.exec_ok (h : StoresAt s addr v i) (hwrite : memWrite16 .write addr v s = .ok () t) :
    exec i s = .next t := h.exec_eq.trans (perform_ok hwrite)

theorem StoresAt.exec_error (h : StoresAt s addr v i) (hwrite : memWrite16 .write addr v s = .error e t) :
    exec i s = .next (t.stopped e) := h.exec_eq.trans (perform_error hwrite)

/-! ### Pushes -/

/-- The instruction pushes the word `v` (44_stack_call.md R244, R245). -/
def PushesWord (s : State) (v : Word) (i : Instr) : Prop := i = .pshLit v ∨ ∃ r, i = .pshReg r ∧ v = s.reg r

theorem PushesWord.exec_eq (h : PushesWord s v i) : exec i s = perform (push v) s := by
  rcases h with rfl | ⟨r, rfl, rfl⟩
  · simp only [exec_eq_perform, instrOp, perform, run_pushOperand (run_litOperand v s)]
  · simp only [exec_eq_perform, instrOp, perform, run_pushOperand (run_regOperand r s)]

theorem PushesWord.exec_ok (h : PushesWord s v i) (hpush : push v s = .ok () t) : exec i s = .next t :=
  h.exec_eq.trans (perform_ok hpush)

theorem PushesWord.exec_error (h : PushesWord s v i) (hpush : push v s = .error e t) :
    exec i s = .next (t.stopped e) := h.exec_eq.trans (perform_error hpush)

/-! ### POP -/

theorem exec_pop_ok (hpop : pop s = .ok v t) (rd : Reg) : exec (.pop rd) s = .next (t.withReg rd v) := by
  rw [exec_eq_perform]
  exact perform_ok (intoReg_ok hpop rd)

theorem exec_pop_error (hpop : pop s = .error e t) (rd : Reg) : exec (.pop rd) s = .next (t.stopped e) := by
  rw [exec_eq_perform]
  exact perform_error (run_intoReg_error hpop rd)

/-! ### Calls -/

/-- The instruction calls `target`, its value before the call (44_stack_call.md R247, R248). -/
def CallsTo (s : State) (target : Word) (i : Instr) : Prop :=
  i = .callLit target ∨ ∃ r, i = .callReg r ∧ target = s.reg r

theorem callsTo_of_call (s : State) (h : (∃ addr, i = .callLit addr) ∨ ∃ r, i = .callReg r) : ∃ target, CallsTo s target i := by
  rcases h with ⟨addr, rfl⟩ | ⟨r, rfl⟩
  · exact ⟨addr, .inl rfl⟩
  · exact ⟨s.reg r, .inr ⟨r, rfl, rfl⟩⟩

theorem CallsTo.exec_eq {target : Word} (h : CallsTo s target i) : exec i s = perform (callOperand (litOperand target)) s := by
  rcases h with rfl | ⟨r, rfl, rfl⟩
  · exact exec_eq_perform _ s
  · simp only [exec_eq_perform, instrOp, perform, run_callOperand (run_litOperand (s.reg r) s),
      run_callOperand (run_regOperand r s)]

/-! ### The frame of a stop -/

theorem sameRegsBut_of_regs {changed : List Reg} (h : t.regs = s.regs) : SameRegsBut changed s t := fun r _ => by
  rw [State.reg, State.reg, h]

end Sys2Proof.Machine
end

section
/-! The obligations of 30_encoding.md section 6 and of the faults of a fetch (60_exceptions.md section 2): a step runs what it
has fetched, and a fetch that fails ends it there. -/

namespace Sys2Proof.Machine

variable {s s1 t : State} {b : Byte} {o : Opcode} {bs : List Byte} {k : Nat} {w : Width} {a : Word} {cause : FaultCause}

/-! ### The state that fetches from memory leave -/

/-- The machine has begun and `ip` has moved; nothing else has changed. -/
def State.fetchedTo (s : State) (a : Word) : State := s.begun.withReg .ip a

@[simp] theorem reg_ip_fetchedTo (s : State) (a : Word) : (s.fetchedTo a).reg .ip = a := reg_withReg_same s.begun .ip a

theorem sameRegsBut_fetchedTo (s : State) (a : Word) : SameRegsBut [.ip] s (s.fetchedTo a) :=
  sameRegsBut_withReg s.begun .ip a

/-- What a fetch that stops a step leaves: `ip` where it is, every other register, the counter, memory, the peripherals and the
mapper as they were. -/
theorem fetchedTo_stopped_frame (s : State) (a : Word) (why : Stop) :
    ((s.fetchedTo a).stopped why).reg .ip = a ∧ SameRegsBut [.ip] s ((s.fetchedTo a).stopped why) ∧
      ((s.fetchedTo a).stopped why).fsz = s.fsz ∧ SameStore s ((s.fetchedTo a).stopped why) ∧
      SameMachine s.begun ((s.fetchedTo a).stopped why) :=
  ⟨reg_ip_fetchedTo s a, sameRegsBut_fetchedTo s a, rfl, sameStore_of_eq rfl rfl, ⟨rfl, rfl, rfl, rfl⟩⟩

theorem begun_stopped_frame (s : State) (why : Stop) :
    SameRegsBut [] s (s.begun.stopped why) ∧ (s.begun.stopped why).fsz = s.fsz ∧ SameStore s (s.begun.stopped why) ∧
      SameMachine s.begun (s.begun.stopped why) :=
  ⟨sameRegsBut_of_regs rfl, rfl, sameStore_of_eq rfl rfl, sameMachine_stopped s.begun why⟩

theorem fetchedFrom_begun (s : State) (a : Word) (ws : List Width) : s.begun.fetchedFrom a ws = s.fetchedFrom a ws :=
  fetchedFrom_congr (s := s) (t := s.begun) rfl rfl a ws

theorem fetch8_begun (h : s.peek (s.reg .ip) = some b) : fetch8 s.begun = .ok b (s.fetchedTo (s.reg .ip + 1)) :=
  fetch8_peek (s := s.begun) h

/-! ### A step fetch by fetch -/

/-- A step whose fetches complete, wherever their bytes come from, runs what the decoder reads from them
(30_encoding.md R107). -/
theorem step_of_fetchAll (hrun : s.status = .running) (h8 : fetch8 s.begun = .ok b s1)
    (ho : opcodeOfByte s.params.opcodes b = some o)
    (h : fetchAll (operandWidths (opcodeFormat s.params.shiftLit o)) s1 = .ok bs t) :
    ∃ i, decode s.params (b :: bs) = .ok (i, []) ∧ step s = exec i t := by
  obtain ⟨i, hi, hdec⟩ := fetchInstr_ok h8 ho h
  exact ⟨i, by simpa using hdec [], step_fetched hrun hi⟩

/-- A step whose operand fetch fails ends there (60_exceptions.md R287). -/
theorem step_of_fetchAll_error {e : Stop} (hrun : s.status = .running) (h8 : fetch8 s.begun = .ok b s1)
    (ho : opcodeOfByte s.params.opcodes b = some o)
    (h : fetchAll (operandWidths (opcodeFormat s.params.shiftLit o)) s1 = .error e t) : step s = .next (t.stopped e) :=
  step_stopped hrun (fetchInstr_error h8 ho h)

/-- Operand fetches from memory, after the opcode byte. -/
theorem fetchAll_fetchedTo {ws : List Width} (h : s.fetchedFrom (s.reg .ip + 1) ws = some bs) :
    fetchAll ws (s.fetchedTo (s.reg .ip + 1)) = .ok bs (s.fetchedTo (s.reg .ip + BitVec.ofNat 16 (bs.length + 1))) := by
  have hfrom : (s.fetchedTo (s.reg .ip + 1)).fetchedFrom ((s.fetchedTo (s.reg .ip + 1)).reg .ip) ws = some bs := by
    rw [reg_ip_fetchedTo, State.fetchedTo, fetchedFrom_withReg, fetchedFrom_begun]
    exact h
  have hall := fetchAll_fetched hfrom
  simp only [State.fetchedTo, reg_withReg_same, withReg_withReg_same, add_ofNat_succ] at hall
  exact hall

/-- Settles O7: code in one device and fetches from memory are fetches that complete. -/
theorem stepRunsTheDecodedInstruction : Obligations.StepRunsTheDecodedInstruction := by
  refine ⟨fun s n bs i hrun hcode hdec => step_of_codeBytes hrun hcode hdec, fun s b o bs hrun hb ho hbs => ?_,
    fun s s1 b o hrun h8 ho => ⟨fun bs t h => step_of_fetchAll hrun h8 ho h,
      fun e t h => step_of_fetchAll_error hrun h8 ho h⟩⟩
  exact step_of_fetchAll hrun (fetch8_begun hb) ho (fetchAll_fetchedTo hbs)

/-! ### An opcode byte that no instruction has -/

theorem peek_of_codeBytes (h : s.codeBytes 1 = some [b]) : s.peek (s.reg .ip) = some b := by
  obtain ⟨_, d, la, m, hcode⟩ := codeAt_of_codeBytes h
  simpa [State.fetchedAt, Width.bytes] using hcode.fetchedAt (w := .byte) (by simp [Width.bytes])

/-- Settles O9: the opcode fetch moves `ip` past the byte, then the step halts (45_control.md R271). -/
theorem unrecognizedOpcodeHalts : Obligations.UnrecognizedOpcodeHalts := by
  intro s b hrun hcode hop
  have hfetch : fetchInstr s.begun = .error (.halt (.illegalOpcode b)) (s.fetchedTo (s.reg .ip + 1)) :=
    fetchInstr_unrecognized (fetch8_begun (peek_of_codeBytes hcode)) hop
  exact ⟨_, step_stopped hrun hfetch, rfl, fetchedTo_stopped_frame s _ _⟩

/-! ### Fetches that fault -/

theorem fetch8_faults (h : AccessFaults s ⟨.fetch, s.reg .ip, .byte⟩ cause) : fetch8 s = .error (.fault cause) s := by
  simp only [fetch8, run_bind, run_getReg, memRead8_faults h]

/-- A step whose opcode fetch faults (30_encoding.md R104). -/
theorem step_opcode_faults (hrun : s.status = .running) (h : AccessFaults s ⟨.fetch, s.reg .ip, .byte⟩ cause) :
    step s = .next (s.begun.stopped (.fault cause)) :=
  step_stopped hrun (fetchInstr_opcode_error (fetch8_faults (h.congr (t := s.begun) rfl rfl)))

/-- A step whose operand fetch number `k` faults, those before it reading memory (30_encoding.md R104, R105). -/
theorem step_operand_faults (hrun : s.status = .running) (hb : s.peek (s.reg .ip) = some b)
    (ho : opcodeOfByte s.params.opcodes b = some o) (hw : (operandWidths (opcodeFormat s.params.shiftLit o))[k]? = some w)
    (hbefore : (s.fetchedFrom (s.reg .ip + 1) ((operandWidths (opcodeFormat s.params.shiftLit o)).take k)).isSome)
    (ha : a = s.reg .ip + BitVec.ofNat 16 (operandOffset (opcodeFormat s.params.shiftLit o) k))
    (h : AccessFaults s ⟨.fetch, a, w⟩ cause) : step s = .next ((s.fetchedTo a).stopped (.fault cause)) := by
  subst ha
  let a := s.reg .ip + BitVec.ofNat 16 (operandOffset (opcodeFormat s.params.shiftLit o) k)
  have hfetch : fetchOne w (s.fetchedTo a) = .error (.fault cause) (s.fetchedTo a) := by
    refine fetchOne_faults ?_
    rw [reg_ip_fetchedTo]
    exact h.congr rfl rfl
  refine step_stopped hrun (fetchInstr_operand_fails (s := s.begun) hb ho hw ?_ hfetch)
  rw [fetchedFrom_begun]
  exact hbefore

/-- Settles O10: an address in no region is an access that faults, of the opcode byte or of an operand. -/
theorem unmappedFetchFaults : Obligations.UnmappedFetchFaults := by
  refine ⟨fun s hrun hnone => ?_, fun s b o k w a hrun hb ho hw hbefore ha hnone => ?_⟩
  · exact ⟨_, step_opcode_faults hrun (.inl ⟨hnone, rfl⟩), rfl, begun_stopped_frame s _⟩
  · exact ⟨_, step_operand_faults hrun hb ho hw hbefore ha (.inl ⟨hnone, rfl⟩), rfl, fetchedTo_stopped_frame s a _⟩

/-! ### The top of memory under the default map -/

/-- Every fetch whose bytes end below the top reads memory. -/
theorem FlatMap.fetchedAt_isSome (h : FlatMap s) (hw : a.toNat + w.bytes ≤ 0x10000) : (s.fetchedAt a w).isSome := by
  cases w with
  | byte =>
    obtain ⟨cells, hd⟩ := h.memory
    have hlt : a.toNat < Config.mainMemorySize := a.isLt
    simp [State.fetchedAt, h.peek, State.localByte, hd, hlt]
  | word =>
    have hne : a ≠ 0xFFFF := by
      rintro rfl
      exact absurd hw (by decide)
    simp [State.fetchedAt, h.wordSlot hne]

theorem FlatMap.fetchedFrom_isSome (h : FlatMap s) {ws : List Width} (hws : a.toNat + fetchBytes ws < 0x10000) :
    (s.fetchedFrom a ws).isSome := by
  induction ws generalizing a with
  | nil => rfl
  | cons w ws ih =>
    rw [fetchBytes] at hws
    have hnext : (a + BitVec.ofNat 16 w.bytes).toNat = a.toNat + w.bytes := by
      rw [BitVec.toNat_add, BitVec.toNat_ofNat]
      omega
    obtain ⟨first, hfirst⟩ := Option.isSome_iff_exists.mp (h.fetchedAt_isSome (w := w) (a := a) (by omega))
    obtain ⟨more, hmore⟩ := Option.isSome_iff_exists.mp (ih (a := a + BitVec.ofNat 16 w.bytes) (by omega))
    simp [State.fetchedFrom, hfirst, hmore]

theorem fetchBytes_take_operandWidths_le (f : Format) (k : Nat) : fetchBytes ((operandWidths f).take k) ≤ 4 := by
  cases f <;> rcases k with _ | _ | _ | k <;> simp [operandWidths, fetchBytes, Width.bytes]

/-- The fetches of an instruction before one at 0xFFFF read memory. -/
theorem FlatMap.fetchedFrom_before_top (h : FlatMap s) {f : Format}
    (htop : s.reg .ip + BitVec.ofNat 16 (operandOffset f k) = 0xFFFF) :
    (s.fetchedFrom (s.reg .ip + 1) ((operandWidths f).take k)).isSome := by
  refine h.fetchedFrom_isSome ?_
  have hle := fetchBytes_take_operandWidths_le f k
  rw [operandOffset, ← add_ofNat_succ] at htop
  have hnat := congrArg BitVec.toNat htop
  rw [BitVec.toNat_add, BitVec.toNat_ofNat, show (0xFFFF : Word).toNat = 65535 from rfl] at hnat
  have := (s.reg .ip + 1).isLt
  omega

/-- A word at the top runs past main memory (20_memory.md R53). -/
theorem FlatMap.accessFaults_top (h : FlatMap s) (kind : AccessKind) :
    AccessFaults s ⟨kind, 0xFFFF, .word⟩ (.boundsViolation ⟨kind, 0xFFFF, .word⟩ 0xFFFF) := by
  obtain ⟨cells, hd⟩ := h.memory
  exact .inr ⟨mainDevice, 0xFFFF, _, h.resolve 0xFFFF, hd, show 0x10000 < 0xFFFF + 2 by decide, rfl⟩

/-- Settles O11: a fetch past its device is an access that faults, of the opcode byte or of an operand; under the default map such
is the word at 0xFFFF, and the fetches before it read memory. -/
theorem fetchPastTheDeviceFaults : Obligations.FetchPastTheDeviceFaults := by
  refine ⟨fun s d la m hrun hr hd hsize => ?_, fun s b o k w a d la m hrun hb ho hw hbefore ha hr hd hsize => ?_,
    fun s b o k hflat hrun hb ho hw htop => ?_⟩
  · have hfault : AccessFaults s ⟨.fetch, s.reg .ip, .byte⟩ (.boundsViolation ⟨.fetch, s.reg .ip, .byte⟩ la) :=
      .inr ⟨d, la, m, hr, hd, Nat.lt_succ_of_le hsize, rfl⟩
    exact ⟨_, step_opcode_faults hrun hfault, rfl, begun_stopped_frame s _⟩
  · have hfault : AccessFaults s ⟨.fetch, a, w⟩ (.boundsViolation ⟨.fetch, a, w⟩ la) :=
      .inr ⟨d, la, m, hr, hd, hsize, rfl⟩
    exact ⟨_, step_operand_faults hrun hb ho hw hbefore ha hfault, rfl, fetchedTo_stopped_frame s a _⟩
  · exact ⟨_, step_operand_faults hrun hb ho hw (hflat.fetchedFrom_before_top htop) htop.symm
      (hflat.accessFaults_top .fetch), rfl, fetchedTo_stopped_frame s _ _⟩

end Sys2Proof.Machine
end

section
/-! The obligations of the peripherals (20_memory.md sections 3, 7 and 8): each store, load, push, pop and fetch that meets one
reaches it as one access, which the peripheral takes or fails. -/

namespace Sys2Proof.Machine

variable {s t : State} {d : Nat} {la a : Word} {h : List Config.DeviceAccess} {acc : Config.DeviceAccess} {v : Word}

/-! ### Pushes and pops at a peripheral -/

/-- A push at a peripheral: `sp` and the counter move only where the device takes the word (44_stack_call.md R240). -/
theorem push_peripheral (hr : resolve s.regions (s.reg .sp) = some (d, la)) (hd : s.device d = .peripheral h) (v : Word) :
    push v s = if Config.deviceFails d h (.write16 la v) then
      .error (.fault (.deviceFault ⟨.write, s.reg .sp, .word⟩ la)) (s.received d h (.write16 la v))
      else .ok () (((s.received d h (.write16 la v)).withReg .sp (s.reg .sp - 2)).withFsz (s.fsz + 2)) := by
  have hwrite := memWrite16_peripheral hr hd .write v
  by_cases hf : Config.deviceFails d h (.write16 la v) = true
  · rw [if_pos hf] at hwrite ⊢
    exact push_error hwrite
  · rw [if_neg hf] at hwrite ⊢
    simp [push, run_bind, hwrite]

/-- A pop at a peripheral: `sp` and the counter have moved either way (44_stack_call.md R241). -/
theorem pop_peripheral (hr : resolve s.regions (s.reg .sp + 2) = some (d, la)) (hd : s.device d = .peripheral h) :
    pop s = if Config.deviceFails d h (.read16 la) then
      .error (.fault (.deviceFault ⟨.read, s.reg .sp + 2, .word⟩ la)) (s.popped.received d h (.read16 la))
      else .ok (Config.deviceWord d h la) (s.popped.received d h (.read16 la)) := by
  rw [run_pop]
  exact memRead16_peripheral (s := s.popped) hr hd .read

/-! ### Stores -/

/-- A store at a peripheral (40_data_movement.md R122, R124). -/
theorem StoresAt.reaches {i : Instr} (hi : StoresAt s a v i) (hr : resolve s.regions a = some (d, la))
    (hd : s.device d = .peripheral h) :
    ∃ t, exec i s = .next t ∧ ReachesPeripheral d h (.write16 la v) s t ∧ SameRegsBut [] s t ∧ t.fsz = s.fsz ∧
      t.status = if Config.deviceFails d h (.write16 la v) then .faulted (.deviceFault ⟨.write, a, .word⟩ la)
        else s.status := by
  have hwrite := memWrite16_peripheral hr hd .write v
  have hreach := reachesPeripheral_received hd (.write16 la v)
  by_cases hf : Config.deviceFails d h (.write16 la v) = true
  · rw [if_pos hf] at hwrite ⊢
    exact ⟨_, hi.exec_error hwrite, hreach.congr rfl (sameMachine_stopped _ _), sameRegsBut_of_regs rfl, rfl, rfl⟩
  · rw [if_neg hf] at hwrite ⊢
    exact ⟨_, hi.exec_ok hwrite, hreach, sameRegsBut_of_regs rfl, rfl, rfl⟩

/-- A push instruction at a peripheral (44_stack_call.md R244, R245). -/
theorem PushesWord.reaches {i : Instr} (hi : PushesWord s v i) (hr : resolve s.regions (s.reg .sp) = some (d, la))
    (hd : s.device d = .peripheral h) :
    ∃ t, exec i s = .next t ∧ ReachesPeripheral d h (.write16 la v) s t ∧ SameRegsBut [.sp] s t ∧
      if Config.deviceFails d h (.write16 la v) then
        t.status = .faulted (.deviceFault ⟨.write, s.reg .sp, .word⟩ la) ∧ t.reg .sp = s.reg .sp ∧ t.fsz = s.fsz
      else t.status = s.status ∧ t.reg .sp = s.reg .sp - 2 ∧ t.fsz = s.fsz + 2 := by
  have hpush := push_peripheral hr hd v
  have hreach := reachesPeripheral_received hd (.write16 la v)
  by_cases hf : Config.deviceFails d h (.write16 la v) = true
  · simp only [if_pos hf] at hpush ⊢
    exact ⟨_, hi.exec_error hpush, hreach.congr rfl (sameMachine_stopped _ _), sameRegsBut_of_regs rfl, rfl, rfl, rfl⟩
  · simp only [if_neg hf] at hpush ⊢
    exact ⟨_, hi.exec_ok hpush, hreach.congr rfl ⟨rfl, rfl, rfl, rfl⟩, sameRegsBut_withReg (s.received d h _) .sp _,
      rfl, rfl, rfl⟩

/-- Settles O26: each store is one write of the peripheral, and a push moves `sp` after it. -/
theorem storesReachPeripheralsOnce : Obligations.StoresReachPeripheralsOnce := by
  intro s addr d la h hr hd
  refine ⟨fun i v hi => StoresAt.reaches hi hr hd, ?_⟩
  rintro rfl v
  refine ⟨fun i hi => PushesWord.reaches hi hr hd, ?_⟩
  have hpush := push_peripheral hr hd v
  have hreach := reachesPeripheral_received hd (.write16 la v)
  by_cases hf : Config.deviceFails d h (.write16 la v) = true
  · simp only [if_pos hf] at hpush ⊢
    exact ⟨_, hreach, sameRegsBut_of_regs rfl, rfl, hpush, rfl, rfl⟩
  · simp only [if_neg hf] at hpush ⊢
    exact ⟨((s.received d h (.write16 la v)).withReg .sp (s.reg .sp - 2)).withFsz (s.fsz + 2),
      hreach.congr rfl ⟨rfl, rfl, rfl, rfl⟩, sameRegsBut_withReg (s.received d h _) .sp _, rfl, hpush, rfl, rfl⟩

/-! ### Loads and POP -/

/-- A load at a peripheral (40_data_movement.md R123, R125, R126): a failed read leaves the destination as it was. -/
theorem LoadsFrom.reaches {i : Instr} {rd : Reg} (hi : LoadsFrom s a rd i) (hr : resolve s.regions a = some (d, la))
    (hd : s.device d = .peripheral h) :
    ∃ t, exec i s = .next t ∧ ReachesPeripheral d h (.read16 la) s t ∧ SameRegsBut [rd] s t ∧ t.fsz = s.fsz ∧
      if Config.deviceFails d h (.read16 la) then
        t.status = .faulted (.deviceFault ⟨.read, a, .word⟩ la) ∧ t.reg rd = s.reg rd
      else t.status = s.status ∧ t.reg rd = Config.deviceWord d h la := by
  have hread := memRead16_peripheral hr hd .read
  have hreach := reachesPeripheral_received hd (.read16 la)
  by_cases hf : Config.deviceFails d h (.read16 la) = true
  · simp only [if_pos hf] at hread ⊢
    exact ⟨_, hi.exec_error hread, hreach.congr rfl (sameMachine_stopped _ _), sameRegsBut_of_regs rfl, rfl, rfl, rfl⟩
  · simp only [if_neg hf] at hread ⊢
    exact ⟨_, hi.exec_ok hread, hreach.congr rfl ⟨rfl, rfl, rfl, rfl⟩, sameRegsBut_withReg (s.received d h _) rd _, rfl,
      rfl, reg_withReg_same _ rd _⟩

theorem sameRegsBut_popped (s : State) : SameRegsBut [.sp] s s.popped := sameRegsBut_withReg s .sp _

theorem reg_sp_popped (s : State) : s.popped.reg .sp = s.reg .sp + 2 := rfl

theorem reachesPeripheral_popped_received (hd : s.device d = .peripheral h) (acc : Config.DeviceAccess) :
    ReachesPeripheral d h acc s (s.popped.received d h acc) :=
  (reachesPeripheral_received hd acc).congr rfl ⟨rfl, rfl, rfl, rfl⟩

/-- POP at a peripheral (44_stack_call.md R246): `sp` has moved either way, the destination is written only where the device
answers. -/
theorem exec_pop_reaches (hr : resolve s.regions (s.reg .sp + 2) = some (d, la)) (hd : s.device d = .peripheral h) (rd : Reg) :
    ∃ t, exec (.pop rd) s = .next t ∧ ReachesPeripheral d h (.read16 la) s t ∧ SameRegsBut [rd, .sp] s t ∧
      t.fsz = s.fsz - 2 ∧ (rd ≠ .sp → t.reg .sp = s.reg .sp + 2) ∧
      if Config.deviceFails d h (.read16 la) then
        t.status = .faulted (.deviceFault ⟨.read, s.reg .sp + 2, .word⟩ la) ∧ SameRegsBut [.sp] s t ∧
          t.reg .sp = s.reg .sp + 2
      else t.status = s.status ∧ t.reg rd = Config.deviceWord d h la := by
  have hpop := pop_peripheral hr hd
  have hreach := reachesPeripheral_popped_received hd (.read16 la)
  by_cases hf : Config.deviceFails d h (.read16 la) = true
  · simp only [if_pos hf] at hpop ⊢
    exact ⟨_, exec_pop_error hpop rd, hreach.congr rfl (sameMachine_stopped _ _),
      fun r hr => sameRegsBut_popped s r fun hmem => hr (List.mem_cons_of_mem rd hmem), rfl, fun _ => rfl, rfl, sameRegsBut_popped s, rfl⟩
  · simp only [if_neg hf] at hpop ⊢
    exact ⟨_, exec_pop_ok hpop rd, hreach.congr rfl ⟨rfl, rfl, rfl, rfl⟩, sameRegsBut_poppedInto s rd _, rfl,
      reg_sp_poppedInto s _, rfl, reg_withReg_same _ rd _⟩

/-! ### Fetches in a step -/

/-- The machine has begun, peripheral `d` has received one access more, and `ip` has moved; nothing else has changed. -/
def State.reachedTo (s : State) (d : Nat) (h : List Config.DeviceAccess) (acc : Config.DeviceAccess) (a : Word) : State :=
  (s.begun.received d h acc).withReg .ip a

theorem reachedTo_frame (hd : s.device d = .peripheral h) (acc : Config.DeviceAccess) (a : Word) :
    ReachesPeripheral d h acc s.begun (s.reachedTo d h acc a) ∧ (s.reachedTo d h acc a).reg .ip = a ∧
      SameRegsBut [.ip] s (s.reachedTo d h acc a) ∧ (s.reachedTo d h acc a).fsz = s.fsz ∧
      (s.reachedTo d h acc a).status = s.status :=
  ⟨(reachesPeripheral_received (s := s.begun) hd acc).congr rfl ⟨rfl, rfl, rfl, rfl⟩, reg_withReg_same _ .ip a,
    sameRegsBut_withReg (s.begun.received d h acc) .ip a, rfl, rfl⟩

theorem reachedTo_stopped_frame (hd : s.device d = .peripheral h) (acc : Config.DeviceAccess) (a : Word) (why : Stop) :
    ReachesPeripheral d h acc s.begun ((s.reachedTo d h acc a).stopped why) ∧
      ((s.reachedTo d h acc a).stopped why).reg .ip = a ∧ SameRegsBut [.ip] s ((s.reachedTo d h acc a).stopped why) ∧
      ((s.reachedTo d h acc a).stopped why).fsz = s.fsz := by
  obtain ⟨hreach, hip, hregs, hfsz, _⟩ := reachedTo_frame hd acc a
  exact ⟨hreach.congr rfl (sameMachine_stopped _ why), hip, hregs, hfsz⟩

theorem fetchedFrom_reachedTo (hd : s.device d = .peripheral h) (acc : Config.DeviceAccess) (b a : Word) (ws : List Width) :
    (s.reachedTo d h acc b).fetchedFrom a ws = s.fetchedFrom a ws := by
  rw [State.reachedTo, fetchedFrom_withReg, fetchedFrom_received (s := s.begun) hd, fetchedFrom_begun]

/-- Fetches from memory after one from a peripheral. -/
theorem fetchAll_reachedTo (hd : s.device d = .peripheral h) {ws : List Width} {bs : List Byte}
    (hbs : s.fetchedFrom a ws = some bs) :
    fetchAll ws (s.reachedTo d h acc a) = .ok bs (s.reachedTo d h acc (a + BitVec.ofNat 16 bs.length)) := by
  have hip : (s.reachedTo d h acc a).reg .ip = a := reg_withReg_same _ .ip a
  have hall := fetchAll_fetched (s := s.reachedTo d h acc a) (ws := ws) (bs := bs)
    (by rw [hip, fetchedFrom_reachedTo hd]; exact hbs)
  rw [hip] at hall
  simpa only [State.reachedTo, withReg_withReg_same] using hall

/-- A step whose opcode fetch meets a peripheral: its answer is the opcode byte of what the decoder reads (20_memory.md R70,
30_encoding.md R104). -/
theorem step_opcode_peripheral (hrun : s.status = .running) (hr : resolve s.regions (s.reg .ip) = some (d, la))
    (hd : s.device d = .peripheral h) :
    if Config.deviceFails d h (.read8 la) then
      ∃ t, step s = .next t ∧ t.status = .faulted (.deviceFault ⟨.fetch, s.reg .ip, .byte⟩ la) ∧
        ReachesPeripheral d h (.read8 la) s.begun t ∧ SameRegsBut [] s t ∧ t.fsz = s.fsz
    else match opcodeOfByte s.params.opcodes (Config.deviceByte d h la) with
      | none =>
        ∃ t, step s = .next t ∧ t.status = .halted (.illegalOpcode (Config.deviceByte d h la)) ∧
          ReachesPeripheral d h (.read8 la) s.begun t ∧ t.reg .ip = s.reg .ip + 1 ∧ SameRegsBut [.ip] s t ∧ t.fsz = s.fsz
      | some o =>
        ∀ bs, s.fetchedFrom (s.reg .ip + 1) (operandWidths (opcodeFormat s.params.shiftLit o)) = some bs →
          ∃ i t, decode s.params (Config.deviceByte d h la :: bs) = .ok (i, []) ∧ step s = exec i t ∧
            ReachesPeripheral d h (.read8 la) s.begun t ∧ t.reg .ip = s.reg .ip + BitVec.ofNat 16 (bs.length + 1) ∧
            SameRegsBut [.ip] s t ∧ t.fsz = s.fsz ∧ t.status = s.status := by
  have h8 := fetch8_peripheral (s := s.begun) hr hd
  by_cases hf : Config.deviceFails d h (.read8 la) = true
  · rw [if_pos hf] at h8 ⊢
    exact ⟨_, step_stopped hrun (fetchInstr_opcode_error h8), rfl,
      (reachesPeripheral_received (s := s.begun) hd _).congr rfl (sameMachine_stopped _ _), sameRegsBut_of_regs rfl, rfl⟩
  · rw [if_neg hf] at h8 ⊢
    split
    next ho =>
      exact ⟨_, step_stopped hrun (fetchInstr_unrecognized h8 ho), rfl, reachedTo_stopped_frame hd _ _ _⟩
    next o ho =>
      intro bs hbs
      obtain ⟨i, hdec, hstep⟩ := step_of_fetchAll hrun h8 ho (fetchAll_reachedTo hd hbs)
      rw [add_ofNat_succ] at hstep
      exact ⟨i, _, hdec, hstep, reachedTo_frame hd _ _⟩

/-- Fetches of which number `k` meets a peripheral that fails it, those before it reading memory. -/
theorem fetchAll_peripheral_fails {ws : List Width} {k : Nat} {w : Width} {before : List Byte}
    (hbefore : s.fetchedFrom (s.reg .ip) (ws.take k) = some before) (hw : ws[k]? = some w)
    (ha : s.reg .ip + BitVec.ofNat 16 before.length = a) (hr : resolve s.regions a = some (d, la))
    (hd : s.device d = .peripheral h) (hf : Config.deviceFails d h (readAccess la w) = true) :
    fetchAll ws s = .error (.fault (.deviceFault ⟨.fetch, a, w⟩ la))
      ((s.withReg .ip a).received d h (readAccess la w)) := by
  have hone := fetchOne_peripheral (s := s.withReg .ip a) (by rw [reg_withReg_same]; exact hr) hd w
  rw [if_pos hf, reg_withReg_same] at hone
  exact fetchAll_error hbefore hw (ha.symm ▸ hone)

/-- Fetches of which number `k` meets a peripheral that answers it, the others reading memory. -/
theorem fetchAll_peripheral_answers {ws : List Width} {k : Nat} {w : Width} {before rest : List Byte}
    (hbefore : s.fetchedFrom (s.reg .ip) (ws.take k) = some before) (hw : ws[k]? = some w)
    (ha : s.reg .ip + BitVec.ofNat 16 before.length = a) (hr : resolve s.regions a = some (d, la))
    (hd : s.device d = .peripheral h) (hf : ¬ Config.deviceFails d h (readAccess la w) = true)
    (hrest : s.fetchedFrom (a + BitVec.ofNat 16 w.bytes) (ws.drop (k + 1)) = some rest) :
    fetchAll ws s = .ok (before ++ (answerBytes d h la w ++ rest))
      ((s.received d h (readAccess la w)).withReg .ip (a + BitVec.ofNat 16 (w.bytes + rest.length))) := by
  have hone := fetchOne_peripheral (s := s.withReg .ip a) (by rw [reg_withReg_same]; exact hr) hd w
  rw [if_neg hf, reg_withReg_same] at hone
  let reached := ((s.withReg .ip a).received d h (readAccess la w)).withReg .ip (a + BitVec.ofNat 16 w.bytes)
  have hip : reached.reg .ip = a + BitVec.ofNat 16 w.bytes := reg_withReg_same _ .ip _
  have hall := fetchAll_fetched (s := reached) (ws := ws.drop (k + 1)) (bs := rest) (by
    rw [hip, fetchedFrom_withReg, fetchedFrom_received (s := s.withReg .ip a) hd, fetchedFrom_withReg]
    exact hrest)
  rw [hip, BitVec.add_assoc, ofNat_add_ofNat, withReg_withReg_same] at hall
  rw [split_at hw, fetchAll_append hbefore, run_fetchAll_cons, ha, hone]
  simp only [reached] at hall
  simp only [hall]
  rfl

/-- Where operand fetch number `k` starts, counted from the end of the opcode byte. -/
theorem operand_address {k : Nat} {f : Format} {before : List Byte}
    (hbefore : s.fetchedFrom (s.reg .ip + 1) ((operandWidths f).take k) = some before)
    (ha : s.reg .ip + BitVec.ofNat 16 (operandOffset f k) = a) : s.reg .ip + 1 + BitVec.ofNat 16 before.length = a := by
  rw [add_ofNat_succ, fetchedFrom_length hbefore]
  exact ha

/-- A step whose operand fetch number `k` meets a peripheral, its other fetches reading memory: a failure ends the step there, an
answer is what the decoder reads (20_memory.md R70, 30_encoding.md R104, R105). -/
theorem step_operand_peripheral {b : Byte} {o : Opcode} {k : Nat} {w : Width} {before : List Byte}
    (hr : resolve s.regions a = some (d, la)) (hd : s.device d = .peripheral h) (hrun : s.status = .running)
    (hb : s.peek (s.reg .ip) = some b) (ho : opcodeOfByte s.params.opcodes b = some o)
    (hw : (operandWidths (opcodeFormat s.params.shiftLit o))[k]? = some w)
    (hbefore : s.fetchedFrom (s.reg .ip + 1) ((operandWidths (opcodeFormat s.params.shiftLit o)).take k) = some before)
    (ha : s.reg .ip + BitVec.ofNat 16 (operandOffset (opcodeFormat s.params.shiftLit o) k) = a) :
    if Config.deviceFails d h (readAccess la w) then
      ∃ t, step s = .next t ∧ t.status = .faulted (.deviceFault ⟨.fetch, a, w⟩ la) ∧
        ReachesPeripheral d h (readAccess la w) s.begun t ∧ t.reg .ip = a ∧ SameRegsBut [.ip] s t ∧ t.fsz = s.fsz
    else
      ∀ rest, s.fetchedFrom (a + BitVec.ofNat 16 w.bytes)
          ((operandWidths (opcodeFormat s.params.shiftLit o)).drop (k + 1)) = some rest →
        ∃ i t, decode s.params (b :: (before ++ (answerBytes d h la w ++ rest))) = .ok (i, []) ∧ step s = exec i t ∧
          ReachesPeripheral d h (readAccess la w) s.begun t ∧
          t.reg .ip = a + BitVec.ofNat 16 (w.bytes + rest.length) ∧ SameRegsBut [.ip] s t ∧ t.fsz = s.fsz ∧
          t.status = s.status := by
  have h8 := fetch8_begun hb
  have hfrom : ∀ c ws, (s.fetchedTo (s.reg .ip + 1)).fetchedFrom c ws = s.fetchedFrom c ws := fun c ws => by
    rw [State.fetchedTo, fetchedFrom_withReg, fetchedFrom_begun]
  have hbefore' : (s.fetchedTo (s.reg .ip + 1)).fetchedFrom ((s.fetchedTo (s.reg .ip + 1)).reg .ip)
      ((operandWidths (opcodeFormat s.params.shiftLit o)).take k) = some before := by
    rw [hfrom, reg_ip_fetchedTo]
    exact hbefore
  have ha' : (s.fetchedTo (s.reg .ip + 1)).reg .ip + BitVec.ofNat 16 before.length = a := by
    rw [reg_ip_fetchedTo]
    exact operand_address hbefore ha
  split
  next hf =>
    have hall := fetchAll_peripheral_fails hbefore' hw ha' hr hd hf
    exact ⟨_, step_of_fetchAll_error hrun h8 ho hall, rfl, reachedTo_stopped_frame hd _ a _⟩
  next hf =>
    intro rest hrest
    have hall := fetchAll_peripheral_answers hbefore' hw ha' hr hd hf ((hfrom _ _).trans hrest)
    obtain ⟨i, hdec, hstep⟩ := step_of_fetchAll hrun h8 ho hall
    exact ⟨i, _, hdec, hstep, reachedTo_frame hd _ _⟩

/-- A fetch operation that meets a peripheral, `Fetch8` or `Fetch16`: `ip` moves only where the device answers
(30_encoding.md R104, R105). -/
theorem fetch_reaches {α : Type} {op : Op α} {e : Stop} {x : α} {n : Word} (hd : s.device d = .peripheral h)
    (hop : op s = if Config.deviceFails d h acc then .error e (s.received d h acc)
      else .ok x ((s.received d h acc).withReg .ip n)) :
    ∃ t, ReachesPeripheral d h acc s t ∧ SameRegsBut [.ip] s t ∧ t.fsz = s.fsz ∧ t.status = s.status ∧
      if Config.deviceFails d h acc then op s = .error e t ∧ t.reg .ip = s.reg .ip
      else op s = .ok x t ∧ t.reg .ip = n := by
  have hreach := reachesPeripheral_received hd acc
  by_cases hf : Config.deviceFails d h acc = true
  · simp only [if_pos hf] at hop ⊢
    exact ⟨s.received d h acc, hreach, sameRegsBut_of_regs rfl, rfl, rfl, hop, rfl⟩
  · simp only [if_neg hf] at hop ⊢
    exact ⟨(s.received d h acc).withReg .ip n, hreach.congr rfl ⟨rfl, rfl, rfl, rfl⟩,
      sameRegsBut_withReg (s.received d h acc) .ip n, rfl, rfl, hop, reg_withReg_same _ .ip n⟩

/-- Settles O27: each read is one access of the peripheral, and what it delivers is the answer or nothing. -/
theorem readsReachPeripheralsOnce : Obligations.ReadsReachPeripheralsOnce := by
  intro s addr d la h hr hd
  refine ⟨fun i rd hi => LoadsFrom.reaches hi hr hd, ?_, ?_, ?_,
    fun b o k w before hrun hb ho hw hbefore ha => step_operand_peripheral hr hd hrun hb ho hw hbefore ha⟩
  · rintro rfl
    refine ⟨fun rd => exec_pop_reaches hr hd rd, s.popped.received d h (.read16 la),
      reachesPeripheral_popped_received hd _, sameRegsBut_popped s, rfl, rfl, rfl, pop_peripheral hr hd⟩
  · rintro rfl
    exact ⟨fetch_reaches hd (fetch8_peripheral hr hd), fetch_reaches hd (fetch16_peripheral hr hd)⟩
  · rintro hrun rfl
    exact step_opcode_peripheral hrun hr hd

end Sys2Proof.Machine
end

section
/-! The obligations of 20_memory.md: the canonical form of a memory device, the mapper, word accesses and the raw loader view. -/

namespace Sys2Proof.Machine

variable {s : State} {d : Nat} {a la : Word}

/-! ### The canonical form -/

theorem cellsRise_cons {size lo : Nat} {c : Host.Cell} {l : List Host.Cell} :
    cellsRise size lo (c :: l) = true ↔ lo ≤ c.1 ∧ c.1 < size ∧ cellsRise size (c.1 + 1) l = true := by
  simp [cellsRise, and_assoc]

/-- A canonical list lists nothing below its bound. -/
theorem cellAt_eq_none_of_lt {size lo k : Nat} {l : List Host.Cell} (h : cellsRise size lo l = true) (hk : k < lo) :
    cellAt k l = none := by
  induction l generalizing lo with
  | nil => rfl
  | cons c l ih =>
    obtain ⟨hlo, _, hrest⟩ := cellsRise_cons.mp h
    rw [cellAt, if_neg (by omega)]
    exact ih hrest (by omega)

theorem cellAt_head (c : Host.Cell) (l : List Host.Cell) : cellAt c.1 (c :: l) = some c.2 := by simp [cellAt]

/-- The first address of a canonical list is a lower bound of what is listed. -/
theorem head_le_of_cellAt_eq {size : Nat} {x y : Host.Cell} {m n : List Host.Cell} (hn : cellsRise size (y.1 + 1) n = true)
    (heq : ∀ k, cellAt k (x :: m) = cellAt k (y :: n)) : y.1 ≤ x.1 := by
  by_contra hlt
  have hnone : cellAt x.1 (y :: n) = none := by
    rw [cellAt, if_neg (by omega)]
    exact cellAt_eq_none_of_lt hn (by omega)
  exact absurd ((cellAt_head x m).symm.trans ((heq x.1).trans hnone)) (by simp)

/-- Two canonical lists that list the same bytes are equal: their first addresses are each other's lower bounds. -/
theorem cells_eq_of_cellAt_eq {size lo lo' : Nat} {l l' : List Host.Cell} (h : cellsRise size lo l = true)
    (h' : cellsRise size lo' l' = true) (heq : ∀ k, cellAt k l = cellAt k l') : l = l' := by
  induction l generalizing lo lo' l' with
  | nil =>
    cases l' with
    | nil => rfl
    | cons c' l' => exact absurd ((heq c'.1).trans (cellAt_head c' l')) (by simp [cellAt])
  | cons c l ih =>
    cases l' with
    | nil => exact absurd ((heq c.1).symm.trans (cellAt_head c l)) (by simp [cellAt])
    | cons c' l' =>
      obtain ⟨_, _, hl⟩ := cellsRise_cons.mp h
      obtain ⟨_, _, hl'⟩ := cellsRise_cons.mp h'
      have haddr : c.1 = c'.1 := Nat.le_antisymm (head_le_of_cellAt_eq hl fun k => (heq k).symm) (head_le_of_cellAt_eq hl' heq)
      have hbyte : c.2 = c'.2 := by
        have := heq c.1
        rw [cellAt_head, haddr, cellAt_head] at this
        exact Option.some.inj this
      have hcell : c = c' := Prod.ext haddr hbyte
      subst hcell
      have hrest : l = l' := ih hl hl' fun k => by
        by_cases hk : k = c.1
        · rw [cellAt_eq_none_of_lt hl (by omega), cellAt_eq_none_of_lt hl' (by omega)]
        · simpa [cellAt, Ne.symm hk] using heq k
      rw [hrest]

/-- Settles O19: writes in range keep the addresses rising, and rising lists are told apart by what they list. -/
theorem memoryKeepsItsCanonicalForm : Obligations.MemoryKeepsItsCanonicalForm := by
  refine ⟨fun m a b => wf_putByte b, fun m a v => wf_putWord v, fun m a bs h ha => (wf_putBytes bs h ha).1,
    fun m n hm hn hsize hcells => ?_⟩
  obtain ⟨size, cells⟩ := m
  obtain ⟨size', cells'⟩ := n
  cases hsize
  have heq : cells = cells' := cells_eq_of_cellAt_eq hm hn hcells
  rw [heq]

/-! ### The default map -/

/-- Settles O20: every word but the one at 0xFFFF has a slot, and that one runs past main memory. -/
theorem boundsViolationExactlyAtTheTop : Obligations.BoundsViolationExactlyAtTheTop := by
  intro s kind a v h
  refine ⟨fun ha => ?_, ?_⟩
  · have hslot := h.wordSlot ha
    exact ⟨memRead16_slot hslot kind, _, memWrite16_slot hslot kind v⟩
  · rintro rfl
    have hfault := h.accessFaults_top kind
    exact ⟨memRead16_faults hfault, memWrite16_faults hfault v⟩

/-! ### The mapper -/

/-- Regions that do not hold an address are passed over. -/
theorem resolve_append_of_miss {before : List Region} (h : ∀ e ∈ before, ¬ regionHolds e a = true) (after : List Region) :
    resolve (before ++ after) a = resolve after a := by
  induction before with
  | nil => rfl
  | cons e before ih =>
    rw [List.cons_append, resolve_miss (h e List.mem_cons_self)]
    exact ih fun g hg => h g (List.mem_cons_of_mem e hg)

theorem resolve_eq_none {l : List Region} (h : ∀ e ∈ l, ¬ regionHolds e a = true) : resolve l a = none := by
  have := resolve_append_of_miss h []
  rwa [List.append_nil] at this

/-- The address that the device of a region receives: counted from the region's start where it is remapped. -/
theorem toNat_regionLocal {g : Region} (h : g.start.toNat ≤ a.toNat) :
    (regionLocal g a).toNat = if g.remap then a.toNat - g.start.toNat else a.toNat := by
  have hsub : (a - g.start).toNat = a.toNat - g.start.toNat := BitVec.toNat_sub_of_le (BitVec.le_def.mpr h)
  rw [regionLocal]
  split <;> simp [*]

/-- Settles O21: resolving passes over the regions that do not hold the address and stops at the first that does. -/
theorem firstRegionWins : Obligations.FirstRegionWins := by
  refine ⟨fun before after g a hmiss hlo hhi => ?_, fun l a hmiss => ?_, fun s kind a v hnone => ?_⟩
  · have hbefore : ∀ e ∈ before, ¬ regionHolds e a = true := fun e he => by rw [regionHolds_iff]; exact hmiss e he
    exact ⟨regionLocal g a, (resolve_append_of_miss hbefore _).trans
      (resolve_hit ((regionHolds_iff g a).mpr ⟨hlo, hhi⟩) after), toNat_regionLocal hlo⟩
  · exact resolve_eq_none fun e he => by rw [regionHolds_iff]; exact hmiss e he
  · exact ⟨by simp [memRead8, hnone], memRead16_unmapped hnone kind, by simp [memWrite8, hnone],
      memWrite16_unmapped hnone kind v⟩

/-! ### Mapping and unmapping -/

/-- A region that names a device, put in front of the list with the next token, keeps the invariant. -/
theorem State.Inv.withRegion (h : s.Inv) (hd : d < s.devices.length) (start last : Word) (remap : Bool) :
    (s.withRegion d start last remap).Inv where
  memories := h.memories
  regions := by
    simp only [withRegion_regions, withRegion_devices, List.mem_cons, forall_eq_or_imp]
    exact ⟨hd, h.regions⟩
  tokens := by
    obtain ⟨hnodup, hlt⟩ := h.tokens
    simp only [withRegion_regions, withRegion_nextToken, List.map_cons, List.nodup_cons, List.mem_cons,
      forall_eq_or_imp, List.mem_map, not_exists, not_and]
    refine ⟨⟨fun g hg heq => ?_, hnodup⟩, Nat.lt_succ_self _, fun g hg => Nat.lt_succ_of_lt (hlt g hg)⟩
    exact absurd (hlt g hg) (by rw [heq]; exact Nat.lt_irrefl _)
  params := h.params
  begun := h.begun

theorem mapRegion_eq (hstarted : s.started = false) (hd : d < s.devices.length) (start last : Word) (remap : Bool) :
    mapRegion s d start last remap = some (s.nextToken, s.withRegion d start last remap) := if_pos ⟨hstarted, hd⟩

/-- Unmapping the newest region leaves the regions before it: no other has its token. -/
theorem unmapRegion_withRegion (h : s.Inv) (hstarted : s.started = false) (start last : Word) (remap : Bool) :
    unmapRegion (s.withRegion d start last remap) s.nextToken =
      some { s.withRegion d start last remap with regions := s.regions } := by
  have hkeep : s.regions.filter (fun g => g.token != s.nextToken) = s.regions := by
    rw [List.filter_eq_self]
    intro g hg
    simpa using (h.tokens.2 g hg).ne
  simp [unmapRegion, hstarted, hkeep]

/-- Settles O22: the new region stands first in the list, and its token is no other region's. -/
theorem mappingShadowsUntilUnmapped : Obligations.MappingShadowsUntilUnmapped := by
  intro s d start last remap
  refine ⟨fun hstarted hd => ?_, fun hd => ?_, fun hstarted => ?_⟩
  · refine ⟨s.nextToken, _, mapRegion_eq hstarted hd start last remap, rfl, fun a hlo hhi => ?_, fun a hout => ?_,
      fun hinv => ⟨hinv.withRegion hd start last remap, _, unmapRegion_withRegion hinv hstarted start last remap, rfl, ?_⟩⟩
    · exact resolve_hit ((regionHolds_iff _ a).mpr ⟨hlo, hhi⟩) s.regions
    · exact resolve_miss (by rw [regionHolds_iff]; exact hout) s.regions
    · obtain ⟨hnodup, hlt⟩ := hinv.tokens
      exact ⟨hinv.memories, hinv.regions, ⟨hnodup, fun g hg => Nat.lt_succ_of_lt (hlt g hg)⟩, hinv.params, hinv.begun⟩
  · exact if_neg fun h => absurd h.2 (Nat.not_lt.mpr hd)
  · have hno : ¬ s.started = false := by rw [hstarted]; decide
    exact ⟨if_neg fun h => hno h.1, fun token => if_neg hno⟩

/-! ### Word accesses -/

/-- A slot inside a device has both its bytes. -/
theorem SlotIn.localBytes {slot : Nat × Nat} (h : SlotIn s slot) :
    ∃ hi lo, s.localByte slot.1 slot.2 = some hi ∧ s.localByte slot.1 (slot.2 + 1) = some lo := by
  obtain ⟨m, hd, hlt⟩ := h
  exact ⟨m.byteAt slot.1 slot.2, m.byteAt slot.1 (slot.2 + 1), by simp [State.localByte, hd, Nat.lt_of_succ_lt hlt],
    by simp [State.localByte, hd, hlt]⟩

theorem sameMachine_storeWord (s : State) (slot : Nat × Nat) (v : Word) : SameMachine s (s.storeWord slot v) where
  regions := storeWord_regions s slot v
  nextToken := storeWord_nextToken s slot v
  started := storeWord_started s slot v
  params := storeWord_params s slot v

/-- A store changes the two bytes of its word and nothing else. -/
theorem storeWord_frame {slot : Nat × Nat} (h : SlotIn s slot) (v : Word) :
    StoresWord slot v s (s.storeWord slot v) ∧ SameRegsBut [] s (s.storeWord slot v) ∧ (s.storeWord slot v).fsz = s.fsz ∧
      (s.storeWord slot v).status = s.status ∧ SameMachine s (s.storeWord slot v) :=
  ⟨storesWord_storeWord h v, sameRegsBut_of_regs (storeWord_regs s slot v), storeWord_fsz s slot v,
    storeWord_status s slot v, sameMachine_storeWord s slot v⟩

/-- Settles O23: the slot of the first address is what the access reads or writes. -/
theorem wordAccessRoutedByItsFirstByte : Obligations.WordAccessRoutedByItsFirstByte := by
  intro s kind a v slot h
  have hin := slotIn_of_wordSlot h
  obtain ⟨hi, lo, hhi, hlo⟩ := hin.localBytes
  exact ⟨⟨_, hi, lo, memRead16_slot h kind, hhi, hlo, toNat_slotWord hhi hlo⟩, _, memWrite16_slot h kind v,
    storeWord_frame hin v⟩

/-! ### The raw loader view -/

theorem rawRead_eq_localByte (hstarted : s.started = false) (i : Nat) : rawRead s i = s.localByte mainDevice i := by
  cases hd : s.device mainDevice <;> simp [rawRead, mainMemory, State.localByte, hd, hstarted]

/-- Settles O24: under the default map an address is main memory's index. -/
theorem rawViewSharesMainMemory : Obligations.RawViewSharesMainMemory := by
  intro s a b h
  obtain ⟨cells, hd⟩ := h.memory
  have hlt : ∀ c : Word, c.toNat < Config.mainMemorySize := fun c => c.isLt
  refine ⟨fun hstarted => ⟨(rawRead_eq_localByte hstarted a.toNat).trans (h.peek a).symm, ?_⟩, fun hstarted => ?_⟩
  · let m : Memory := { size := Config.mainMemorySize, cells := cells }
    let t := s.withDevice mainDevice (.memory (m.putByte a.toNat b))
    have hwrite : rawWrite s a.toNat b = some t := by simp [rawWrite, mainMemory, hd, hstarted, hlt a, t, m]
    have hdt : t.device mainDevice = .memory (m.putByte a.toNat b) :=
      device_withDevice_same _ _ (device_lt_of_memory hd (hlt a))
    have hpeek : ∀ c, t.peek c = if c = a then some b else s.peek c := fun c => by
      rw [h.peek, peek_eq_localByte (s := t) (h.resolve c)]
      simp only [State.localByte, hdt, hd, putByte_size, byteAt_putByte, m, hlt c, if_true]
      by_cases hc : c = a
      · simp [hc]
      · have hne : c.toNat ≠ a.toNat := fun e => hc (BitVec.eq_of_toNat_eq e)
        simp [hc, hne]
    exact ⟨t, hwrite, by rw [hpeek, if_pos rfl], fun c hc => by rw [hpeek, if_neg hc], sameRegsBut_of_regs rfl, rfl, rfl,
      ⟨rfl, rfl, rfl, rfl⟩⟩
  · simp [rawRead, rawWrite, mainMemory, hd, hstarted]

end Sys2Proof.Machine
end

section
/-! The obligations of 70_reset_and_hazards.md section 2, 10_state.md section 5 and 60_exceptions.md section 6: the launch, the reset
machine, and the host's reads. -/

namespace Sys2Proof.Machine

variable {s : State} {a la : Word} {d : Nat}

/-! ### The machine as constructed -/

/-- Main memory as constructed: the image from address 0 on, launch contents elsewhere (70_reset_and_hazards.md R312). -/
theorem localByte_constructed {l : Launch} (h : l.image.length ≤ l.mainSize) (k : Nat) :
    (constructed l).localByte mainDevice k =
      if k < l.mainSize then some ((l.image[k]?).getD (Config.initByte mainDevice k)) else none := by
  let blank : Memory := { size := l.mainSize, cells := [] }
  have hd : (constructed l).device mainDevice = .memory (blank.putBytes 0 l.image) := rfl
  have hsize : (blank.putBytes 0 l.image).size = l.mainSize :=
    (wf_putBytes l.image (m := blank) rfl (by simpa [blank] using h)).2
  have hblank : blank.byteAt mainDevice k = Config.initByte mainDevice k := rfl
  simp [State.localByte, hd, hsize, byteAt_putBytes, hblank]

theorem constructDevice_wf {spec : DeviceSpec} {m : Memory} (h : constructDevice spec = .memory m) : m.wf = true := by
  cases spec with
  | memory size => cases h; rfl
  | peripheral => cases h

/-- A device besides main memory lists nothing. -/
theorem device_constructed_succ_wf {l : Launch} {m : Memory} (h : (constructed l).device (d + 1) = .memory m) :
    m.wf = true := by
  have hother : (constructed l).device (d + 1) =
      ((l.others[d]?).map constructDevice).getD (.memory { size := 0, cells := [] }) := by
    simp [State.device, constructed]
  rw [hother] at h
  cases hspec : l.others[d]? with
  | none => rw [hspec] at h; cases h; rfl
  | some spec => rw [hspec] at h; exact constructDevice_wf h

theorem inv_constructed {l : Launch} (h : l.image.length ≤ l.mainSize) (hp : ParamsWellFormed l.params) :
    (constructed l).Inv where
  memories := by
    intro d m hd
    cases d with
    | zero => cases hd; exact (wf_putBytes l.image rfl (by simpa using h)).1
    | succ d => exact device_constructed_succ_wf hd
  regions := fun _ hg => absurd hg List.not_mem_nil
  tokens := ⟨List.nodup_nil, fun _ hg => absurd hg List.not_mem_nil⟩
  params := hp
  begun := fun _ => rfl

/-- Registering regions that name devices keeps the invariant. -/
theorem State.Inv.registerRegions {l : List RegionSpec} (h : s.Inv) (hl : ∀ g ∈ l, g.device < s.devices.length) :
    (registerRegions s l).Inv := by
  induction l generalizing s with
  | nil => exact h
  | cons g l ih =>
    exact ih (h.withRegion (hl g List.mem_cons_self) g.start g.last g.remap) fun e he => hl e (List.mem_cons_of_mem g he)

/-! ### The launch -/

theorem launch_of_admitted {l : Launch} (h : l.admitted) : launch l = some (registerRegions (constructed l) l.regions) :=
  if_pos h

theorem launch_of_not_admitted {l : Launch} (h : ¬ l.admitted) : launch l = none := if_neg h

/-- Settles O17: an admitted launch is the machine as constructed with its regions registered. -/
theorem launchLoadsTheImage : Obligations.LaunchLoadsTheImage := by
  intro l
  refine ⟨fun hlong => launch_of_not_admitted fun h => ?_, fun hp => launch_of_not_admitted fun h => hp h.2.1,
    fun g hg hno => launch_of_not_admitted fun h => ?_, fun hfits hp hdev => ?_⟩
  · exact absurd h.1 (Nat.not_le.mpr hlong)
  · exact absurd (h.2.2 g hg) (Nat.not_lt.mpr (Nat.succ_le_of_lt hno))
  · have hlt : ∀ g ∈ l.regions, g.device < l.others.length + 1 := fun g hg => Nat.lt_succ_of_le (hdev g hg)
    have hreg := registered_registerRegions l.regions (constructed l)
    refine ⟨_, launch_of_admitted ⟨hfits, hp, hlt⟩, fun k => ?_, by rw [hreg.devices]; rfl, ?_, hreg.regs, hreg.fsz,
      hreg.status, hreg.started, hreg.params, (inv_constructed hfits hp).registerRegions ?_⟩
    · rw [State.localByte, device_congr hreg.devices]
      exact localByte_constructed hfits k
    · rw [hreg.regions]
      exact List.append_nil _
    · simpa [constructed] using hlt

/-! ### The reset machine -/

/-- The machine that the default launch of an image leaves: reset, with the image in main memory. -/
theorem launch_default {image : List Byte} (h : image.length ≤ 0x10000) :
    launch (defaultLaunch image) = some { State.reset with devices := (constructed (defaultLaunch image)).devices } :=
  launch_of_admitted ⟨h, resetSatisfiesTheInvariant.params, by simp [defaultLaunch, mainDevice]⟩

theorem flatMap_reset : FlatMap State.reset := ⟨rfl, [], rfl⟩

theorem flatMap_default {image : List Byte} (h : image.length ≤ 0x10000) :
    FlatMap { State.reset with devices := (constructed (defaultLaunch image)).devices } := by
  let blank : Memory := { size := Config.mainMemorySize, cells := [] }
  have hsize : (blank.putBytes 0 image).size = Config.mainMemorySize :=
    (wf_putBytes image (m := blank) rfl (by simpa [blank, Config.mainMemorySize] using h)).2
  refine ⟨rfl, (blank.putBytes 0 image).cells, ?_⟩
  rw [← hsize]
  rfl

/-- Settles O16: the default launch constructs main memory and registers its one region. -/
theorem resetMachine : Obligations.ResetMachine := by
  refine ⟨rfl, rfl, flatMap_reset, rfl, rfl, fun a => ?_, launch_default (Nat.zero_le _), fun image h => ?_⟩
  · have hlt : a.toNat < Config.mainMemorySize := a.isLt
    have hd : State.reset.device mainDevice = .memory { size := Config.mainMemorySize, cells := [] } := rfl
    rw [flatMap_reset.peek]
    simp [State.localByte, hd, hlt, Memory.byteAt, cellAt]
  · refine ⟨_, launch_default h, rfl, flatMap_default h, fun a => ?_⟩
    rw [(flatMap_default h).peek]
    exact (localByte_constructed (l := defaultLaunch image) h a.toNat).trans (if_pos a.isLt)

/-! ### Host reads -/

theorem hostAccess_ok {α : Type} {op : Op α} {t : State} {v : α} (h : op s = .ok v t) : hostAccess op s = (.ok v, t) := by
  simp only [hostAccess, h]

theorem hostAccess_error {α : Type} {op : Op α} {t : State} {e : Stop} (h : op s = .error e t) :
    hostAccess op s = (.error e, t) := by
  simp only [hostAccess, h]

theorem hostRead8_reaches (s : State) (a : Word) : OnlyPeripheralsReached s (hostRead8 s a).2 := by
  have h := memRead8_reaches .read a s
  cases hread : memRead8 .read a s with
  | ok v t => rw [hread] at h; rw [hostRead8, hostAccess_ok hread]; exact h
  | error e t => rw [hread] at h; rw [hostRead8, hostAccess_error hread]; exact h

theorem hostRead16_reaches (s : State) (a : Word) : OnlyPeripheralsReached s (hostRead16 s a).2 := by
  have h := memRead16_reaches .read a s
  cases hread : memRead16 .read a s with
  | ok v t => rw [hread] at h; rw [hostRead16, hostAccess_ok hread]; exact h
  | error e t => rw [hread] at h; rw [hostRead16, hostAccess_error hread]; exact h

theorem hostReadRange_succ (s : State) (a : Word) (n : Nat) :
    hostReadRange s a (n + 1) = ((hostRead8 s a).1 :: (hostReadRange (hostRead8 s a).2 (a + 1) n).1,
      (hostReadRange (hostRead8 s a).2 (a + 1) n).2) := rfl

theorem hostReadRange_reaches (s : State) (a : Word) (n : Nat) : OnlyPeripheralsReached s (hostReadRange s a n).2 := by
  induction n generalizing s a with
  | zero => exact onlyPeripheralsReached_rfl s
  | succ n ih => exact (hostRead8_reaches s a).trans (ih (hostRead8 s a).2 (a + 1))

/-- The last byte of a range is read in the state that the bytes before it have left. -/
theorem hostReadRange_last (s : State) (a : Word) (n : Nat) :
    hostReadRange s a (n + 1) =
      ((hostReadRange s a n).1 ++ [(hostRead8 (hostReadRange s a n).2 (a + BitVec.ofNat 16 n)).1],
        (hostRead8 (hostReadRange s a n).2 (a + BitVec.ofNat 16 n)).2) := by
  induction n generalizing s a with
  | zero => simp [hostReadRange]
  | succ n ih => rw [hostReadRange_succ, ih, hostReadRange_succ s a n, add_ofNat_succ, List.cons_append]

/-- A host access of a peripheral: the device receives it, and its answer or its failure goes to the host. -/
theorem hostAccess_peripheral {α : Type} {op : Op α} {h : List Config.DeviceAccess} {acc : Config.DeviceAccess}
    {e : Stop} {v : α} (hd : s.device d = .peripheral h)
    (hop : op s = if Config.deviceFails d h acc then .error e (s.received d h acc) else .ok v (s.received d h acc)) :
    ReachesPeripheral d h acc s (hostAccess op s).2 ∧
      (hostAccess op s).1 = if Config.deviceFails d h acc then .error e else .ok v := by
  have hreach := reachesPeripheral_received hd acc
  by_cases hf : Config.deviceFails d h acc = true
  · rw [if_pos hf] at hop ⊢
    rw [hostAccess_error hop]
    exact ⟨hreach, rfl⟩
  · rw [if_neg hf] at hop ⊢
    rw [hostAccess_ok hop]
    exact ⟨hreach, rfl⟩

/-- Settles O25: a host read is the mapper's read, with its stop handed to the host. -/
theorem hostReadsLeaveTheRunAlone : Obligations.HostReadsLeaveTheRunAlone := by
  intro s a
  refine ⟨⟨hostRead8_reaches s a, hostRead16_reaches s a, fun n => ⟨hostReadRange_reaches s a n, hostReadRange_reaches s a n⟩⟩,
    ⟨rfl, hostReadRange_last s a⟩, fun n => rfl, fun b hb => hostAccess_ok (memRead8_peek hb .read),
    fun slot hslot => hostAccess_ok (memRead16_slot hslot .read), fun hnone => ?_, fun d la m hr hd => ⟨fun hb => ?_, fun hb => ?_⟩,
    fun d la h hr hd => ?_⟩
  · exact ⟨hostAccess_error (memRead8_faults (.inl ⟨hnone, rfl⟩)), hostAccess_error (memRead16_unmapped hnone .read)⟩
  · exact hostAccess_error (memRead8_faults (.inr ⟨d, la, m, hr, hd, Nat.lt_succ_of_le hb, rfl⟩))
  · exact hostAccess_error (memRead16_outside hr hd hb .read)
  · obtain ⟨hreach8, hvalue8⟩ := hostAccess_peripheral hd (memRead8_peripheral hr hd .read)
    obtain ⟨hreach16, hvalue16⟩ := hostAccess_peripheral hd (memRead16_peripheral hr hd .read)
    exact ⟨hreach8, hvalue8, hreach16, hvalue16⟩

end Sys2Proof.Machine
end

section
/-! The obligations of 10_state.md section 1, 40_data_movement.md, 41_arithmetic.md, 42_logic_shift.md and 43_branch.md: the
register file as storage, and what each instruction but the stack's does and leaves unchanged. -/

namespace Sys2Proof.Machine

variable {s : State} {i : Instr} {r rd : Reg} {v addr la : Word} {d : Nat} {m : Memory} {slot : Nat × Nat}

/-- Settles O14: the words of the registers in order, each high byte first. -/
theorem registerStorageLayout : Obligations.RegisterStorageLayout := by
  intro f
  refine ⟨rfl, fun r => ?_⟩
  rw [← hiByte_eq_shift, ← loByte_eq_setWidth]
  cases r <;> simp [RegFile.storage, wordBytes, regIndex, RegFile.get]

/-! ### Instructions that write one register -/

/-- An instruction whose operation writes `v` to one register completes and changes that register alone. -/
theorem exec_writes (hop : instrOp i s = .ok () (s.withReg r v)) :
    ∃ t, exec i s = .next t ∧ OnlyRegs [r] s t ∧ t.reg r = v :=
  ⟨s.withReg r v, (exec_eq_perform i s).trans (perform_ok hop), onlyRegs_withReg s r v, reg_withReg_same s r v⟩

theorem exec_writes_toNat {n : Nat} (hop : instrOp i s = .ok () (s.withReg r v)) (hv : v.toNat = n) :
    ∃ t, exec i s = .next t ∧ OnlyRegs [r] s t ∧ (t.reg r).toNat = n := by
  obtain ⟨t, ht, honly, rfl⟩ := exec_writes hop
  exact ⟨t, ht, honly, hv⟩

theorem exec_writes_bits {f : Nat → Bool} (hop : instrOp i s = .ok () (s.withReg r v)) (hv : ∀ k, v.getLsbD k = f k) :
    ∃ t, exec i s = .next t ∧ OnlyRegs [r] s t ∧ ∀ k, (t.reg r).getLsbD k = f k := by
  obtain ⟨t, ht, honly, rfl⟩ := exec_writes hop
  exact ⟨t, ht, honly, hv⟩

/-! ### Data movement -/

/-- Settles O29: each move is one register write. -/
theorem movesIntoRegisters : Obligations.MovesIntoRegisters := by
  intro s rd
  refine ⟨fun lit => ?_, fun rs => ?_⟩
  · obtain ⟨t, ht, honly, hv⟩ := exec_writes (i := .movLitReg lit rd) (run_intoReg (run_litOperand lit s) rd)
    exact ⟨t, ht, hv, honly⟩
  · obtain ⟨t, ht, honly, hv⟩ := exec_writes (i := .movRegReg rs rd) (run_intoReg (run_regOperand rs s) rd)
    exact ⟨t, ht, hv, honly⟩

/-- A load whose word lies in a slot reads that word (40_data_movement.md R123, R125, R126). -/
theorem LoadsFrom.exec_slot {k : Nat} {hi lo : Byte} (h : LoadsFrom s addr rd i) (hslot : s.wordSlot addr = some (d, k))
    (hhi : s.localByte d k = some hi) (hlo : s.localByte d (k + 1) = some lo) :
    ∃ t, exec i s = .next t ∧ (t.reg rd).toNat = 256 * hi.toNat + lo.toNat ∧ OnlyRegs [rd] s t := by
  refine ⟨_, h.exec_ok (memRead16_slot hslot .read), ?_, onlyRegs_withReg s rd _⟩
  rw [reg_withReg_same]
  exact toNat_slotWord hhi hlo

/-- Settles O30: the three loads differ in how they find their address. -/
theorem loadsReadTheWord : Obligations.LoadsReadTheWord := by
  intro s rd d k hi lo hhi hlo
  refine ⟨fun addr hslot => LoadsFrom.exec_slot (.inl rfl) hslot hhi hlo,
    fun rp hslot => LoadsFrom.exec_slot (.inr (.inl ⟨rp, rfl, rfl⟩)) hslot hhi hlo, fun base ro hslot => ?_⟩
  have hsum : base + s.reg ro = BitVec.ofNat 16 (base.toNat + (s.reg ro).toNat) :=
    BitVec.eq_of_toNat_eq (by rw [BitVec.toNat_add, BitVec.toNat_ofNat])
  exact LoadsFrom.exec_slot (.inr (.inr ⟨base, ro, rfl, hsum⟩)) hslot hhi hlo

/-- A store whose word lies in a slot stores it there and changes nothing else (40_data_movement.md R122, R124). -/
theorem StoresAt.exec_slot (h : StoresAt s addr v i) (hslot : s.wordSlot addr = some slot) :
    ∃ t, exec i s = .next t ∧ StoresWord slot v s t ∧ SameRegsBut [] s t ∧ t.fsz = s.fsz ∧ t.status = s.status ∧
      SameMachine s t :=
  ⟨_, h.exec_ok (memWrite16_slot hslot .write v), storeWord_frame (slotIn_of_wordSlot hslot) v⟩

/-- Settles O31: both stores write one word. -/
theorem storesWriteTheWord : Obligations.StoresWriteTheWord := by
  intro s addr slot hslot
  exact ⟨fun rs => StoresAt.exec_slot (.inr ⟨rs, rfl, rfl⟩) hslot, fun lit => StoresAt.exec_slot (.inl rfl) hslot⟩

/-- The five data accesses of the MOVs fault where their word does, and change `status` alone (60_exceptions.md R287). -/
theorem data_access_faults {cause : AccessInfo → FaultCause}
    (h : ∀ kind, AccessFaults s ⟨kind, addr, .word⟩ (cause ⟨kind, addr, .word⟩)) :
    (∀ rs, exec (.movRegMem rs addr) s = .next (s.stopped (.fault (cause ⟨.write, addr, .word⟩)))) ∧
    (∀ lit, exec (.movLitMem lit addr) s = .next (s.stopped (.fault (cause ⟨.write, addr, .word⟩)))) ∧
    (∀ rd, exec (.movMemReg addr rd) s = .next (s.stopped (.fault (cause ⟨.read, addr, .word⟩)))) ∧
    (∀ rp rd, s.reg rp = addr →
      exec (.movRegPtrReg rp rd) s = .next (s.stopped (.fault (cause ⟨.read, addr, .word⟩)))) ∧
    ∀ base ro rd, base + s.reg ro = addr →
      exec (.movLitOffReg base ro rd) s = .next (s.stopped (.fault (cause ⟨.read, addr, .word⟩))) := by
  have hread : memRead16 .read addr s = .error (.fault (cause ⟨.read, addr, .word⟩)) s := memRead16_faults (h .read)
  have hwrite : ∀ v, memWrite16 .write addr v s = .error (.fault (cause ⟨.write, addr, .word⟩)) s :=
    memWrite16_faults (h .write)
  exact ⟨fun rs => StoresAt.exec_error (.inr ⟨rs, rfl, rfl⟩) (hwrite (s.reg rs)),
    fun lit => StoresAt.exec_error (.inl rfl) (hwrite lit), fun rd => LoadsFrom.exec_error (.inl rfl) hread,
    fun rp rd hrp => LoadsFrom.exec_error (.inr (.inl ⟨rp, rfl, hrp⟩)) hread,
    fun base ro rd hsum => LoadsFrom.exec_error (.inr (.inr ⟨base, ro, rfl, hsum⟩)) hread⟩

/-- Settles O32: a data access at an address in no region faults. -/
theorem unmappedDataAccessFaults : Obligations.UnmappedDataAccessFaults := fun _ _ hnone =>
  data_access_faults (cause := .unmappedAddress) fun _ => .inl ⟨hnone, rfl⟩

/-- Settles O33: a data access whose second byte lies beyond its device faults. -/
theorem dataAccessPastTheDeviceFaults : Obligations.DataAccessPastTheDeviceFaults := fun _ _ d la m hr hd hb =>
  data_access_faults (cause := fun info => .boundsViolation info la) fun _ =>
    .inr ⟨d, la, m, hr, hd, Nat.lt_succ_of_le hb, rfl⟩

/-- The bytes from `ip` on, byte by byte, where the default map puts them (20_memory.md R69). -/
theorem FlatMap.codeBytes_two (h : FlatMap s) {hi lo : Byte} (hip : (s.reg .ip).toNat + 1 < 0x10000)
    (hhi : s.localByte mainDevice (s.reg .ip).toNat = some hi)
    (hlo : s.localByte mainDevice ((s.reg .ip).toNat + 1) = some lo) : s.codeBytes 2 = some [hi, lo] := by
  obtain ⟨cells, hd⟩ := h.memory
  have hlt : (s.reg .ip).toNat + 1 < Config.mainMemorySize := hip
  simp only [State.localByte, hd, hlt, Nat.lt_of_succ_lt hlt, if_true, Option.some.injEq] at hhi hlo
  simp only [State.codeBytes, h.resolve, hd]
  rw [if_pos ⟨Nat.succ_le_of_lt hlt, Nat.succ_le_of_lt hip, fun _ _ => trivial⟩, ← hhi, ← hlo]
  rfl

/-- Settles O34: the store's two bytes stand where the next fetch reads. -/
theorem storedBytesAreFetchedNext : Obligations.StoredBytesAreFetchedNext := by
  intro s lit h hip
  have hne : s.reg .ip ≠ 0xFFFF := fun heq => by rw [heq] at hip; exact absurd hip (by decide)
  have hslot := h.wordSlot hne
  have hstores := storesWord_storeWord (slotIn_of_wordSlot hslot) lit
  refine ⟨_, StoresAt.exec_ok (.inl rfl) (memWrite16_slot hslot .write lit), (h.storeWord _ lit).codeBytes_two ?_ ?_ ?_⟩
  · rw [reg_storeWord]; omega
  · rw [reg_storeWord]; exact hstores.high
  · rw [reg_storeWord]; exact hstores.low

/-! ### Arithmetic -/

theorem toNat_add16 (x y : Word) : (add16 x y).toNat = (x.toNat + y.toNat) % 65536 := BitVec.toNat_ofNat _ _

theorem toNat_sub16 (x y : Word) : (sub16 x y).toNat = (65536 + x.toNat - y.toNat) % 65536 := by
  have hx := x.isLt
  have hy := y.isLt
  rw [sub16, BitVec.toNat_ofInt]
  omega

theorem toNat_mul16 (x y : Word) : (mul16 x y).toNat = (x.toNat * y.toNat) % 65536 := BitVec.toNat_ofNat _ _

/-- Settles O35: each form writes its sum, difference or product to `acc`. -/
theorem arithmeticIntoAcc : Obligations.ArithmeticIntoAcc := by
  intro s lit ra rb
  have hlit := run_litOperand lit s
  have hreg := fun r => run_regOperand r s
  exact ⟨exec_writes_toNat (i := .addRegReg ra rb) (run_intoAcc (hreg ra) (hreg rb)) (toNat_add16 _ _),
    exec_writes_toNat (i := .addLitReg lit ra) (run_intoAcc hlit (hreg ra)) (toNat_add16 _ _),
    exec_writes_toNat (i := .subLitReg lit ra) (run_intoAcc (hreg ra) hlit) (toNat_sub16 _ _),
    exec_writes_toNat (i := .subRegLit ra lit) (run_intoAcc hlit (hreg ra)) (toNat_sub16 _ _),
    exec_writes_toNat (i := .subRegReg ra rb) (run_intoAcc (hreg ra) (hreg rb)) (toNat_sub16 _ _),
    exec_writes_toNat (i := .mulLitReg lit ra) (run_intoAcc hlit (hreg ra)) (toNat_mul16 _ _),
    exec_writes_toNat (i := .mulRegReg ra rb) (run_intoAcc (hreg ra) (hreg rb)) (toNat_mul16 _ _)⟩

/-- Settles O36: INC and DEC add and subtract 1 in place. -/
theorem incrementAndDecrementInPlace : Obligations.IncrementAndDecrementInPlace := by
  intro s r
  refine ⟨exec_writes_toNat (i := .incReg r) (run_inPlace _ r s) (toNat_add16 _ _),
    exec_writes_toNat (i := .decReg r) (run_inPlace _ r s) ?_⟩
  rw [toNat_sub16]
  have hone : (1 : Word).toNat = 1 := rfl
  omega

/-! ### Shifts and bitwise logic -/

theorem toNat_shl16 (v : Word) {n : Word} (h : n.toNat ≤ 15) : (shl16 v n).toNat = (v.toNat * 2 ^ n.toNat) % 65536 := by
  rw [shl16, if_pos h, BitVec.toNat_ofNat, Nat.shiftLeft_eq]

theorem toNat_shr16 (v : Word) {n : Word} (h : n.toNat ≤ 15) : (shr16 v n).toNat = v.toNat / 2 ^ n.toNat := by
  have hlt : v.toNat / 2 ^ n.toNat < 2 ^ 16 := Nat.lt_of_le_of_lt (Nat.div_le_self _ _) v.isLt
  rw [shr16, if_pos h, BitVec.toNat_ofNat, Nat.shiftRight_eq_div_pow, Nat.mod_eq_of_lt hlt]

theorem shl16_oversize (v : Word) {n : Word} (h : 16 ≤ n.toNat) : shl16 v n = Config.shiftOversize .left v n :=
  if_neg (by omega)

theorem shr16_oversize (v : Word) {n : Word} (h : 16 ≤ n.toNat) : shr16 v n = Config.shiftOversize .right v n :=
  if_neg (by omega)

/-- Settles O37: a shift by 0 to 15 multiplies or divides by a power of two. -/
theorem shiftsBelowSixteen : Obligations.ShiftsBelowSixteen := by
  intro s r rn n
  have hlit := run_litOperand n s
  have hreg := run_regOperand rn s
  exact ⟨fun h => ⟨exec_writes_toNat (i := .lsfRegLit r n) (run_inPlaceBy hlit r) (toNat_shl16 _ h),
      exec_writes_toNat (i := .rsfRegLit r n) (run_inPlaceBy hlit r) (toNat_shr16 _ h)⟩,
    fun h => ⟨exec_writes_toNat (i := .lsfRegReg r rn) (run_inPlaceBy hreg r) (toNat_shl16 _ h),
      exec_writes_toNat (i := .rsfRegReg r rn) (run_inPlaceBy hreg r) (toNat_shr16 _ h)⟩⟩

/-- Settles O38: from 16 on the value written is the open one. -/
theorem shiftsFromSixteenOn : Obligations.ShiftsFromSixteenOn := by
  intro s r rn n
  have hlit := run_litOperand n s
  have hreg := run_regOperand rn s
  exact ⟨fun h => ⟨exec_writes (i := .lsfRegLit r n) (shl16_oversize _ h ▸ run_inPlaceBy hlit r),
      exec_writes (i := .rsfRegLit r n) (shr16_oversize _ h ▸ run_inPlaceBy hlit r)⟩,
    fun h => ⟨exec_writes (i := .lsfRegReg r rn) (shl16_oversize _ h ▸ run_inPlaceBy hreg r),
      exec_writes (i := .rsfRegReg r rn) (shr16_oversize _ h ▸ run_inPlaceBy hreg r)⟩⟩

/-- Settles O39: each form writes its bitwise result to `acc`. -/
theorem bitwiseIntoAcc : Obligations.BitwiseIntoAcc := by
  intro s lit ra rb
  have hlit := run_litOperand lit s
  have hreg := fun r => run_regOperand r s
  exact ⟨exec_writes_bits (i := .andRegLit ra lit) (run_intoAcc (hreg ra) hlit) fun _ => BitVec.getLsbD_and,
    exec_writes_bits (i := .andRegReg ra rb) (run_intoAcc (hreg ra) (hreg rb)) fun _ => BitVec.getLsbD_and,
    exec_writes_bits (i := .orRegLit ra lit) (run_intoAcc (hreg ra) hlit) fun _ => BitVec.getLsbD_or,
    exec_writes_bits (i := .orRegReg ra rb) (run_intoAcc (hreg ra) (hreg rb)) fun _ => BitVec.getLsbD_or,
    exec_writes_bits (i := .xorRegLit ra lit) (run_intoAcc (hreg ra) hlit) fun _ => BitVec.getLsbD_xor,
    exec_writes_bits (i := .xorRegReg ra rb) (run_intoAcc (hreg ra) (hreg rb)) fun _ => BitVec.getLsbD_xor⟩

theorem toNat_not16 (x : Word) : (not16 x).toNat = 65535 - x.toNat := BitVec.toNat_not

/-- Settles O40: NOT writes the complement in place. -/
theorem notInPlace : Obligations.NotInPlace := fun s r =>
  exec_writes_toNat (i := .notReg r) (run_inPlace not16 r s) (toNat_not16 _)

/-! ### Conditional jumps -/

/-- A jump that compares `v` writes the target to `ip` where its relation holds between `v` and `acc`, and else leaves `ip` where
it is (43_branch.md R210). -/
theorem exec_jump {rel : Relation} {compared : Op Word} {Q : Prop} [Decidable Q] (hop : instrOp i = jumpIf rel compared addr)
    (hv : compared s = .ok v s) (hQ : relationHolds rel v (s.reg .acc) = decide Q) :
    ∃ t, exec i s = .next t ∧ OnlyRegs [.ip] s t ∧ t.reg .ip = if Q then addr else s.reg .ip := by
  have hjump := run_jumpIf (rel := rel) hv addr
  simp only [hQ, decide_eq_true_eq] at hjump
  exact exec_writes (hop ▸ hjump)

/-- Settles O41: the six relations, the literal on the left. -/
theorem literalJumps : Obligations.LiteralJumps := by
  intro s lit addr
  have hlit := run_litOperand lit s
  exact ⟨exec_jump (rel := .ne) rfl hlit (by simp [relationHolds, bne, BEq.beq]), exec_jump (rel := .eq) rfl hlit rfl,
    exec_jump (rel := .lt) rfl hlit rfl, exec_jump (rel := .gt) rfl hlit rfl, exec_jump (rel := .le) rfl hlit rfl,
    exec_jump (rel := .ge) rfl hlit rfl⟩

/-- Settles O42: the six relations, the register on the left. -/
theorem registerJumps : Obligations.RegisterJumps := by
  intro s r addr
  have hreg := run_regOperand r s
  exact ⟨exec_jump (rel := .ne) rfl hreg (by simp [relationHolds, bne, BEq.beq]), exec_jump (rel := .eq) rfl hreg rfl,
    exec_jump (rel := .lt) rfl hreg rfl, exec_jump (rel := .gt) rfl hreg rfl, exec_jump (rel := .le) rfl hreg rfl,
    exec_jump (rel := .ge) rfl hreg rfl⟩

end Sys2Proof.Machine
end

section
/-! The obligations of 44_stack_call.md: pushes, pops and calls. -/

namespace Sys2Proof.Machine

variable {s t u : State} {i : Instr} {r rd : Reg} {v a : Word} {slot : Nat × Nat} {cause : FaultCause}

/-! ### What memory shows depends on the map and the devices alone -/

theorem localByte_congr (hd : u.devices = t.devices) (d k : Nat) : u.localByte d k = t.localByte d k := by
  rw [State.localByte, State.localByte, device_congr hd]

theorem StoresWord.congr (h : StoresWord slot v s t) (hr : u.regions = t.regions) (hd : u.devices = t.devices) :
    StoresWord slot v s u where
  high := (localByte_congr hd _ _).trans h.high
  low := (localByte_congr hd _ _).trans h.low
  others := fun d k h1 h2 => (localByte_congr hd d k).trans (h.others d k h1 h2)
  peek := fun a d la hres h1 h2 => (peek_congr hr hd a).trans (h.peek a d la hres h1 h2)
  unmapped := fun a hres => (peek_congr hr hd a).trans (h.unmapped a hres)
  peripherals := fun d q => by rw [device_congr hd]; exact h.peripherals d q
  count := (congrArg List.length hd).trans h.count

theorem OnlyPushedBytes.congr {n : Nat} (h : OnlyPushedBytes n s t) (hr : u.regions = t.regions) (hd : u.devices = t.devices) :
    OnlyPushedBytes n s u where
  bytes := fun d k hout => (localByte_congr hd d k).trans (h.bytes d k hout)
  peek := fun a d la hres hout => (peek_congr hr hd a).trans (h.peek a d la hres hout)
  unmapped := fun a hres => (peek_congr hr hd a).trans (h.unmapped a hres)
  peripherals := fun d q => by rw [device_congr hd]; exact h.peripherals d q

theorem HoldsPushedWords.congr {n : Nat} {ws : List Word} (h : HoldsPushedWords n ws s t) (hd : u.devices = t.devices) :
    HoldsPushedWords n ws s u := fun j w slot hj hw hslot hapart =>
  (slotWord_congr hd slot).trans (h j w slot hj hw hslot hapart)

/-! ### Pushes -/

theorem PushedFrom.sameRegs (h : PushedFrom s t) : SameRegsBut [.sp] s t := fun r hr => h.regs r (by simpa using hr)

/-- A push instruction onto a slot (44_stack_call.md R240, R244, R245). -/
theorem PushesWord.exec_slot (h : PushesWord s v i) (hslot : s.wordSlot (s.reg .sp) = some slot) :
    ∃ t, exec i s = .next t ∧ StoresWord slot v s t ∧ SameRegsBut [.sp] s t ∧ t.reg .sp = s.reg .sp - 2 ∧
      t.fsz = s.fsz + 2 ∧ t.status = s.status ∧ SameMachine s t := by
  have hpushed := pushedFrom_pushed s slot v
  exact ⟨s.pushed slot v, h.exec_ok (push_slot hslot v),
    (storesWord_storeWord (slotIn_of_wordSlot hslot) v).congr rfl rfl, hpushed.sameRegs, reg_sp_pushed s slot v,
    fsz_pushed s slot v, hpushed.status, hpushed.machine⟩

/-- Settles O43: both forms push one word. -/
theorem pushStoresAtSp : Obligations.PushStoresAtSp := by
  intro s slot hslot
  exact ⟨fun lit => PushesWord.exec_slot (.inl rfl) hslot, fun r => PushesWord.exec_slot (.inr ⟨r, rfl, rfl⟩) hslot⟩

/-- A push instruction whose write faults changes `status` alone. -/
theorem PushesWord.exec_faults (h : PushesWord s v i) (hfault : WriteFaults s (s.reg .sp) cause) :
    exec i s = .next (s.stopped (.fault cause)) := h.exec_error (push_faults hfault v)

/-- Settles O44: the write of a push faults in no region and past a device. -/
theorem failedPushKeepsSp : Obligations.FailedPushKeepsSp := by
  intro s lit r
  have hboth : ∀ {cause}, WriteFaults s (s.reg .sp) cause →
      exec (.pshLit lit) s = .next (s.stopped (.fault cause)) ∧ exec (.pshReg r) s = .next (s.stopped (.fault cause)) :=
    fun hfault => ⟨PushesWord.exec_faults (.inl rfl) hfault, PushesWord.exec_faults (.inr ⟨r, rfl, rfl⟩) hfault⟩
  exact ⟨fun hnone => hboth (.inl ⟨hnone, rfl⟩),
    fun d la m hr hd hb => hboth (.inr ⟨d, la, m, hr, hd, Nat.lt_succ_of_le hb, rfl⟩)⟩

/-! ### POP -/

/-- Settles O45: the pop reads its slot and the destination is written last. -/
theorem popReadsAboveSp : Obligations.PopReadsAboveSp := by
  intro s rd d k hi lo hslot hhi hlo
  refine ⟨_, exec_pop_ok (pop_slot hslot) rd, ?_, reg_sp_poppedInto s _, sameRegsBut_poppedInto s rd _, rfl, rfl,
    sameStore_of_eq rfl rfl, ⟨rfl, rfl, rfl, rfl⟩⟩
  rw [reg_withReg_same]
  exact toNat_slotWord hhi hlo

/-- POP whose read faults has moved `sp` and the counter (44_stack_call.md R241). -/
theorem exec_pop_faults (h : ReadFaults s (s.reg .sp + 2) cause) (rd : Reg) :
    ∃ t, exec (.pop rd) s = .next t ∧ t.status = .faulted cause ∧ t.reg .sp = s.reg .sp + 2 ∧ t.fsz = s.fsz - 2 ∧
      SameRegsBut [.sp] s t ∧ SameStore s t ∧ SameMachine s t :=
  ⟨_, exec_pop_error (pop_faults h) rd, rfl, rfl, rfl, sameRegsBut_popped s, sameStore_of_eq rfl rfl, ⟨rfl, rfl, rfl, rfl⟩⟩

/-! ### Calls -/

/-- The state a call leaves, from the state after its ten pushes (44_stack_call.md R242, R247). -/
def State.entered (t : State) (target : Word) : State := ((t.withReg .fp (t.reg .sp)).withFsz 0).withReg .ip target

theorem reg_entered_other (t : State) (target : Word) (hip : r ≠ .ip) (hfp : r ≠ .fp) :
    (t.entered target).reg r = t.reg r := by
  simp [State.entered, reg_withReg_other _ _ hip, reg_withReg_other _ _ hfp]

theorem CallsTo.exec_ok {target : Word} (h : CallsTo s target i) (hpush : pushAll (frameWords s) s = .ok () t) :
    exec i s = .next (t.entered target) :=
  h.exec_eq.trans (perform_ok (run_callOperand_frame (run_litOperand target s) hpush))

theorem CallsTo.exec_error {target : Word} {e : Stop} (h : CallsTo s target i)
    (hpush : pushAll (frameWords s) s = .error e t) : exec i s = .next (t.stopped e) := by
  have hstate : pushState s = .error e t := by rw [run_pushState, hpush]
  refine h.exec_eq.trans (perform_error ?_)
  rw [run_callOperand (run_litOperand target s)]
  exact bind_error hstate

/-- A call whose ten pushes lie in memory devices (44_stack_call.md R242, R247, R248). -/
theorem CallsTo.enters {target : Word} (h : CallsTo s target i)
    (hslots : ∀ k, k < 10 → (s.wordSlot (s.reg .sp - BitVec.ofNat 16 (2 * k))).isSome) :
    ∃ t, exec i s = .next t ∧ t.reg .ip = target ∧ t.reg .sp = s.reg .sp - 20 ∧ t.reg .fp = s.reg .sp - 20 ∧ t.fsz = 0 ∧
      SameRegsBut [.ip, .sp, .fp] s t ∧ t.status = s.status ∧ SameMachine s t ∧ OnlyPushedBytes 10 s t ∧
      HoldsPushedWords 10 (frameWords s) s t := by
  obtain ⟨t, hpush, hfrom, hsp, hbytes, hwords⟩ := pushAll_slots (ws := frameWords s) (s := s) hslots
  refine ⟨t.entered target, h.exec_ok hpush, rfl, hsp, hsp, rfl, fun r hr => ?_, hfrom.status,
    ⟨hfrom.machine.1, hfrom.machine.2, hfrom.machine.3, hfrom.machine.4⟩, hbytes.congr rfl rfl, hwords.congr rfl⟩
  obtain ⟨hip, hsp, hfp⟩ : r ≠ .ip ∧ r ≠ .sp ∧ r ≠ .fp := by simpa using hr
  rw [reg_entered_other t target hip hfp, hfrom.regs r hsp]

/-- Settles O48: both calls enter alike, each with its target. -/
theorem callsEnterTheNewFrame : Obligations.CallsEnterTheNewFrame := by
  intro s target hslots
  exact ⟨CallsTo.enters (.inl rfl) hslots, fun r => CallsTo.enters (.inr ⟨r, rfl, rfl⟩) hslots⟩

/-- Settles O50: the pushes before the failing one are as in a call that completes, and the rest of the call does not run. -/
theorem callStopsAtItsFirstFailingPush : Obligations.CallStopsAtItsFirstFailingPush := by
  intro s i k cause hi hk hslots hfault
  obtain ⟨target, hcall⟩ := callsTo_of_call s hi
  obtain ⟨t, hpush, hfrom, hsp, hfsz, hbytes, hwords⟩ := pushAll_faults (ws := frameWords s) hk hslots hfault
  exact ⟨_, hcall.exec_error hpush, rfl, hsp, hfsz, hfrom.sameRegs,
    ⟨hfrom.machine.1, hfrom.machine.2, hfrom.machine.3, hfrom.machine.4⟩, hwords.congr rfl, hbytes.congr rfl rfl⟩

/-! ### The frame under the default map -/

/-- A call under the default map whose pushes meet no word at 0xFFFF: where its ten words stand, and which bytes it leaves. -/
theorem call_flat (hflat : FlatMap s) (hsp : ∀ k, k < 10 → s.reg .sp - BitVec.ofNat 16 (2 * k) ≠ 0xFFFF)
    (hi : (∃ addr, i = .callLit addr) ∨ ∃ r, i = .callReg r) (h : exec i s = .next t) :
    FlatMap t ∧ t.reg .fp = s.reg .sp - 20 ∧
      (∀ (j : Nat) (w : Word), (frameWords s)[j]? = some w → t.flatWord (s.reg .sp - BitVec.ofNat 16 (2 * j)) = w) ∧
      ∀ b, (∀ j, j < 10 → b ≠ s.reg .sp - BitVec.ofNat 16 (2 * j) ∧ b ≠ s.reg .sp - BitVec.ofNat 16 (2 * j) + 1) →
        t.peek b = s.peek b := by
  obtain ⟨target, hcall⟩ := callsTo_of_call s hi
  obtain ⟨p, hpush, _, hspp, hflatp, hwords, _, hbytes⟩ :=
    pushAll_flat (ws := frameWords s) hflat (by rw [frameWords_length]; decide) hsp
  have heq : t = p.entered target := by
    have := h.symm.trans (hcall.exec_ok hpush)
    cases this
    rfl
  subst heq
  exact ⟨hflatp.congr rfl rfl, hspp, fun j w hw => (flatWord_congr (s := p) rfl _).trans (hwords j w hw),
    fun b hb => (peek_congr (s := p) rfl rfl b).trans (hbytes b hb)⟩

/-- The frame is written downwards: counted from the new `fp`, word `j` stands at `20 - 2 * j`. -/
theorem frame_offset (w : Word) {j : Nat} (hj : j < 10) :
    w - 20 + BitVec.ofNat 16 (20 - 2 * j) = w - BitVec.ofNat 16 (2 * j) := by
  bv_omega

theorem frameWords_general {j : Nat} (hr : Reg.general[j]? = some r) : (frameWords s)[j]? = some (s.reg r) := by
  have hj : j < Reg.general.length := (List.getElem?_eq_some_iff.mp hr).1
  rw [frameWords, List.getElem?_append_left (by simpa using hj), List.getElem?_map, hr]
  rfl

/-- Settles O49: the ten words stand at their offsets from the new `fp`. -/
theorem callLeavesTheFrame : Obligations.CallLeavesTheFrame := by
  intro s t i hflat hsp hi h
  obtain ⟨hflatt, hfp, hwords, hbytes⟩ := call_flat hflat hsp hi h
  have hword : ∀ {j : Nat} {w : Word}, j < 10 → (frameWords s)[j]? = some w →
      t.flatWord (t.reg .fp + BitVec.ofNat 16 (20 - 2 * j)) = w := fun {j w} hj hw => by
    rw [hfp, frame_offset _ hj]
    exact hwords j w hw
  refine ⟨hflatt, hword (j := 9) (by decide) rfl, hword (j := 8) (by decide) rfl, fun j r hr => ?_, fun a ha => ?_⟩
  · have hj : j < 8 := (List.getElem?_eq_some_iff.mp hr).1
    exact hword (by omega) (frameWords_general hr)
  · refine hbytes a fun j hj => ⟨fun heq => ha (18 - 2 * j) (by omega) ?_, fun heq => ha (19 - 2 * j) (by omega) ?_⟩
    · rw [heq, hfp]
      bv_omega
    · rw [heq, hfp]
      bv_omega

end Sys2Proof.Machine
end


section
/-! The obligations of 44_stack_call.md: RET, pop by pop, and the return from a call. -/

namespace Sys2Proof.Machine

variable {s t u v : State} {slot : Nat → Nat × Nat} {cause : FaultCause} {r : Reg}

/-! ### Words counted along the stack -/

theorem add_words (w : Word) (j k : Nat) :
    w + BitVec.ofNat 16 (2 * j) + BitVec.ofNat 16 (2 * k) = w + BitVec.ofNat 16 (2 * (j + k)) := by
  rw [BitVec.add_assoc, ← BitVec.ofNat_add, Nat.mul_add]

theorem sub_words (w : Word) (j k : Nat) :
    w - BitVec.ofNat 16 (2 * j) - BitVec.ofNat 16 (2 * k) = w - BitVec.ofNat 16 (2 * (j + k)) := by
  rw [BitVec.sub_sub, ← BitVec.ofNat_add, Nat.mul_add]

theorem general_ne (h : r ∈ Reg.general) : r ≠ .ip ∧ r ≠ .acc ∧ r ≠ .sp ∧ r ≠ .fp := by
  refine ⟨?_, ?_, ?_, ?_⟩ <;> rintro rfl <;> exact absurd h (by decide)

theorem mem_general_of_reverse {j : Nat} (h : Reg.general.reverse[j]? = some r) : r ∈ Reg.general :=
  List.mem_reverse.mp (List.mem_of_getElem? h)

/-! ### What is left of a return -/

/-- `PopState` after the ten saved words. -/
def popArguments (fp : Word) : Op Unit := do
  let n ← pop
  popDiscard n.toNat
  setReg .fp fp

/-- `PopState` after the return address. -/
def popGeneral (fp : Word) : Op Unit := do
  popRegs Reg.general.reverse
  popArguments fp

/-- `PopState` after the saved frame size. -/
def popReturn (fp : Word) : Op Unit := do
  setReg .ip (← pop)
  popGeneral fp

theorem exec_ret_ok (h : popState s = .ok () t) : exec .ret s = .next t := perform_ok h

theorem exec_ret_error {e : Stop} (h : popState s = .error e t) : exec .ret s = .next (t.stopped e) := perform_error h

theorem popState_ok {saved : Word} (h : pop (s.withReg .sp (s.reg .fp)) = .ok saved u) :
    popState s = popReturn (s.reg .fp + saved) (u.withFsz (restoredFsz u.params.frameRestore saved)) := by
  simp only [popState, popReturn, popGeneral, popArguments, run_bind, run_getReg, run_setReg, h, run_setFsz, getFrameRestore]

theorem popState_error {e : Stop} (h : pop (s.withReg .sp (s.reg .fp)) = .error e u) : popState s = .error e u := by
  simp only [popState, run_bind, run_getReg, run_setReg, h]

theorem popReturn_ok {fp a : Word} (h : pop t = .ok a u) : popReturn fp t = popGeneral fp (u.withReg .ip a) := by
  simp only [popReturn, run_bind, h, run_setReg]

theorem popReturn_error {fp : Word} {e : Stop} (h : pop t = .error e u) : popReturn fp t = .error e u := bind_error h

theorem popGeneral_ok {fp : Word} (h : popRegs Reg.general.reverse t = .ok () u) : popGeneral fp t = popArguments fp u := by
  simp only [popGeneral, run_bind, h]

theorem popGeneral_error {fp : Word} {e : Stop} (h : popRegs Reg.general.reverse t = .error e u) :
    popGeneral fp t = .error e u := bind_error h

theorem popArguments_ok {fp n : Word} (hn : pop t = .ok n u) (h : popDiscard n.toNat u = .ok () v) :
    popArguments fp t = .ok () (v.withReg .fp fp) := by
  simp only [popArguments, run_bind, hn, h, run_setReg]

theorem popArguments_error {fp : Word} {e : Stop} (h : pop t = .error e u) : popArguments fp t = .error e u := bind_error h

theorem popArguments_discard_error {fp n : Word} {e : Stop} (hn : pop t = .ok n u) (h : popDiscard n.toNat u = .error e v) :
    popArguments fp t = .error e v := by
  simp only [popArguments, run_bind, hn, h]

/-! ### Where a return stands -/

/-- A return from `s` that has begun the pops before number `begun` and has written what the words before number `done` give;
`slot j` is the slot of word `j`, counted from `fp` up: the frame size, the return address, `r8` to `r1`, the argument count, the
arguments. -/
structure RetAt (s : State) (slot : Nat → Nat × Nat) (done begun : Nat) (t : State) : Prop where
  sp : t.reg .sp = s.reg .fp + BitVec.ofNat 16 (2 * begun)
  fsz : t.fsz = if done = 0 then s.fsz - BitVec.ofNat 16 (2 * begun)
    else restoredFsz s.params.frameRestore (s.slotWord (slot 0)) - BitVec.ofNat 16 (2 * (begun - 1))
  ip : t.reg .ip = if 1 < done then s.slotWord (slot 1) else s.reg .ip
  general : ∀ (j : Nat) (r : Reg), Reg.general.reverse[j]? = some r →
    t.reg r = if j + 2 < done then s.slotWord (slot (j + 2)) else s.reg r
  fp : t.reg .fp = s.reg .fp
  acc : t.reg .acc = s.reg .acc
  status : t.status = s.status
  devices : t.devices = s.devices
  machine : SameMachine s t

theorem RetAt.start (s : State) (slot : Nat → Nat × Nat) : RetAt s slot 0 0 (s.withReg .sp (s.reg .fp)) where
  sp := by simp
  fsz := by simp
  ip := reg_withReg_other _ _ (by decide)
  general := fun j r hr => reg_withReg_other _ _ (general_ne (mem_general_of_reverse hr)).2.2.1
  fp := reg_withReg_other _ _ (by decide)
  acc := reg_withReg_other _ _ (by decide)
  status := rfl
  devices := rfl
  machine := ⟨rfl, rfl, rfl, rfl⟩

variable {done begun : Nat}

/-- Pops that write none but `sp` and, past the saved frame size, the general registers: only what is popped is written. -/
theorem RetAt.after {changed : List Reg} {done' m : Nat} (h : RetAt s slot done begun t) (hp : PoppedFrom changed t u)
    (hkeep : .ip ∉ changed ∧ .fp ∉ changed ∧ .acc ∉ changed) (hsp : u.reg .sp = t.reg .sp + BitVec.ofNat 16 (2 * m))
    (hfsz : u.fsz = t.fsz - BitVec.ofNat 16 (2 * m)) (hdone : done' = 0 ∧ done = 0 ∨ 0 < done' ∧ 0 < done ∧ 0 < begun)
    (hip : 1 < done' ↔ 1 < done)
    (hgen : ∀ (j : Nat) (r : Reg), Reg.general.reverse[j]? = some r →
      u.reg r = if j + 2 < done' then s.slotWord (slot (j + 2)) else s.reg r) :
    RetAt s slot done' (begun + m) u where
  sp := by rw [hsp, h.sp, add_words]
  fsz := by
    rw [hfsz, h.fsz]
    obtain ⟨rfl, rfl⟩ | ⟨hd', hd, hb⟩ := hdone
    · simp only [if_true, sub_words]
    · rw [if_neg hd.ne', if_neg hd'.ne', sub_words]
      congr 3
      omega
  ip := by simp only [hp.regs _ hkeep.1, h.ip, hip]
  general := hgen
  fp := (hp.regs _ hkeep.2.1).trans h.fp
  acc := (hp.regs _ hkeep.2.2).trans h.acc
  status := hp.status.trans h.status
  devices := hp.devices.trans h.devices
  machine := ⟨hp.machine.1.trans h.machine.1, hp.machine.2.trans h.machine.2, hp.machine.3.trans h.machine.3,
    hp.machine.4.trans h.machine.4⟩

/-- Pops whose words have not been used, or are dropped. -/
theorem RetAt.dropped {m : Nat} (h : RetAt s slot done begun t) (hbegun : done ≤ begun) (hp : PoppedFrom [.sp] t u)
    (hsp : u.reg .sp = t.reg .sp + BitVec.ofNat 16 (2 * m)) (hfsz : u.fsz = t.fsz - BitVec.ofNat 16 (2 * m)) :
    RetAt s slot done (begun + m) u :=
  h.after hp (by decide) hsp hfsz (by omega) Iff.rfl fun j r hr => by
    rw [hp.regs r (by simpa using (general_ne (mem_general_of_reverse hr)).2.2.1)]
    exact h.general j r hr

theorem poppedFrom_popped (t : State) : PoppedFrom [.sp] t t.popped :=
  ⟨fun _ hr => by simp [State.popped, reg_withReg_other _ _ (List.mem_singleton.not.mp hr)], rfl, rfl, ⟨rfl, rfl, rfl, rfl⟩⟩

theorem RetAt.popped (h : RetAt s slot done begun t) (hbegun : done ≤ begun) : RetAt s slot done (begun + 1) t.popped :=
  h.dropped hbegun (poppedFrom_popped t) (reg_sp_popped t) rfl

theorem RetAt.pop_ok (h : RetAt s slot done begun t)
    (hslot : s.wordSlot (s.reg .fp + BitVec.ofNat 16 (2 * (begun + 1))) = some (slot begun)) :
    pop t = .ok (s.slotWord (slot begun)) t.popped :=
  pop_at h.machine.1 h.devices (by rw [h.sp, popped_sp_last]; exact hslot)

theorem RetAt.pop_error (h : RetAt s slot done begun t)
    (hfault : ReadFaults s (s.reg .fp + BitVec.ofNat 16 (2 * (begun + 1))) cause) :
    pop t = .error (.fault cause) t.popped :=
  pop_faults_at h.machine.1 h.devices (by rw [h.sp, popped_sp_last]; exact hfault)

/-- Word 0 gives the counter. -/
theorem RetAt.restoreFsz (h : RetAt s slot 0 1 t) :
    RetAt s slot 1 1 (t.withFsz (restoredFsz t.params.frameRestore (s.slotWord (slot 0)))) where
  sp := h.sp
  fsz := by simp [h.machine.params]
  ip := h.ip
  general := fun j r hr => by simpa using h.general j r hr
  fp := h.fp
  acc := h.acc
  status := h.status
  devices := h.devices
  machine := ⟨h.machine.1, h.machine.2, h.machine.3, h.machine.4⟩

/-- Word 1 gives `ip`. -/
theorem RetAt.restoreIp (h : RetAt s slot 1 2 t) : RetAt s slot 2 2 (t.withReg .ip (s.slotWord (slot 1))) where
  sp := (reg_withReg_other _ _ (by decide)).trans h.sp
  fsz := by simpa using h.fsz
  ip := by simp
  general := fun j r hr => by
    rw [reg_withReg_other _ _ (general_ne (mem_general_of_reverse hr)).1]
    simpa using h.general j r hr
  fp := (reg_withReg_other _ _ (by decide)).trans h.fp
  acc := (reg_withReg_other _ _ (by decide)).trans h.acc
  status := h.status
  devices := h.devices
  machine := ⟨h.machine.1, h.machine.2, h.machine.3, h.machine.4⟩

/-- Words 2 to 9 give the general registers, the first `k` of them where the pops end there. -/
theorem RetAt.restoreGeneral {k m : Nat} (h : RetAt s slot 2 2 t) (hp : PoppedFrom (.sp :: Reg.general.reverse) t u)
    (hsp : u.reg .sp = t.reg .sp + BitVec.ofNat 16 (2 * m)) (hfsz : u.fsz = t.fsz - BitVec.ofNat 16 (2 * m))
    (hgen : ∀ (j : Nat) (r : Reg), Reg.general.reverse[j]? = some r →
      u.reg r = if j < k then s.slotWord (slot (j + 2)) else t.reg r) :
    RetAt s slot (2 + k) (2 + m) u :=
  h.after hp (by decide) hsp hfsz (by omega) (by omega) fun j r hr => by
    have ht : t.reg r = s.reg r := by simpa using h.general j r hr
    rw [hgen j r hr, ht, Nat.add_comm 2 k]
    simp only [Nat.add_lt_add_iff_right]

/-- From word 10 on nothing more is restored. -/
theorem RetAt.past_general {k : Nat} (h : RetAt s slot 10 begun t) (hk : 10 ≤ k) : RetAt s slot k begun t where
  sp := h.sp
  fsz := by rw [h.fsz, if_neg (by omega), if_neg (by omega)]
  ip := by rw [h.ip, if_pos (by omega), if_pos (by omega)]
  general := fun j r hr => by
    have hj : j < 8 := (List.getElem?_eq_some_iff.mp hr).1
    rw [h.general j r hr, if_pos (by omega), if_pos (by omega)]
  fp := h.fp
  acc := h.acc
  status := h.status
  devices := h.devices
  machine := h.machine

/-! ### How far a return comes -/

/-- The words from `fp` up, before number `k`, lie in these slots. -/
def FrameSlots (s : State) (slot : Nat → Nat × Nat) (k : Nat) : Prop :=
  ∀ j, j < k → s.wordSlot (s.reg .fp + BitVec.ofNat 16 (2 * (j + 1))) = some (slot j)

theorem popState_to_return (h : FrameSlots s slot 1) :
    ∃ u, popState s = popReturn (s.reg .fp + s.slotWord (slot 0)) u ∧ RetAt s slot 1 1 u := by
  have h0 := RetAt.start s slot
  exact ⟨_, popState_ok (h0.pop_ok (h 0 (by decide))), (h0.popped (by decide)).restoreFsz⟩

theorem popState_to_general (h : FrameSlots s slot 2) :
    ∃ u, popState s = popGeneral (s.reg .fp + s.slotWord (slot 0)) u ∧ RetAt s slot 2 2 u := by
  obtain ⟨u, hu, h1⟩ := popState_to_return fun j hj => h j (by omega)
  exact ⟨_, hu.trans (popReturn_ok (h1.pop_ok (h 1 (by decide)))), (h1.popped (by decide)).restoreIp⟩

/-- The slots of the general registers, seen from where their pops start. -/
theorem RetAt.general_slots {k : Nat} (h : RetAt s slot 2 2 t) (hslots : FrameSlots s slot (k + 2)) {j : Nat} (hj : j < k) :
    s.wordSlot (t.reg .sp + BitVec.ofNat 16 (2 * (j + 1))) = some (slot (j + 2)) := by
  rw [h.sp, add_words, show 2 + (j + 1) = j + 2 + 1 by omega]
  exact hslots (j + 2) (by omega)

theorem general_reverse_nodup : Reg.general.reverse.Nodup := by decide
theorem sp_notMem_general_reverse : Reg.sp ∉ Reg.general.reverse := by decide

theorem popState_to_arguments (h : FrameSlots s slot 10) :
    ∃ u, popState s = popArguments (s.reg .fp + s.slotWord (slot 0)) u ∧ RetAt s slot 10 10 u := by
  obtain ⟨t, ht, h2⟩ := popState_to_general fun j hj => h j (by omega)
  obtain ⟨u, hu, hsp, hfsz, hgen, hp⟩ := popRegs_slots general_reverse_nodup sp_notMem_general_reverse (fun j => slot (j + 2))
    h2.machine.1 h2.devices fun j hj => h2.general_slots (k := 8) h hj
  refine ⟨u, ht.trans (popGeneral_ok hu), h2.restoreGeneral (k := 8) (m := 8) hp hsp hfsz fun j r hr => ?_⟩
  have hj : j < 8 := (List.getElem?_eq_some_iff.mp hr).1
  rw [hgen j r hr, if_pos hj]

/-- The slots of the arguments, seen from where they are dropped. -/
theorem RetAt.argument_slots {n : Nat} (h : RetAt s slot 10 11 t) (hslots : FrameSlots s slot (11 + n)) {j : Nat} (hj : j < n) :
    (s.wordSlot (t.reg .sp + BitVec.ofNat 16 (2 * (j + 1)))).isSome := by
  rw [h.sp, add_words, ← Nat.add_assoc, hslots (11 + j) (by omega)]
  rfl

/-- Pop number `k` of a return fails where the pops before it lie in slots (44_stack_call.md R243, 60_exceptions.md R287). -/
theorem popState_faults {k : Nat} (h : FrameSlots s slot k) (hk : 10 < k → k < 11 + (s.slotWord (slot 10)).toNat)
    (hfault : ReadFaults s (s.reg .fp + BitVec.ofNat 16 (2 * (k + 1))) cause) :
    ∃ u, popState s = .error (.fault cause) u ∧ RetAt s slot k (k + 1) u := by
  have hcases : k = 0 ∨ k = 1 ∨ (2 ≤ k ∧ k < 10) ∨ k = 10 ∨ 11 ≤ k := by omega
  obtain rfl | rfl | ⟨hlo, hhi⟩ | rfl | hlo := hcases
  · have h0 := RetAt.start s slot
    exact ⟨_, popState_error (h0.pop_error hfault), h0.popped (by decide)⟩
  · obtain ⟨t, ht, h1⟩ := popState_to_return h
    exact ⟨_, ht.trans (popReturn_error (h1.pop_error hfault)), h1.popped (by decide)⟩
  · obtain ⟨m, rfl⟩ := Nat.exists_eq_add_of_le' hlo
    obtain ⟨t, ht, h2⟩ := popState_to_general fun j hj => h j (by omega)
    obtain ⟨u, hu, hsp, hfsz, hgen, hp⟩ := popRegs_faults general_reverse_nodup sp_notMem_general_reverse
      (fun j => slot (j + 2)) h2.machine.1 h2.devices (k := m) (by show m < 8; omega)
      (fun j hj => h2.general_slots h hj)
      (by rw [h2.sp, add_words, show 2 + (m + 1) = m + 2 + 1 by omega]; exact hfault)
    have hat := h2.restoreGeneral hp hsp hfsz hgen
    rw [Nat.add_comm 2 m, show 2 + (m + 1) = m + 2 + 1 by omega] at hat
    exact ⟨u, ht.trans (popGeneral_error hu), hat⟩
  · obtain ⟨t, ht, h10⟩ := popState_to_arguments h
    exact ⟨_, ht.trans (popArguments_error (h10.pop_error hfault)), h10.popped (by decide)⟩
  · obtain ⟨m, rfl⟩ := Nat.exists_eq_add_of_le hlo
    obtain ⟨t, ht, h10⟩ := popState_to_arguments fun j hj => h j (by omega)
    have hcount := h10.pop_ok (h 10 (by omega))
    have h11 := h10.popped (by decide)
    obtain ⟨u, hu, hsp, hfsz, hp⟩ := popDiscard_faults (k := m) (n := (s.slotWord (slot 10)).toNat)
      (Nat.lt_of_add_lt_add_left (hk (by omega))) h11.machine.1 h11.devices
      (fun j hj => h11.argument_slots h hj) (by rw [h11.sp, add_words, ← Nat.add_assoc]; exact hfault)
    exact ⟨u, ht.trans (popArguments_discard_error hcount hu), (h11.dropped (by decide) hp hsp hfsz).past_general (by omega)⟩

/-- Settles O46: POP by its one pop, RET by where it stands when pop `k` fails. -/
theorem failedPopHasMovedSp : Obligations.FailedPopHasMovedSp := by
  refine ⟨fun s rd cause hfault => exec_pop_faults hfault rd, fun s slot k cause hslots hk hfault => ?_⟩
  obtain ⟨u, hu, hat⟩ := popState_faults hslots hk hfault
  refine ⟨_, exec_ret_error hu, rfl, hat.sp, hat.fsz.trans ?_, hat.ip, hat.general, hat.fp, hat.acc,
    sameStore_of_eq hat.machine.1 hat.devices, ⟨hat.machine.1, hat.machine.2, hat.machine.3, hat.machine.4⟩⟩
  by_cases h0 : k = 0 <;> simp [h0]

/-! ### A return that completes -/

/-- RET whose pops lie in slots (44_stack_call.md R243, R249). -/
theorem exec_ret_slots {n : Nat} (hn : n = (s.slotWord (slot 10)).toNat) (h : FrameSlots s slot (11 + n)) :
    ∃ u t, exec .ret s = .next t ∧ t = u.withReg .fp (s.reg .fp + s.slotWord (slot 0)) ∧ RetAt s slot 10 (11 + n) u := by
  obtain ⟨t, ht, h10⟩ := popState_to_arguments fun j hj => h j (by omega)
  have hcount := h10.pop_ok (h 10 (by omega))
  have h11 := h10.popped (by decide)
  obtain ⟨u, hu, hsp, hfsz, hp⟩ := popDiscard_slots n h11.machine.1 h11.devices fun j hj => h11.argument_slots h hj
  rw [hn] at hu
  exact ⟨u, _, exec_ret_ok (ht.trans (popArguments_ok hcount hu)), rfl, h11.dropped (by decide) hp hsp hfsz⟩

/-- What a completed return has restored. -/
theorem RetAt.restored {n : Nat} (h : RetAt s slot 10 (11 + n) u) (ht : t = u.withReg .fp (s.reg .fp + s.slotWord (slot 0))) :
    t.reg .ip = s.slotWord (slot 1) ∧
      (∀ (j : Nat) (r : Reg), Reg.general.reverse[j]? = some r → t.reg r = s.slotWord (slot (j + 2))) ∧
      t.reg .sp = s.reg .fp + BitVec.ofNat 16 (22 + 2 * n) ∧ t.reg .fp = s.reg .fp + s.slotWord (slot 0) ∧
      t.reg .acc = s.reg .acc ∧
      t.fsz = restoredFsz s.params.frameRestore (s.slotWord (slot 0)) - BitVec.ofNat 16 (20 + 2 * n) := by
  subst ht
  have hother : ∀ {r : Reg}, r ≠ .fp → (u.withReg .fp (s.reg .fp + s.slotWord (slot 0))).reg r = u.reg r :=
    fun hr => reg_withReg_other _ _ hr
  refine ⟨(hother (by decide)).trans h.ip, fun j r hr => ?_, ?_, reg_withReg_same .., (hother (by decide)).trans h.acc, ?_⟩
  · have hj : j < 8 := (List.getElem?_eq_some_iff.mp hr).1
    rw [hother (general_ne (mem_general_of_reverse hr)).2.2.2, h.general j r hr, if_pos (by omega)]
  · rw [hother (by decide), h.sp, show 2 * (11 + n) = 22 + 2 * n by omega]
  · rw [withReg_fsz, h.fsz, if_neg (by decide), show 2 * (11 + n - 1) = 20 + 2 * n by omega]

/-- Settles O51: the state after the last dropped pop, with `fp` moved up. -/
theorem returnRestoresTheFrame : Obligations.ReturnRestoresTheFrame := by
  intro s slot n hn hslots
  obtain ⟨u, t, hexec, ht, hat⟩ := exec_ret_slots hn hslots
  obtain ⟨hip, hgen, hsp, hfp, hacc, hfsz⟩ := hat.restored ht
  subst ht
  exact ⟨_, hexec, hip, hgen 0 _ rfl, hgen 1 _ rfl, hgen 2 _ rfl, hgen 3 _ rfl, hgen 4 _ rfl, hgen 5 _ rfl, hgen 6 _ rfl,
    hgen 7 _ rfl, hsp, hfp, hacc, hfsz, hat.status, sameStore_of_eq hat.machine.1 hat.devices,
    ⟨hat.machine.1, hat.machine.2, hat.machine.3, hat.machine.4⟩⟩

/-! ### The return from a call -/

/-- Under the default map: the slot of word `j`, counted from `fp` up. -/
def State.flatSlot (s : State) (j : Nat) : Nat × Nat :=
  (mainDevice, (s.reg .fp + BitVec.ofNat 16 (2 * (j + 1))).toNat)

theorem slotWord_flatSlot (s : State) (j : Nat) :
    s.slotWord (s.flatSlot j) = s.flatWord (s.reg .fp + BitVec.ofNat 16 (2 * (j + 1))) := rfl

theorem FlatMap.frameSlots (h : FlatMap s) {k : Nat}
    (htop : ∀ j, j < k → s.reg .fp + BitVec.ofNat 16 (2 * (j + 1)) ≠ 0xFFFF) : FrameSlots s s.flatSlot k :=
  fun j hj => h.wordSlot (htop j hj)

/-- The frame is popped in the reverse of the order in which it was pushed: word `j` from `fp` up is push `9 - j`. -/
theorem frame_word_address (w : Word) {j : Nat} (hj : j < 10) :
    w - 20 + BitVec.ofNat 16 (2 * (j + 1)) = w - BitVec.ofNat 16 (2 * (9 - j)) := by
  bv_omega

/-- The count and the arguments stand above the caller's `sp`. -/
theorem argument_word_address (w : Word) (j : Nat) :
    w - 20 + BitVec.ofNat 16 (2 * (10 + j + 1)) = w + BitVec.ofNat 16 (2 * (j + 1)) := by
  bv_omega

theorem general_reverse_getElem? {j : Nat} (h : Reg.general.reverse[j]? = some r) :
    j < 8 ∧ Reg.general[7 - j]? = some r := by
  have hj : j < 8 := (List.getElem?_eq_some_iff.mp h).1
  exact ⟨hj, by rw [← h, List.getElem?_reverse (by exact hj)]; rfl⟩

/-- The counter after a return, by P_FRAME_RESTORE, from the size a call saves. -/
theorem restoredFsz_saved (how : Config.FrameRestore) (w : Word) (n : Nat) :
    restoredFsz how (w + 20) - BitVec.ofNat 16 (20 + 2 * n) =
      match how with
      | .literal => w - BitVec.ofNat 16 (2 * n)
      | .balanced => w - BitVec.ofNat 16 (2 + 2 * n) := by
  cases how <;> simp only [restoredFsz] <;> bv_omega

/-- Settles O52: the return's slots are the call's frame, which still holds the pushed words, and the arguments above it. -/
theorem callThenReturnRestoresTheCaller : Obligations.CallThenReturnRestoresTheCaller := by
  intro s t u i n hflat hsp hi hcall hflatu hparams hfp hkept hn htop
  obtain ⟨_, hfpt, hwords, _⟩ := call_flat hflat hsp hi hcall
  have hfpu : u.reg .fp = s.reg .sp - 20 := hfp.trans hfpt
  have hword : ∀ {j : Nat} {w : Word}, j < 10 → (frameWords s)[9 - j]? = some w → u.slotWord (u.flatSlot j) = w :=
    fun {j w} hj hw => by
      have hsame := hkept (j + 1) (by omega) (by omega)
      rw [slotWord_flatSlot, hfp, hsame, hfpt, frame_word_address _ hj]
      exact hwords _ w hw
  have hslots : FrameSlots u u.flatSlot (11 + n) := hflatu.frameSlots fun j hj => by
    rw [hfpu]
    by_cases hlow : j < 10
    · rw [frame_word_address _ hlow]
      exact hsp _ (by omega)
    · obtain ⟨m, rfl⟩ := Nat.exists_eq_add_of_le (Nat.le_of_not_lt hlow)
      rw [argument_word_address]
      exact htop m (by omega)
  have hcount : n = (u.slotWord (u.flatSlot 10)).toNat := by
    rw [hn, slotWord_flatSlot, hfpu, argument_word_address _ 0]
    rfl
  obtain ⟨p, v, hexec, hv, hat⟩ := exec_ret_slots hcount hslots
  obtain ⟨hip, hgen, hspv, hfpv, hacc, hfsz⟩ := hat.restored hv
  have hsaved : u.slotWord (u.flatSlot 0) = s.fsz + 20 := hword (by decide) rfl
  refine ⟨v, hexec, hip.trans (hword (by decide) rfl), fun r hr => ?_, ?_, ?_, hacc, ?_⟩
  · obtain ⟨j, hj⟩ := List.mem_iff_getElem?.mp (List.mem_reverse.mpr hr)
    obtain ⟨hlt, hgeneral⟩ := general_reverse_getElem? hj
    rw [hgen j r hj]
    exact hword (by omega) (by rw [show 9 - (j + 2) = 7 - j by omega]; exact frameWords_general hgeneral)
  · rw [hspv, hfpu]
    bv_omega
  · rw [hfpv, hfpu, hsaved]
    bv_omega
  · rw [hfsz, hsaved, hparams]
    exact restoredFsz_saved _ _ n

end Sys2Proof.Machine
end
